-- ==== Sys2Proof/Word.lean ====
section
/-! DEFINITION. The word types of the engine (spec/00_scope.md R11, R12, R13). -/

namespace Sys2Proof

/-- One byte of memory (20_memory.md R80). -/
abbrev Byte := BitVec 8

/-- A FixedScalar: a 16-bit two's-complement Q3.12 code (00_scope.md R11). -/
abbrev FixedScalar := BitVec 16

/-- A 32-bit word: a descriptor word or a register (00_scope.md R13, 10_state.md R30). -/
abbrev Word := BitVec 32

/-- An accumulator: 32 bits, read as a signed integer (00_scope.md R12). -/
abbrev Acc := BitVec 32

end Sys2Proof
end

