-- ==== Sys2Proof/Syntax.lean ====
section
/-! DEFINITION. The commands: one constructor of `Instr` per row of spec/opcode_table.json, with the named operand
words of its layout (spec/30_encoding.md R122, R124, R126 to R138). -/

namespace Sys2Proof

/-- Operand kind `pair`: lane 0 is w[15:0], lane 1 is w[31:16] (30_encoding.md R124). -/
structure Pair where
  lane0 : FixedScalar
  lane1 : FixedScalar
  deriving DecidableEq, Repr

/-- LINEAR / LINEAR.NB operands w1 to w6 (30_encoding.md R126). -/
structure LinearOps where
  inp : Word
  out : Word
  w : Word
  b : Word
  nIn : Word
  nOut : Word
  deriving DecidableEq, Repr

/-- CONV2D operands w1 to w10 (30_encoding.md R127). -/
structure ConvOps where
  inp : Word
  out : Word
  w : Word
  b : Word
  h : Word
  wd : Word
  cin : Word
  cout : Word
  kh : Word
  kw : Word
  deriving DecidableEq, Repr

/-- GATEFUSION operands w1 to w10 (30_encoding.md R128). -/
structure GateOps where
  x1 : Word
  x2 : Word
  w1 : Word
  w2 : Word
  b1 : Word
  b2 : Word
  out : Word
  n1 : Word
  n2 : Word
  nOut : Word
  deriving DecidableEq, Repr

/-- LSTM / LSTM.F operands w1 to w11 (30_encoding.md R134). -/
structure LstmOps where
  x : Word
  wih : Word
  whh : Word
  bih : Word
  bhh : Word
  h : Word
  c : Word
  g : Word
  nIn : Word
  nHid : Word
  seq : Word
  deriving DecidableEq, Repr

/-- RNN operands w1 to w10 (30_encoding.md R135). -/
structure RnnOps where
  x : Word
  wih : Word
  whh : Word
  bih : Word
  bhh : Word
  h : Word
  t : Word
  nIn : Word
  nHid : Word
  seq : Word
  deriving DecidableEq, Repr

/-- NET operands w1 to w4 (30_encoding.md R133). -/
structure NetOps where
  list : Word
  count : Word
  input : Word
  inLen : Word
  deriving DecidableEq, Repr

/-- The 25 commands of spec/opcode_table.json, in the table's order (30_encoding.md R122). -/
inductive Instr where
  | linear (o : LinearOps)
  | linearNb (o : LinearOps)
  | rnn (o : RnnOps)
  | lstm (o : LstmOps)
  | lstmF (o : LstmOps)
  | conv2d (o : ConvOps)
  | gateFusion (o : GateOps)
  | gateFusionTanh (o : GateOps)
  | gateFusionSig (o : GateOps)
  | add (a b dst n : Word)
  | had (a b dst n : Word)
  | copy (src dst n : Word)
  | fill (dst n : Word) (value : FixedScalar)
  | actId (src dst n : Word)
  | actTanh (src dst n : Word)
  | actSig (src dst n : Word)
  | net (o : NetOps)
  | accSet (d value : Word)
  | accB (d : Word) (bias : FixedScalar)
  | mac2 (d : Word) (a b : Pair)
  | mac1 (d : Word) (a b : FixedScalar)
  | req (d : Word)
  | actsId (x : FixedScalar)
  | actsTanh (x : FixedScalar)
  | actsSig (x : FixedScalar)
  deriving DecidableEq, Repr

end Sys2Proof
end

