-- ==== Sys2Proof/Machine/State.lean ====
section
/-! DEFINITION. The state of the engine as plain data, the reasons a step stops, and the state after reset
(spec/10_state.md; INVENTORY.md, State). -/

namespace Sys2Proof.Machine

/-- The byte range `[base, base + len)`, in mathematical integers (20_memory.md R84, R90). -/
structure Range where
  base : Nat
  len : Nat
  deriving DecidableEq, Repr

/-- The error codes of 60_exceptions.md R310; the codes 6 to 15 are never produced, so they have no name. -/
inductive ErrCode where
  | none
  | illegalCommand
  | unsupportedLayer
  | shapeMismatch
  | misaligned
  | busError
  deriving DecidableEq, Repr

/-- The activation LUT: four arrays of 16 registers (10_state.md R43). -/
structure Lut where
  tanhM : Vector Word 16
  tanhQ : Vector Word 16
  sigM : Vector Word 16
  sigQ : Vector Word 16
  deriving DecidableEq, Repr

/-- Memory: the bytes that differ from what an unlisted address reads as, by rising address (20_memory.md R80).
`Memory.wf` in Machine/Ops.lean is its canonical form. -/
structure Memory where
  cells : List Host.Cell
  deriving DecidableEq, Repr

/-- The platform's parameters (00_scope.md R10, 93 P1 and P2): the base of the register window, and the ranges the
engine may not access. Every set of accessible bytes is the complement of such a list (log entry 4). -/
structure Platform where
  engineBase : Word
  holes : List Range
  deriving DecidableEq, Repr

/-- The width of a host access to the register window (10_state.md R49). -/
inductive AccessWidth where
  | byte
  | half
  | word
  deriving DecidableEq, Repr

/-- One move of the host or of the environment (20_memory.md R97, 70_reset_and_hazards.md R340), or the engine's
turn among them. The offset of a register access is its byte offset in the 1024-byte window (10_state.md R30). -/
inductive Event where
  /-- The host reads the window at an offset. -/
  | regRead (off : BitVec 10) (width : AccessWidth)
  /-- The host writes the window at an offset. -/
  | regWrite (off : BitVec 10) (width : AccessWidth) (v : Word)
  /-- The host reads one byte of memory. -/
  | memRead (addr : Word)
  /-- The host writes one byte of memory. -/
  | memWrite (addr : Word) (b : Byte)
  /-- The host waits: nothing happens. -/
  | wait
  /-- The engine's turn: the command in flight, if there is one, completes. -/
  | engine
  /-- The platform asserts reset. -/
  | assertReset
  /-- The platform releases reset. -/
  | releaseReset
  deriving DecidableEq, Repr

/-- Why the machine stops with a fault. No command of the engine stops it; both are moves of the host for which
the spec gives no step. -/
inductive Fault where
  /-- Raised by a host write to a byte of the footprint of the command in flight: a race between the two agents
  (20_memory.md R98, 93 F2). Safe: the spec gives the host no such step. -/
  | footprintRace (addr : Word)
  /-- Raised by a host access to an address outside the memory it shares with the engine (20_memory.md R80, R84).
  Safe: the model says nothing of what is there. -/
  | notSharedMemory (addr : Word)
  deriving DecidableEq, Repr

/-- Why a step has no meaning. -/
inductive Refusal where
  /-- Raised by exec's arm of an instruction that has no meaning yet; no arm answers it. Safe. -/
  | notModelled (mnemonic : String)
  /-- Raised by a host access to the window that is not an aligned 32-bit access: it has no defined effect
  (10_state.md R49, 93 F1). Safe. -/
  | badRegisterAccess (off : BitVec 10)
  /-- Raised by a host register access while reset is asserted: it has no defined effect
  (70_reset_and_hazards.md R340, 93 F3). Safe. -/
  | registerAccessInReset (off : BitVec 10)
  deriving DecidableEq, Repr

/-- Everything the spec gives the machine (10_state.md R30 to R54), then the platform's parameters, then the
model's own fields. ID is a constant and the interrupt output a function of the state (`State.irq`). -/
structure State where
  /-- CTRL.IRQ_EN (R32). -/
  irqEn : Bool
  /-- STATUS.BUSY (R33): a command is in flight (R53). -/
  busy : Bool
  /-- STATUS.DONE (R33). -/
  done : Bool
  /-- STATUS.ERR (R33). -/
  err : Bool
  /-- STATUS.ERRCODE (R33, 60_exceptions.md R310). -/
  errCode : ErrCode
  /-- CMD_ADDR (R34). -/
  cmdAddr : Word
  /-- RESULT (R35). -/
  result : Word
  /-- FAULT_ADDR (R36). -/
  faultAddr : Word
  /-- LAYER_IDX (R37). -/
  layerIdx : Word
  /-- LAST_PASSES (R38). -/
  lastPasses : Word
  /-- SRES (R39). -/
  sres : Word
  /-- TILE_CFG (R40). -/
  tileCfg : Word
  /-- SCRATCH_A (R41). -/
  scratchA : Word
  /-- SCRATCH_B (R41). -/
  scratchB : Word
  /-- SCRATCH_CAP (R42). -/
  scratchCap : Word
  /-- TANH_M, TANH_Q, SIG_M, SIG_Q (R43). -/
  lut : Lut
  /-- ACC[0] to ACC[14] (R45). -/
  acc : Vector Acc 15
  /-- The memory shared with the host (20_memory.md R80). -/
  mem : Memory
  /-- Is the reset input asserted (70_reset_and_hazards.md R340)? -/
  inReset : Bool
  /-- The platform's parameters; no step changes them. -/
  platform : Platform
  /-- The model's own: the moves to come, the first one next (log entry 5). -/
  agenda : List Event
  /-- The model's own: what the last host read returned (log entry 6). -/
  hostData : Word
  /-- The model's own: how many free values have been drawn (log entry 7). -/
  draws : Nat
  deriving DecidableEq, Repr

/-- The platform of the state after reset: one 64 KiB memory at address 0, as in 95_test_vectors.md, and the
window above it (log entry 4, DESIGN CHOICE). -/
def Platform.reset : Platform :=
  { engineBase := 0xFFFF0000
    holes := [{ base := 0x10000, len := 0xFFFF0000 }] }

/-- The machine right after reset (10_state.md R54). The LUT and the accumulators, whose reset values the spec
leaves unspecified, are 0 here (log entry 1, DESIGN CHOICE); memory lists nothing (log entry 3). -/
def State.reset : State :=
  { irqEn := false
    busy := false
    done := false
    err := false
    errCode := .none
    cmdAddr := 0
    result := 0
    faultAddr := 0
    layerIdx := 0
    lastPasses := 0
    sres := 0
    tileCfg := 0x00008116
    scratchA := 0
    scratchB := 0
    scratchCap := 0
    lut :=
      { tanhM := Vector.replicate 16 0
        tanhQ := Vector.replicate 16 0
        sigM := Vector.replicate 16 0
        sigQ := Vector.replicate 16 0 }
    acc := Vector.replicate 15 0
    mem := { cells := [] }
    inReset := false
    platform := Platform.reset
    agenda := []
    hostData := 0
    draws := 0 }

end Sys2Proof.Machine
end

