-- ==== Sys2Proof/Machine/Numeric.lean ====
section
/-! DEFINITION. The shared arithmetic: exact on integers, then narrowed (spec/40_numeric_core.md R160 to R168,
spec/42_activation.md R240 to R246). -/

namespace Sys2Proof.Machine

/-- wrap_16 (00_scope.md R14). -/
def wrap16 (v : Int) : FixedScalar := BitVec.ofInt 16 v

/-- wrap_32 (00_scope.md R14). -/
def wrap32 (v : Int) : Acc := BitVec.ofInt 32 v

/-- asr, the arithmetic right shift: floor division by a power of two (00_scope.md R14). -/
def asr (v : Int) (k : Nat) : Int := v / 2 ^ k

/-- RQ, the requantizer: floor by 12, then the low 16 bits (R161). -/
def requantize (acc : Acc) : FixedScalar := wrap16 (asr acc.toInt 12)

/-- BIAS12, the bias pre-shift (R162). -/
def bias12 (b : FixedScalar) : Acc := wrap32 (b.toInt * 4096)

/-- BIAS12_2, the pre-shift of two biases, their sum exact (R162). -/
def bias12Sum (b1 b2 : FixedScalar) : Acc := wrap32 ((b1.toInt + b2.toInt) * 4096)

/-- MACP, the 2-lane multiply-accumulate (R163). -/
def macPair (acc : Acc) (a0 a1 b0 b1 : FixedScalar) : Acc :=
  wrap32 (acc.toInt + a0.toInt * b0.toInt + a1.toInt * b1.toInt)

/-- MACS, the scalar fallback (R164). -/
def macScalar (acc : Acc) (a b : FixedScalar) : Acc := wrap32 (acc.toInt + a.toInt * b.toInt)

/-- DOT, the dot-product sweep: two elements at a time, the odd tail through the scalar fallback (R165). -/
def dot : Acc → List FixedScalar → List FixedScalar → Acc
  | acc, x0 :: x1 :: xs, w0 :: w1 :: ws => dot (macPair acc x0 x1 w0 w1) xs ws
  | acc, x0 :: _, w0 :: _ => macScalar acc x0 w0
  | acc, _, _ => acc

/-- ADD16 (R166). -/
def add16 (a b : FixedScalar) : FixedScalar := wrap16 (a.toInt + b.toInt)

/-- HAD16, the Hadamard multiply (R167). -/
def had16 (a b : FixedScalar) : FixedScalar := wrap16 (asr (a.toInt * b.toInt) 12)

/-! ### Activation -/

/-- The modes of the LUT engine (42_activation.md R240). -/
inductive Mode where
  | identity
  | tanh
  | sigmoid
  deriving DecidableEq, Repr

/-- A LUT register, read as sext_32 (10_state.md R43). -/
def lutEntry (v : Vector Word 16) (k : Nat) : Int := if h : k < 16 then v[k].toInt else 0

/-- The positive branch of bucket `idx` at magnitude `a`: the product and the sum wrap modulo 2^32, then RQ
(42_activation.md R243). -/
def lutEval (m q : Vector Word 16) (idx a : Nat) : FixedScalar :=
  requantize (wrap32 (lutEntry m idx * a + lutEntry q idx))

/-- The bucket index of a magnitude (42_activation.md R241). -/
def bucket (a : Nat) : Nat := a / 1024

/-- ACTF for tanh: saturation, evaluation, and the complement mirror (42_activation.md R242 to R244). -/
def tanhOf (lut : Lut) (x : FixedScalar) : FixedScalar :=
  let a := x.toInt.natAbs
  if 16 ≤ bucket a then (if x.toInt < 0 then wrap16 (-4096) else wrap16 4096)
  else
    let r := lutEval lut.tanhM lut.tanhQ (bucket a) a
    if x.toInt < 0 then ~~~r else r

/-- ACTF for sigmoid: saturation, evaluation, and the mirror 4095 + complement (42_activation.md R242, R243,
R245). -/
def sigmoidOf (lut : Lut) (x : FixedScalar) : FixedScalar :=
  let a := x.toInt.natAbs
  if 16 ≤ bucket a then (if x.toInt < 0 then wrap16 0 else wrap16 4096)
  else
    let r := lutEval lut.sigM lut.sigQ (bucket a) a
    if x.toInt < 0 then wrap16 (4095 + (~~~r).toInt) else r

/-- ACTF (42_activation.md R243). -/
def actf (lut : Lut) : Mode → FixedScalar → FixedScalar
  | .identity, x => x
  | .tanh, x => tanhOf lut x
  | .sigmoid, x => sigmoidOf lut x

end Sys2Proof.Machine
end

