-- ==== Sys2Proof/Config.lean ====
section
/-! DEFINITION. What the spec leaves open as a value: one uninterpreted source of free values
(spec/93_implementation_defined.md section 2, U1 to U8). -/

namespace Sys2Proof.Config

/-- The free values the spec says a model draws. Draw number `k` of a run is `freeValue k`; `State.draws` says
which number comes next. It has no body, so nothing can be proved of a value drawn (log entry 7). -/
opaque freeValue : Nat → Word

end Sys2Proof.Config
end

