-- ==== Sys2Proof/WellFormed.lean ====
section
/-! DEFINITION. Which commands have an encoding the spec calls legal: an operand of kind `index` names one of the
15 accumulators (spec/30_encoding.md R124, spec/60_exceptions.md R312). Every other operand may hold any value. -/

namespace Sys2Proof

/-- An operand of kind `index` is legal only if it is at most 14 (30_encoding.md R124). -/
def indexLegal (d : Word) : Bool := d.toNat ≤ 14

/-- The check a decoded command passes: its index operand, if it has one, is legal. -/
def Instr.wf : Instr → Bool
  | .linear _ => true
  | .linearNb _ => true
  | .rnn _ => true
  | .lstm _ => true
  | .lstmF _ => true
  | .conv2d _ => true
  | .gateFusion _ => true
  | .gateFusionTanh _ => true
  | .gateFusionSig _ => true
  | .add _ _ _ _ => true
  | .had _ _ _ _ => true
  | .copy _ _ _ => true
  | .fill _ _ _ => true
  | .actId _ _ _ => true
  | .actTanh _ _ _ => true
  | .actSig _ _ _ => true
  | .net _ => true
  | .accSet d _ => indexLegal d
  | .accB d _ => indexLegal d
  | .mac2 d _ _ => indexLegal d
  | .mac1 d _ _ => indexLegal d
  | .req d => indexLegal d
  | .actsId _ => true
  | .actsTanh _ => true
  | .actsSig _ => true

/-- A well-formed command. -/
abbrev WellFormed (i : Instr) : Prop := i.wf = true

end Sys2Proof
end

