-- ==== Sys2Proof/Decode.lean ====
section
/-! DEFINITION. The descriptor format: byte order, header fields, the header's legality, the decoder, and the
encoder written from the same tables (spec/30_encoding.md R120 to R142). -/

namespace Sys2Proof

/-! ### Byte order (20_memory.md R81) -/

/-- The 32-bit word whose least significant byte is `b0`, the byte at the lowest address. -/
def wordOfBytes (b0 b1 b2 b3 : Byte) : Word := b3 ++ b2 ++ b1 ++ b0

/-- The 16-bit element whose least significant byte is `b0`, the byte at the lower address. -/
def halfOfBytes (b0 b1 : Byte) : FixedScalar := b1 ++ b0

/-- Byte `k` of a word, byte 0 the least significant. -/
def byteOfWord (w : Word) (k : Nat) : Byte := w.extractLsb' (8 * k) 8

/-- Byte `k` of an element, byte 0 the least significant. -/
def byteOfHalf (v : FixedScalar) (k : Nat) : Byte := v.extractLsb' (8 * k) 8

/-- The four bytes of a word in memory order. -/
def bytesOfWord (w : Word) : List Byte := [byteOfWord w 0, byteOfWord w 1, byteOfWord w 2, byteOfWord w 3]

/-! ### Header fields (30_encoding.md R121) -/

/-- OPC, bits 7:0 of the header. -/
def headerOpc (h : Word) : BitVec 8 := h.extractLsb' 0 8

/-- FLAGS, bits 11:8 of the header. -/
def headerFlags (h : Word) : BitVec 4 := h.extractLsb' 8 4

/-- RSV, bits 31:12 of the header. -/
def headerRsv (h : Word) : BitVec 20 := h.extractLsb' 12 20

/-- The header FLAGS, OPC with RSV = 0. -/
def header (flags : BitVec 4) (opc : BitVec 8) : Word := (0 : BitVec 20) ++ flags ++ opc

/-- The legality of a header, the procedure of 30_encoding.md R141 (and R123). -/
def headerLegal (h : Word) : Bool :=
  headerRsv h == 0 &&
  (let opc := (headerOpc h).toNat
   let flags := headerFlags h
   if opc = 0x01 ∨ opc = 0x03 then flags.extractLsb' 1 3 == 0
   else if opc = 0x10 ∨ opc = 0x30 ∨ opc = 0x55 then
     flags.extractLsb' 2 2 == 0 && flags.extractLsb' 0 2 != 3
   else if opc ∈ [0x02, 0x04, 0x20, 0x21, 0x22, 0x23, 0x40, 0x50, 0x51, 0x52, 0x53, 0x54] then flags == 0
   else false)

/-! ### Operand words (30_encoding.md R124) -/

/-- value16: w[15:0]; w[31:16] is ignored. -/
def value16 (w : Word) : FixedScalar := w.extractLsb' 0 16

/-- pair: lane 0 is w[15:0], lane 1 is w[31:16]. -/
def pairOf (w : Word) : Pair := { lane0 := w.extractLsb' 0 16, lane1 := w.extractLsb' 16 16 }

/-! ### The decoder -/

/-- Why a descriptor is rejected. -/
inductive DecodeError where
  /-- Fewer than 64 bytes were given (no descriptor in memory is short). -/
  | truncated
  /-- The header is illegal (30_encoding.md R123). -/
  | illegalHeader (h : Word)
  /-- An accumulator number above 14 (30_encoding.md R124). -/
  | badIndex (d : Word)
  deriving DecidableEq, Repr

/-- LINEAR operands (30_encoding.md R126). -/
def linearOps (w : Nat → Word) : LinearOps :=
  { inp := w 1, out := w 2, w := w 3, b := w 4, nIn := w 5, nOut := w 6 }

/-- CONV2D operands (30_encoding.md R127). -/
def convOps (w : Nat → Word) : ConvOps :=
  { inp := w 1, out := w 2, w := w 3, b := w 4, h := w 5, wd := w 6, cin := w 7, cout := w 8, kh := w 9,
    kw := w 10 }

/-- GATEFUSION operands (30_encoding.md R128). -/
def gateOps (w : Nat → Word) : GateOps :=
  { x1 := w 1, x2 := w 2, w1 := w 3, w2 := w 4, b1 := w 5, b2 := w 6, out := w 7, n1 := w 8, n2 := w 9,
    nOut := w 10 }

/-- LSTM operands (30_encoding.md R134). -/
def lstmOps (w : Nat → Word) : LstmOps :=
  { x := w 1, wih := w 2, whh := w 3, bih := w 4, bhh := w 5, h := w 6, c := w 7, g := w 8, nIn := w 9,
    nHid := w 10, seq := w 11 }

/-- RNN operands (30_encoding.md R135). -/
def rnnOps (w : Nat → Word) : RnnOps :=
  { x := w 1, wih := w 2, whh := w 3, bih := w 4, bhh := w 5, h := w 6, t := w 7, nIn := w 8, nHid := w 9,
    seq := w 10 }

/-- NET operands (30_encoding.md R133). -/
def netOps (w : Nat → Word) : NetOps := { list := w 1, count := w 2, input := w 3, inLen := w 4 }

/-- A primitive's command, unless its accumulator number is above 14 (30_encoding.md R124). -/
def withIndex (d : Word) (i : Instr) : Except DecodeError Instr :=
  if indexLegal d then .ok i else .error (.badIndex d)

/-- The command whose header has RSV = 0, this OPC and these FLAGS, and whose words are `w` (30_encoding.md R122,
R126 to R138); any other OPC and FLAGS is the illegal header `h`. -/
def decodeFields (h : Word) (opc flags : Nat) (w : Nat → Word) : Except DecodeError Instr :=
  match opc, flags with
  | 0x01, 1 => .ok (.linear (linearOps w))
  | 0x01, 0 => .ok (.linearNb (linearOps w))
  | 0x02, 0 => .ok (.rnn (rnnOps w))
  | 0x03, 0 => .ok (.lstm (lstmOps w))
  | 0x03, 1 => .ok (.lstmF (lstmOps w))
  | 0x04, 0 => .ok (.conv2d (convOps w))
  | 0x10, 0 => .ok (.gateFusion (gateOps w))
  | 0x10, 1 => .ok (.gateFusionTanh (gateOps w))
  | 0x10, 2 => .ok (.gateFusionSig (gateOps w))
  | 0x20, 0 => .ok (.add (w 1) (w 2) (w 3) (w 4))
  | 0x21, 0 => .ok (.had (w 1) (w 2) (w 3) (w 4))
  | 0x22, 0 => .ok (.copy (w 1) (w 2) (w 3))
  | 0x23, 0 => .ok (.fill (w 1) (w 2) (value16 (w 3)))
  | 0x30, 0 => .ok (.actId (w 1) (w 2) (w 3))
  | 0x30, 1 => .ok (.actTanh (w 1) (w 2) (w 3))
  | 0x30, 2 => .ok (.actSig (w 1) (w 2) (w 3))
  | 0x40, 0 => .ok (.net (netOps w))
  | 0x50, 0 => withIndex (w 1) (.accSet (w 1) (w 2))
  | 0x51, 0 => withIndex (w 1) (.accB (w 1) (value16 (w 2)))
  | 0x52, 0 => withIndex (w 1) (.mac2 (w 1) (pairOf (w 2)) (pairOf (w 3)))
  | 0x53, 0 => withIndex (w 1) (.mac1 (w 1) (value16 (w 2)) (value16 (w 3)))
  | 0x54, 0 => withIndex (w 1) (.req (w 1))
  | 0x55, 0 => .ok (.actsId (value16 (w 1)))
  | 0x55, 1 => .ok (.actsTanh (value16 (w 1)))
  | 0x55, 2 => .ok (.actsSig (value16 (w 1)))
  | _, _ => .error (.illegalHeader h)

/-- The command of the 16 descriptor words `w 0`, …, `w 15` (30_encoding.md R120, R141). -/
def decodeWords (w : Nat → Word) : Except DecodeError Instr :=
  if headerRsv (w 0) = 0 then
    decodeFields (w 0) (headerOpc (w 0)).toNat (headerFlags (w 0)).toNat w
  else .error (.illegalHeader (w 0))

/-- Word `j` of a descriptor given as its bytes in memory order (20_memory.md R83). -/
def wordAt (bs : List Byte) (j : Nat) : Word :=
  wordOfBytes (bs.getD (4 * j) 0) (bs.getD (4 * j + 1) 0) (bs.getD (4 * j + 2) 0) (bs.getD (4 * j + 3) 0)

/-- The decoder: the command of a 64-byte descriptor, total on any bytes (30_encoding.md R120, R142). -/
def decode (bs : List Byte) : Except DecodeError Instr :=
  if bs.length < 64 then .error .truncated else decodeWords (wordAt bs)

/-! ### The encoder -/

/-- The header word of a command (30_encoding.md R122). -/
def encodeHeader : Instr → Word
  | .linear _ => header 1 0x01
  | .linearNb _ => header 0 0x01
  | .rnn _ => header 0 0x02
  | .lstm _ => header 0 0x03
  | .lstmF _ => header 1 0x03
  | .conv2d _ => header 0 0x04
  | .gateFusion _ => header 0 0x10
  | .gateFusionTanh _ => header 1 0x10
  | .gateFusionSig _ => header 2 0x10
  | .add _ _ _ _ => header 0 0x20
  | .had _ _ _ _ => header 0 0x21
  | .copy _ _ _ => header 0 0x22
  | .fill _ _ _ => header 0 0x23
  | .actId _ _ _ => header 0 0x30
  | .actTanh _ _ _ => header 1 0x30
  | .actSig _ _ _ => header 2 0x30
  | .net _ => header 0 0x40
  | .accSet _ _ => header 0 0x50
  | .accB _ _ => header 0 0x51
  | .mac2 _ _ _ => header 0 0x52
  | .mac1 _ _ _ => header 0 0x53
  | .req _ => header 0 0x54
  | .actsId _ => header 0 0x55
  | .actsTanh _ => header 1 0x55
  | .actsSig _ => header 2 0x55

/-- The word of a value16 operand, its ignored half 0. -/
def wordOfValue16 (v : FixedScalar) : Word := (0 : BitVec 16) ++ v

/-- The word of a pair operand. -/
def wordOfPair (p : Pair) : Word := p.lane1 ++ p.lane0

/-- The operand words w1, w2, … of a command, as far as its layout names them (30_encoding.md R126 to R138). -/
def encodeOperands : Instr → List Word
  | .linear o => [o.inp, o.out, o.w, o.b, o.nIn, o.nOut]
  | .linearNb o => [o.inp, o.out, o.w, o.b, o.nIn, o.nOut]
  | .rnn o => [o.x, o.wih, o.whh, o.bih, o.bhh, o.h, o.t, o.nIn, o.nHid, o.seq]
  | .lstm o => [o.x, o.wih, o.whh, o.bih, o.bhh, o.h, o.c, o.g, o.nIn, o.nHid, o.seq]
  | .lstmF o => [o.x, o.wih, o.whh, o.bih, o.bhh, o.h, o.c, o.g, o.nIn, o.nHid, o.seq]
  | .conv2d o => [o.inp, o.out, o.w, o.b, o.h, o.wd, o.cin, o.cout, o.kh, o.kw]
  | .gateFusion o => [o.x1, o.x2, o.w1, o.w2, o.b1, o.b2, o.out, o.n1, o.n2, o.nOut]
  | .gateFusionTanh o => [o.x1, o.x2, o.w1, o.w2, o.b1, o.b2, o.out, o.n1, o.n2, o.nOut]
  | .gateFusionSig o => [o.x1, o.x2, o.w1, o.w2, o.b1, o.b2, o.out, o.n1, o.n2, o.nOut]
  | .add a b dst n => [a, b, dst, n]
  | .had a b dst n => [a, b, dst, n]
  | .copy src dst n => [src, dst, n]
  | .fill dst n v => [dst, n, wordOfValue16 v]
  | .actId src dst n => [src, dst, n]
  | .actTanh src dst n => [src, dst, n]
  | .actSig src dst n => [src, dst, n]
  | .net o => [o.list, o.count, o.input, o.inLen]
  | .accSet d v => [d, v]
  | .accB d v => [d, wordOfValue16 v]
  | .mac2 d a b => [d, wordOfPair a, wordOfPair b]
  | .mac1 d a b => [d, wordOfValue16 a, wordOfValue16 b]
  | .req d => [d]
  | .actsId x => [wordOfValue16 x]
  | .actsTanh x => [wordOfValue16 x]
  | .actsSig x => [wordOfValue16 x]

/-- The 16 words of a command's descriptor; words its layout does not name are 0 (30_encoding.md R120, R143). -/
def encode (i : Instr) : List Word :=
  let ops := encodeOperands i
  encodeHeader i :: (ops ++ List.replicate (15 - ops.length) 0)

/-- The 64 bytes of a command's descriptor in memory order (20_memory.md R83). -/
def encodeBytes (i : Instr) : List Byte := (encode i).flatMap bytesOfWord

/-! ### The numbering of spec/opcode_table.json -/

/-- The 64 descriptor bytes of an instruction whose low `nbits` bits are those of `w`, bit 0 the least significant
bit of w0, and whose every other bit is 0. -/
def tableBytes (nbits w : Nat) : List Byte :=
  (List.range 64).map fun i => if i < nbits / 8 then BitVec.ofNat 8 (w / 2 ^ (8 * i)) else 0

/-- The command this decoder reads from an instruction whose bits are `w`, numbered as spec/opcode_table.json
numbers them. -/
def decodeTableWord (nbits w : Nat) : Option Instr :=
  match decode (tableBytes nbits w) with
  | .ok i => some i
  | .error _ => none

end Sys2Proof
end

