-- ==== Sys2Proof/Machine/Ops.lean ====
section
/-! DEFINITION. The named operations over memory, ranges, registers and free values; the checks; ending a command
with an error or with success (spec/20_memory.md, spec/60_exceptions.md). -/

namespace Sys2Proof.Machine

/-! ### Memory (20_memory.md R80, R88) -/

/-- What an address that memory does not list reads as (log entry 3, DESIGN CHOICE). -/
def unlistedByte : Byte := 0

/-- The byte listed at `p`, or what an unlisted address reads as. -/
def readCells : List Host.Cell → Nat → Byte
  | [], _ => unlistedByte
  | (a, b) :: cs, p => if p = a then b else readCells cs p

/-- The list with `b` stored at `p`, kept in canonical form. -/
def writeCells : List Host.Cell → Nat → Byte → List Host.Cell
  | [], p, b => if b = unlistedByte then [] else [(p, b)]
  | (a, c) :: cs, p, b =>
    if p < a then
      if b = unlistedByte then (a, c) :: cs else (p, b) :: (a, c) :: cs
    else if p = a then
      if b = unlistedByte then cs else (p, b) :: cs
    else (a, c) :: writeCells cs p b

/-- The byte at address `p`. -/
def Memory.read (m : Memory) (p : Nat) : Byte := readCells m.cells p

/-- Memory with `b` at address `p`. Addresses are 32 bits wide (20_memory.md R80); no validated range reaches past
them (R84), and there is nothing to write there (log entry 17). -/
def Memory.write (m : Memory) (p : Nat) (b : Byte) : Memory :=
  if p < 2 ^ 32 then { cells := writeCells m.cells p b } else m

/-- The canonical form: addresses strictly rising, 32 bits wide, and no entry equal to what an unlisted address
reads as. -/
abbrev Memory.wf (m : Memory) : Prop :=
  m.cells.Pairwise (fun c d => c.1 < d.1) ∧ ∀ c ∈ m.cells, c.2 ≠ unlistedByte ∧ c.1 < 2 ^ 32

/-- The FixedScalar at `p` (20_memory.md R82). -/
def Memory.ld16 (m : Memory) (p : Nat) : FixedScalar := halfOfBytes (m.read p) (m.read (p + 1))

/-- Memory with the FixedScalar `v` at `p` (20_memory.md R82). -/
def Memory.st16 (m : Memory) (p : Nat) (v : FixedScalar) : Memory :=
  (m.write p (byteOfHalf v 0)).write (p + 1) (byteOfHalf v 1)

/-- The descriptor word at `p` (20_memory.md R83). -/
def Memory.ldw (m : Memory) (p : Nat) : Word :=
  wordOfBytes (m.read p) (m.read (p + 1)) (m.read (p + 2)) (m.read (p + 3))

/-- Element `i` of the tensor at `t` (20_memory.md R82). -/
def Memory.elem (m : Memory) (t i : Nat) : FixedScalar := m.ld16 (t + 2 * i)

/-- The `n` elements of the tensor at `t`, element 0 first. -/
def Memory.tensor (m : Memory) (t n : Nat) : List FixedScalar := (List.range n).map (m.elem t)

/-- The `n` bytes from `p` on. -/
def Memory.bytes (m : Memory) (p n : Nat) : List Byte := (List.range n).map fun i => m.read (p + i)

/-- Memory with the bytes `bs` from `p` on. -/
def Memory.storeBytes (m : Memory) (p : Nat) : List Byte → Memory
  | [] => m
  | b :: bs => (m.write p b).storeBytes (p + 1) bs

/-! ### Byte ranges and MEM_OK (20_memory.md R84, R90, R91) -/

/-- Does the range hold the address `p`? -/
def Range.holds (r : Range) (p : Nat) : Bool := decide (r.base ≤ p) && decide (p < r.base + r.len)

/-- Do the two ranges share a byte? -/
def Range.overlaps (r q : Range) : Bool :=
  decide (0 < r.len) && decide (0 < q.len) && decide (r.base < q.base + q.len) && decide (q.base < r.base + r.len)

/-- Does the range share a byte with one of the others? -/
def Range.meets (r : Range) (others : List Range) : Bool := others.any r.overlaps

/-- The range of a tensor of `n` elements at `t` (20_memory.md R82). -/
def tensorRange (t n : Nat) : Range := { base := t, len := 2 * n }

/-- The byte ranges a command reads and those it writes (20_memory.md R90). -/
structure Footprint where
  reads : List Range
  writes : List Range
  deriving DecidableEq, Repr

/-- Do two ranges of the list, at different places in it, share a byte? -/
def overlapAmong : List Range → Bool
  | [] => false
  | r :: rs => r.meets rs || overlapAmong rs

/-- Does a written range share a byte with a range read, or with another range written (20_memory.md R91)? -/
def Footprint.overlapsItself (fp : Footprint) : Bool :=
  (fp.writes.any fun r => r.meets fp.reads) || overlapAmong fp.writes

/-- The register window (10_state.md R30). -/
def Platform.window (p : Platform) : Range := { base := p.engineBase.toNat, len := 1024 }

/-- MEM_OK(addr, len): false past address 2^32 - 1, on the register window, and on the platform's holes
(20_memory.md R84, R88). -/
def Platform.memOk (p : Platform) (addr len : Nat) : Bool :=
  let r : Range := { base := addr, len := len }
  decide (addr + len ≤ 2 ^ 32) && !r.overlaps p.window && p.holes.all fun h => !r.overlaps h

/-! ### Checks (60_exceptions.md R312 to R317). A check answers the error it finds, or nothing. -/

/-- The check of a tensor of `n` elements at `t`: alignment, then range (R313, R314). -/
def checkTensor (p : Platform) (t n : Nat) : Option ErrCode :=
  if t % 2 ≠ 0 then some .misaligned
  else if p.memOk t (2 * n) then none
  else some .busError

/-- A shape check (R315). -/
def checkShape (ok : Bool) : Option ErrCode := if ok then none else some .shapeMismatch

/-- The check of an accumulator number (R312). -/
def checkIndex (d : Word) : Option ErrCode := if indexLegal d then none else some .illegalCommand

/-- The first error of the checks, in their order (R316, R317). -/
def firstError : List (Option ErrCode) → Option ErrCode
  | [] => none
  | some e :: _ => some e
  | none :: cs => firstError cs

/-! ### Ending a command -/

/-- `raise E(P)`: a command ends with the error `e`, found in the descriptor at `p`, at the layer `idx`
(60_exceptions.md R311). -/
def State.raiseError (s : State) (e : ErrCode) (p idx : Word) : State :=
  { s with busy := false, done := false, err := true, errCode := e, faultAddr := p, layerIdx := idx }

/-- `complete`: a command ends with success (60_exceptions.md R320). -/
def State.complete (s : State) : State :=
  { s with busy := false, err := false, errCode := .none, done := true, faultAddr := 0 }

/-- The host's acknowledgement, a write of `v` to STATUS: bit 1 clears DONE, bit 2 clears ERR and ERRCODE. It is
what the engine has in the place of a return (60_exceptions.md R322, 10_state.md R33). -/
def State.acknowledge (s : State) (v : Word) : State :=
  { s with
    done := s.done && !v.getLsbD 1
    err := s.err && !v.getLsbD 2
    errCode := if v.getLsbD 2 then .none else s.errCode }

/-- START, with BUSY = 0: the command at CMD_ADDR is in flight (10_state.md R47). -/
def State.start (s : State) : State :=
  { s with done := false, err := false, errCode := .none, layerIdx := 0, busy := true }

/-- Validate, then execute (60_exceptions.md R316): the checks' first error ends the command at the descriptor of
CMD_ADDR; where they find none, `body` runs to the end and the command completes. -/
def State.runCommand (s : State) (found : Option ErrCode) (body : State → State) :
    Host.Outcome State Fault Refusal :=
  match found with
  | some e => .next (s.raiseError e s.cmdAddr 0)
  | none => .next (body s).complete

/-! ### Accumulators (10_state.md R45) -/

/-- acc[d]. -/
def State.getAcc (s : State) (d : Nat) : Acc := if h : d < 15 then s.acc[d] else 0

/-- acc[d] <- v. -/
def State.setAcc (s : State) (d : Nat) (v : Acc) : State := { s with acc := s.acc.setIfInBounds d v }

/-! ### Free values (93_implementation_defined.md section 2, log entry 7) -/

/-- The free FixedScalar of draw `k`. -/
def freeHalf (k : Nat) : FixedScalar := (Config.freeValue k).setWidth 16

/-- The free byte of draw `k`. -/
def freeByte (k : Nat) : Byte := (Config.freeValue k).setWidth 8

/-- `n` free words from draw `k` on. -/
def freeWords (n k : Nat) : Vector Word n := Vector.ofFn fun i => Config.freeValue (k + i.val)

/-! ### The memory side of a running command -/

/-- Memory while a command runs, with the count of free values drawn. -/
structure Run where
  mem : Memory
  draws : Nat
  deriving DecidableEq, Repr

/-- Where a command's run starts. -/
def State.run (s : State) : Run := { mem := s.mem, draws := s.draws }

/-- The elements `es`, pairs of an index and a value, written to the tensor at `base` in their order. If `free`,
the tensor overlaps another range of the footprint, and every byte written is a free value instead
(20_memory.md R91, log entry 9). -/
def Run.put (x : Run) (free : Bool) (base : Nat) : List (Nat × FixedScalar) → Run
  | [] => x
  | (i, v) :: es =>
    let y : Run :=
      if free then { mem := x.mem.st16 (base + 2 * i) (freeHalf x.draws), draws := x.draws + 1 }
      else { mem := x.mem.st16 (base + 2 * i) v, draws := x.draws }
    y.put free base es

/-- `n` free bytes from `p` on (70_reset_and_hazards.md R342). -/
def Run.freeBytes (x : Run) (p : Nat) : Nat → Run
  | 0 => x
  | n + 1 =>
    let y : Run := { mem := x.mem.write p (freeByte x.draws), draws := x.draws + 1 }
    y.freeBytes (p + 1) n

/-- Every byte of the ranges a free value. -/
def Run.freeRanges (x : Run) : List Range → Run
  | [] => x
  | r :: rs => (x.freeBytes r.base r.len).freeRanges rs

/-- A command's run is over: of the ranges it wrote, those that share a byte with one of `hazards` hold free values,
and its own later reads have seen what it wrote there (20_memory.md R91: "after the command completes"). -/
def Run.freeOverlaps (x : Run) (writes hazards : List Range) : Run :=
  x.freeRanges (writes.filter fun r => r.meets hazards)

/-- The state after an element-wise command's run: memory as it left it, RESULT the tensor written
(10_state.md R35). -/
def State.finishTensor (s : State) (x : Run) (dst : Word) : State :=
  { s with mem := x.mem, draws := x.draws, result := dst }

/-- The state after a tiled command's run: besides, LAST_PASSES is set and every accumulator holds a free value
(10_state.md R38, R52). -/
def State.finishTiled (s : State) (x : Run) (dst : Word) (passes : Nat) : State :=
  { s with
    mem := x.mem
    result := dst
    lastPasses := BitVec.ofNat 32 passes
    acc := freeWords 15 x.draws
    draws := x.draws + 15 }

/-- The range of the descriptor at CMD_ADDR (20_memory.md R83). -/
def State.descRange (s : State) : Range := { base := s.cmdAddr.toNat, len := 64 }

end Sys2Proof.Machine
end

