-- ==== Sys2Proof/Machine/Operands.lean ====
section
/-! DEFINITION. Operands of the tensor commands as mathematical integers: addresses and counts (zext_32 of their
words, spec/30_encoding.md R124). The decoders of the operand words themselves (value16, pair, index) stand in
Sys2Proof/Decode.lean, and the check of an index in Machine/Ops.lean. The address forms a kernel is given by another
command (an LSTM gate slice, a NET half) are the same records with those integers. -/

namespace Sys2Proof.Machine

/-- LINEAR with its operands and its flag HAS_BIAS (41_tiled_kernels.md R205). -/
structure LinearArgs where
  hasBias : Bool
  inp : Nat
  out : Nat
  w : Nat
  b : Nat
  nIn : Nat
  nOut : Nat
  deriving DecidableEq, Repr

/-- The operands of a LINEAR descriptor. -/
def linearArgs (hasBias : Bool) (o : LinearOps) : LinearArgs :=
  { hasBias := hasBias, inp := o.inp.toNat, out := o.out.toNat, w := o.w.toNat, b := o.b.toNat,
    nIn := o.nIn.toNat, nOut := o.nOut.toNat }

/-- CONV2D with its operands (41_tiled_kernels.md R208). -/
structure ConvArgs where
  inp : Nat
  out : Nat
  w : Nat
  b : Nat
  h : Nat
  wd : Nat
  cin : Nat
  cout : Nat
  kh : Nat
  kw : Nat
  deriving DecidableEq, Repr

/-- The operands of a CONV2D descriptor. -/
def convArgs (o : ConvOps) : ConvArgs :=
  { inp := o.inp.toNat, out := o.out.toNat, w := o.w.toNat, b := o.b.toNat, h := o.h.toNat, wd := o.wd.toNat,
    cin := o.cin.toNat, cout := o.cout.toNat, kh := o.kh.toNat, kw := o.kw.toNat }

/-- GATEFUSION with its operands (41_tiled_kernels.md R210). -/
structure GateArgs where
  x1 : Nat
  x2 : Nat
  w1 : Nat
  w2 : Nat
  b1 : Nat
  b2 : Nat
  out : Nat
  n1 : Nat
  n2 : Nat
  nOut : Nat
  deriving DecidableEq, Repr

/-- The operands of a GATEFUSION descriptor. -/
def gateArgs (o : GateOps) : GateArgs :=
  { x1 := o.x1.toNat, x2 := o.x2.toNat, w1 := o.w1.toNat, w2 := o.w2.toNat, b1 := o.b1.toNat, b2 := o.b2.toNat,
    out := o.out.toNat, n1 := o.n1.toNat, n2 := o.n2.toNat, nOut := o.nOut.toNat }

/-- LSTM with its operands (44_recurrent.md R292). -/
structure LstmArgs where
  x : Nat
  wih : Nat
  whh : Nat
  bih : Nat
  bhh : Nat
  h : Nat
  c : Nat
  g : Nat
  nIn : Nat
  nHid : Nat
  seq : Nat
  deriving DecidableEq, Repr

/-- The operands of an LSTM descriptor. -/
def lstmArgs (o : LstmOps) : LstmArgs :=
  { x := o.x.toNat, wih := o.wih.toNat, whh := o.whh.toNat, bih := o.bih.toNat, bhh := o.bhh.toNat,
    h := o.h.toNat, c := o.c.toNat, g := o.g.toNat, nIn := o.nIn.toNat, nHid := o.nHid.toNat, seq := o.seq.toNat }

/-- RNN with its operands (44_recurrent.md R295). -/
structure RnnArgs where
  x : Nat
  wih : Nat
  whh : Nat
  bih : Nat
  bhh : Nat
  h : Nat
  t : Nat
  nIn : Nat
  nHid : Nat
  seq : Nat
  deriving DecidableEq, Repr

/-- The operands of an RNN descriptor. -/
def rnnArgs (o : RnnOps) : RnnArgs :=
  { x := o.x.toNat, wih := o.wih.toNat, whh := o.whh.toNat, bih := o.bih.toNat, bhh := o.bhh.toNat,
    h := o.h.toNat, t := o.t.toNat, nIn := o.nIn.toNat, nHid := o.nHid.toNat, seq := o.seq.toNat }

/-- Every count operand is at least 1 (60_exceptions.md R315). -/
def positive (counts : List Nat) : Bool := counts.all fun n => decide (0 < n)

/-- The elements of two tensors combined index by index. -/
def zipElems (m : Memory) (f : FixedScalar → FixedScalar → FixedScalar) (a b n : Nat) :
    List (Nat × FixedScalar) :=
  (List.range n).map fun i => (i, f (m.elem a i) (m.elem b i))

/-- The elements of one tensor mapped index by index. -/
def mapElems (m : Memory) (f : FixedScalar → FixedScalar) (src n : Nat) : List (Nat × FixedScalar) :=
  (List.range n).map fun i => (i, f (m.elem src i))

end Sys2Proof.Machine
end

