-- ==== Sys2Proof/Machine/ElementWise.lean ====
section
/-! DEFINITION. The element-wise commands ADD, HAD, COPY and FILL (spec/40_numeric_core.md R175 to R178). -/

namespace Sys2Proof.Machine

/-- The checks of ADD and HAD: N, then A, B and DST (R175). -/
def binaryChecks (p : Platform) (a b dst n : Nat) : Option ErrCode :=
  firstError [checkShape (positive [n]), checkTensor p a n, checkTensor p b n, checkTensor p dst n]

/-- The checks of COPY and ACT: N, then SRC and DST (R177, 42_activation.md R248). -/
def unaryChecks (p : Platform) (src dst n : Nat) : Option ErrCode :=
  firstError [checkShape (positive [n]), checkTensor p src n, checkTensor p dst n]

/-- The checks of FILL: N, then DST (R178). -/
def fillChecks (p : Platform) (dst n : Nat) : Option ErrCode :=
  firstError [checkShape (positive [n]), checkTensor p dst n]

/-- The footprint of ADD and HAD besides the descriptor (R175). -/
def binaryFootprint (a b dst n : Nat) : Footprint :=
  { reads := [tensorRange a n, tensorRange b n], writes := [tensorRange dst n] }

/-- The footprint of COPY and ACT besides the descriptor (R177, 42_activation.md R248). -/
def unaryFootprint (src dst n : Nat) : Footprint :=
  { reads := [tensorRange src n], writes := [tensorRange dst n] }

/-- The footprint of FILL besides the descriptor (R178). -/
def fillFootprint (dst n : Nat) : Footprint := { reads := [], writes := [tensorRange dst n] }

/-- Does DST overlap the descriptor, or an input in any way but the exact in-place form, the same base with the
same element count (20_memory.md R91)? -/
def elementwiseOverlap (desc dst : Range) (inputs : List Range) : Bool :=
  dst.meets (desc :: inputs.filter fun r => r != dst)

/-- ADD and HAD: DST[i] <- f(A[i], B[i]) (R175, R176). -/
def binaryCommand (f : FixedScalar → FixedScalar → FixedScalar) (a b dst n : Word) (s : State) :
    Host.Outcome State Fault Refusal :=
  s.runCommand (binaryChecks s.platform a.toNat b.toNat dst.toNat n.toNat) fun s =>
    let fp := binaryFootprint a.toNat b.toNat dst.toNat n.toNat
    let free := elementwiseOverlap s.descRange (tensorRange dst.toNat n.toNat) fp.reads
    s.finishTensor (s.run.put free dst.toNat (zipElems s.mem f a.toNat b.toNat n.toNat)) dst

/-- COPY and ACT: DST[i] <- f(SRC[i]) (R177, 42_activation.md R248). -/
def unaryCommand (f : FixedScalar → FixedScalar) (src dst n : Word) (s : State) :
    Host.Outcome State Fault Refusal :=
  s.runCommand (unaryChecks s.platform src.toNat dst.toNat n.toNat) fun s =>
    let fp := unaryFootprint src.toNat dst.toNat n.toNat
    let free := elementwiseOverlap s.descRange (tensorRange dst.toNat n.toNat) fp.reads
    s.finishTensor (s.run.put free dst.toNat (mapElems s.mem f src.toNat n.toNat)) dst

/-- ADD (R175). -/
def execAdd (a b dst n : Word) (s : State) : Host.Outcome State Fault Refusal := binaryCommand add16 a b dst n s

/-- HAD (R176). -/
def execHad (a b dst n : Word) (s : State) : Host.Outcome State Fault Refusal := binaryCommand had16 a b dst n s

/-- COPY (R177). -/
def execCopy (src dst n : Word) (s : State) : Host.Outcome State Fault Refusal := unaryCommand id src dst n s

/-- FILL: DST[i] <- VALUE (R178). -/
def execFill (dst n : Word) (value : FixedScalar) (s : State) : Host.Outcome State Fault Refusal :=
  s.runCommand (fillChecks s.platform dst.toNat n.toNat) fun s =>
    let free := elementwiseOverlap s.descRange (tensorRange dst.toNat n.toNat) []
    s.finishTensor (s.run.put free dst.toNat ((List.range n.toNat).map fun i => (i, value))) dst

end Sys2Proof.Machine
end

