-- ==== Sys2Proof/Machine/Primitives.lean ====
section
/-! DEFINITION. The accumulator primitives ACCSET, ACCB, MAC2, MAC1 and REQ (spec/40_numeric_core.md R170 to R174).
Their one check besides the descriptor's is that the accumulator number is at most 14. -/

namespace Sys2Proof.Machine

/-- ACCSET: acc[D] <- VALUE (R170). -/
def execAccSet (d value : Word) (s : State) : Host.Outcome State Fault Refusal :=
  s.runCommand (checkIndex d) fun s => s.setAcc d.toNat value

/-- ACCB: acc[D] <- BIAS12(BIAS) (R171). -/
def execAccB (d : Word) (bias : FixedScalar) (s : State) : Host.Outcome State Fault Refusal :=
  s.runCommand (checkIndex d) fun s => s.setAcc d.toNat (bias12 bias)

/-- MAC2: acc[D] <- MACP(acc[D], A, B) (R172). -/
def execMac2 (d : Word) (a b : Pair) (s : State) : Host.Outcome State Fault Refusal :=
  s.runCommand (checkIndex d) fun s =>
    s.setAcc d.toNat (macPair (s.getAcc d.toNat) a.lane0 a.lane1 b.lane0 b.lane1)

/-- MAC1: acc[D] <- MACS(acc[D], A, B) (R173). -/
def execMac1 (d : Word) (a b : FixedScalar) (s : State) : Host.Outcome State Fault Refusal :=
  s.runCommand (checkIndex d) fun s => s.setAcc d.toNat (macScalar (s.getAcc d.toNat) a b)

/-- SRES <- the FixedScalar `y`, sign-extended (10_state.md R39). -/
def State.setSres (s : State) (y : FixedScalar) : State := { s with sres := y.signExtend 32 }

/-- REQ: SRES <- RQ(acc[D]) (R174). -/
def execReq (d : Word) (s : State) : Host.Outcome State Fault Refusal :=
  s.runCommand (checkIndex d) fun s => s.setSres (requantize (s.getAcc d.toNat))

end Sys2Proof.Machine
end

