-- ==== Sys2Proof/Machine/Activation.lean ====
section
/-! DEFINITION. The activation commands ACTS and ACT (spec/42_activation.md R247, R248). -/

namespace Sys2Proof.Machine

/-- ACTS: SRES <- ACTF(MODE, X); no check besides the descriptor's (R247). -/
def scalarActivation (mode : Mode) (x : FixedScalar) (s : State) : Host.Outcome State Fault Refusal :=
  s.runCommand none fun s => s.setSres (actf s.lut mode x)

/-- ACTS.ID (R247). -/
def execActsId (x : FixedScalar) (s : State) : Host.Outcome State Fault Refusal := scalarActivation .identity x s

/-- ACTS.TANH (R247). -/
def execActsTanh (x : FixedScalar) (s : State) : Host.Outcome State Fault Refusal := scalarActivation .tanh x s

/-- ACTS.SIG (R247). -/
def execActsSig (x : FixedScalar) (s : State) : Host.Outcome State Fault Refusal := scalarActivation .sigmoid x s

/-- ACT.ID (R248). -/
def execActId (src dst n : Word) (s : State) : Host.Outcome State Fault Refusal :=
  unaryCommand (actf s.lut .identity) src dst n s

/-- ACT.TANH (R248). -/
def execActTanh (src dst n : Word) (s : State) : Host.Outcome State Fault Refusal :=
  unaryCommand (actf s.lut .tanh) src dst n s

/-- ACT.SIG (R248). -/
def execActSig (src dst n : Word) (s : State) : Host.Outcome State Fault Refusal :=
  unaryCommand (actf s.lut .sigmoid) src dst n s

end Sys2Proof.Machine
end

