-- ==== Sys2Proof/Machine/Tile.lean ====
section
/-! DEFINITION. The output-channel tile scheduler (spec/41_tiled_kernels.md R200 to R204). -/

namespace Sys2Proof.Machine

/-- A tile: `width` output channels from `base` on (R201). -/
structure Tile where
  width : Nat
  base : Nat
  deriving DecidableEq, Repr

/-- The widths TILE_CFG can name, largest first (10_state.md R40). -/
def allWidths : List Nat := [15, 14, 13, 12, 11, 10, 9, 8, 7, 6, 5, 4, 3, 2, 1]

/-- WL, the candidate widths: the set bits of TILE_CFG among 1 to 15, in descending order (R200). -/
def candidates (tileCfg : Word) : List Nat := allWidths.filter fun w => tileCfg.getLsbD w

/-- `cnt` tiles of one width, the first at `base`. -/
def tilesOf (width base cnt : Nat) : List Tile :=
  (List.range cnt).map fun c => { width := width, base := base + c * width }

/-- The greedy scan of SCHED over the widths left, with `rem` channels left from `base` on (R201). -/
def schedFrom : List Nat → Nat → Nat → List Tile
  | [], _, _ => []
  | t :: ts, base, rem => tilesOf t base (rem / t) ++ schedFrom ts (base + rem / t * t) (rem - rem / t * t)

/-- SCHED(N) (R201). -/
def sched (tileCfg : Word) (n : Nat) : List Tile := schedFrom (candidates tileCfg) 0 n

/-- PASSES(N), the length of SCHED(N) (R202). -/
def passes (tileCfg : Word) (n : Nat) : Nat := (sched tileCfg n).length

/-- The output channels of a tile, in increasing order (R203). -/
def Tile.channels (t : Tile) : List Nat := (List.range t.width).map fun k => t.base + k

/-- The values a kernel stores when it runs its channels tile by tile: each channel of each tile with its value
(R203). -/
def tiled (tiles : List Tile) (f : Nat → FixedScalar) : List (Nat × FixedScalar) :=
  tiles.flatMap fun t => t.channels.map fun o => (o, f o)

end Sys2Proof.Machine
end

