-- ==== Sys2Proof/Machine/Tiled.lean ====
section
/-! DEFINITION. The tiled kernels LINEAR, CONV2D and GATEFUSION (spec/41_tiled_kernels.md R205 to R211). Channels
are computed in schedule order, each in an accumulator of its own that starts at its bias (R203); the accumulator
bank itself holds free values afterwards (spec/10_state.md R52). -/

namespace Sys2Proof.Machine

/-! ### LINEAR (R205, R206) -/

/-- The value of output channel `o`. -/
def linearChannel (m : Memory) (a : LinearArgs) (o : Nat) : FixedScalar :=
  let start : Acc := if a.hasBias then bias12 (m.elem a.b o) else 0
  requantize (dot start (m.tensor a.inp a.nIn) (m.tensor (a.w + 2 * (o * a.nIn)) a.nIn))

/-- What LINEAR stores, tile by tile. -/
def linearOutputs (cfg : Word) (m : Memory) (a : LinearArgs) : List (Nat × FixedScalar) :=
  tiled (sched cfg a.nOut) (linearChannel m a)

/-- The shape check of LINEAR (check 2). -/
def linearShape (a : LinearArgs) : Option ErrCode := checkShape (positive [a.nIn, a.nOut])

/-- The checks of W, and of B if it is read (checks 5 and 6). -/
def linearParamChecks (p : Platform) (a : LinearArgs) : List (Option ErrCode) :=
  checkTensor p a.w (a.nOut * a.nIn) :: (if a.hasBias then [checkTensor p a.b a.nOut] else [])

/-- The checks of LINEAR after the descriptor's, in order. -/
def linearChecks (p : Platform) (a : LinearArgs) : Option ErrCode :=
  firstError ([linearShape a, checkTensor p a.inp a.nIn, checkTensor p a.out a.nOut] ++ linearParamChecks p a)

/-- The parameter tensors LINEAR reads: W, and B if HAS_BIAS = 1. -/
def linearParams (a : LinearArgs) : List Range :=
  tensorRange a.w (a.nOut * a.nIn) :: (if a.hasBias then [tensorRange a.b a.nOut] else [])

/-- The footprint of LINEAR besides the descriptor. -/
def linearFootprint (a : LinearArgs) : Footprint :=
  { reads := tensorRange a.inp a.nIn :: linearParams a, writes := [tensorRange a.out a.nOut] }

/-- The run of LINEAR; `hazards` are the ranges OUT must not overlap besides its own footprint's. -/
def linearRun (cfg : Word) (hazards : List Range) (a : LinearArgs) (x : Run) : Run :=
  x.put ((tensorRange a.out a.nOut).meets (hazards ++ (linearFootprint a).reads)) a.out (linearOutputs cfg x.mem a)

/-- LINEAR as a command (R205). -/
def linearCommand (hasBias : Bool) (o : LinearOps) (s : State) : Host.Outcome State Fault Refusal :=
  s.runCommand (linearChecks s.platform (linearArgs hasBias o)) fun s =>
    s.finishTiled (linearRun s.tileCfg [s.descRange] (linearArgs hasBias o) s.run) o.out
      (passes s.tileCfg o.nOut.toNat)

/-- LINEAR: HAS_BIAS = 1 (R205). -/
def execLinear (o : LinearOps) (s : State) : Host.Outcome State Fault Refusal := linearCommand true o s

/-- LINEAR.NB: HAS_BIAS = 0, B is neither checked nor read (R205, R206). -/
def execLinearNb (o : LinearOps) (s : State) : Host.Outcome State Fault Refusal := linearCommand false o s

/-! ### CONV2D (R207 to R209) -/

/-- The integers of `[lo, hi)` in increasing order (00_scope.md R16). -/
def span (lo hi : Nat) : List Nat := (List.range (hi - lo)).map fun i => lo + i

/-- The valid taps of one axis at output coordinate `y`: `[max(0, P - y), min(K, N + P - y))` with P = (K - 1) div 2
(R207). -/
def validTaps (k n y : Nat) : List Nat :=
  let p := (k - 1) / 2
  span (p - y) (min k (n + p - y))

/-- The accumulator of output channel `co` at pixel (y, x): the bias, then every valid tap's dot product over the
input channels (R208). -/
def convAcc (m : Memory) (a : ConvArgs) (co y x : Nat) : Acc :=
  (validTaps a.kh a.h y).foldl (fun acc kh =>
    (validTaps a.kw a.wd x).foldl (fun acc kw =>
      let iy := y + kh - (a.kh - 1) / 2
      let ix := x + kw - (a.kw - 1) / 2
      dot acc (m.tensor (a.inp + 2 * ((iy * a.wd + ix) * a.cin)) a.cin)
        (m.tensor (a.w + 2 * (((co * a.kh + kh) * a.kw + kw) * a.cin)) a.cin)) acc)
    (bias12 (m.elem a.b co))

/-- What CONV2D stores: tile, row, column, channel (R208). -/
def convOutputs (cfg : Word) (m : Memory) (a : ConvArgs) : List (Nat × FixedScalar) :=
  (sched cfg a.cout).flatMap fun t =>
    (List.range a.h).flatMap fun y =>
      (List.range a.wd).flatMap fun x =>
        t.channels.map fun co => ((co * a.h + y) * a.wd + x, requantize (convAcc m a co y x))

/-- The shape check of CONV2D (check 2): counts at least 1, KH and KW odd. -/
def convShape (a : ConvArgs) : Option ErrCode :=
  checkShape (positive [a.h, a.wd, a.cin, a.cout, a.kh, a.kw] && a.kh % 2 == 1 && a.kw % 2 == 1)

/-- How many elements the input has. -/
def convInSize (a : ConvArgs) : Nat := a.h * a.wd * a.cin

/-- How many elements the output has. -/
def convOutSize (a : ConvArgs) : Nat := a.cout * a.h * a.wd

/-- How many elements the weights have. -/
def convWeightSize (a : ConvArgs) : Nat := a.cout * a.kh * a.kw * a.cin

/-- The checks of W and B (checks 5 and 6). -/
def convParamChecks (p : Platform) (a : ConvArgs) : List (Option ErrCode) :=
  [checkTensor p a.w (convWeightSize a), checkTensor p a.b a.cout]

/-- The checks of CONV2D after the descriptor's, in order. -/
def convChecks (p : Platform) (a : ConvArgs) : Option ErrCode :=
  firstError ([convShape a, checkTensor p a.inp (convInSize a), checkTensor p a.out (convOutSize a)] ++
    convParamChecks p a)

/-- The parameter tensors CONV2D reads: W and B. -/
def convParams (a : ConvArgs) : List Range := [tensorRange a.w (convWeightSize a), tensorRange a.b a.cout]

/-- The footprint of CONV2D besides the descriptor. -/
def convFootprint (a : ConvArgs) : Footprint :=
  { reads := tensorRange a.inp (convInSize a) :: convParams a, writes := [tensorRange a.out (convOutSize a)] }

/-- The run of CONV2D; `hazards` are the ranges OUT must not overlap besides its own footprint's. -/
def convRun (cfg : Word) (hazards : List Range) (a : ConvArgs) (x : Run) : Run :=
  x.put ((tensorRange a.out (convOutSize a)).meets (hazards ++ (convFootprint a).reads)) a.out
    (convOutputs cfg x.mem a)

/-- CONV2D (R208). -/
def execConv2d (o : ConvOps) (s : State) : Host.Outcome State Fault Refusal :=
  s.runCommand (convChecks s.platform (convArgs o)) fun s =>
    s.finishTiled (convRun s.tileCfg [s.descRange] (convArgs o) s.run) o.out (passes s.tileCfg o.cout.toNat)

/-! ### GATEFUSION (R210, R211) -/

/-- The value of output channel `o`: both biases, both sweeps into one accumulator, one requantization, then the
activation. -/
def gateChannel (lut : Lut) (mode : Mode) (m : Memory) (a : GateArgs) (o : Nat) : FixedScalar :=
  let acc0 := bias12Sum (m.elem a.b1 o) (m.elem a.b2 o)
  let acc1 := dot acc0 (m.tensor a.x1 a.n1) (m.tensor (a.w1 + 2 * (o * a.n1)) a.n1)
  let acc2 := dot acc1 (m.tensor a.x2 a.n2) (m.tensor (a.w2 + 2 * (o * a.n2)) a.n2)
  actf lut mode (requantize acc2)

/-- What GATEFUSION stores, tile by tile. -/
def gateOutputs (cfg : Word) (lut : Lut) (mode : Mode) (m : Memory) (a : GateArgs) : List (Nat × FixedScalar) :=
  tiled (sched cfg a.nOut) (gateChannel lut mode m a)

/-- The checks of GATEFUSION after the descriptor's, in order. -/
def gateChecks (p : Platform) (a : GateArgs) : Option ErrCode :=
  firstError
    [checkShape (positive [a.n1, a.n2, a.nOut]), checkTensor p a.x1 a.n1, checkTensor p a.x2 a.n2,
      checkTensor p a.w1 (a.nOut * a.n1), checkTensor p a.w2 (a.nOut * a.n2), checkTensor p a.b1 a.nOut,
      checkTensor p a.b2 a.nOut, checkTensor p a.out a.nOut]

/-- The footprint of GATEFUSION besides the descriptor. -/
def gateFootprint (a : GateArgs) : Footprint :=
  { reads :=
      [tensorRange a.x1 a.n1, tensorRange a.x2 a.n2, tensorRange a.w1 (a.nOut * a.n1),
        tensorRange a.w2 (a.nOut * a.n2), tensorRange a.b1 a.nOut, tensorRange a.b2 a.nOut]
    writes := [tensorRange a.out a.nOut] }

/-- GATEFUSION as a command, with ACT = `mode` (R210). -/
def gateCommand (mode : Mode) (o : GateOps) (s : State) : Host.Outcome State Fault Refusal :=
  s.runCommand (gateChecks s.platform (gateArgs o)) fun s =>
    let a := gateArgs o
    let free := (tensorRange a.out a.nOut).meets (s.descRange :: (gateFootprint a).reads)
    s.finishTiled (s.run.put free a.out (gateOutputs s.tileCfg s.lut mode s.mem a)) o.out
      (passes s.tileCfg a.nOut)

/-- GATEFUSION: ACT = 0 (R210). -/
def execGateFusion (o : GateOps) (s : State) : Host.Outcome State Fault Refusal := gateCommand .identity o s

/-- GATEFUSION.TANH: ACT = 1 (R210). -/
def execGateFusionTanh (o : GateOps) (s : State) : Host.Outcome State Fault Refusal := gateCommand .tanh o s

/-- GATEFUSION.SIG: ACT = 2 (R210). -/
def execGateFusionSig (o : GateOps) (s : State) : Host.Outcome State Fault Refusal := gateCommand .sigmoid o s

end Sys2Proof.Machine
end

