-- ==== Sys2Proof/Machine/Recurrent.lean ====
section
/-! DEFINITION. The recurrent sequencers LSTM and RNN (spec/44_recurrent.md R290 to R296). Every phase of a step
reads memory as the phase before it left it; a phase's own elements do not depend on each other. -/

namespace Sys2Proof.Machine

/-! ### LSTM (R291, R292) -/

/-- The hidden state's range. -/
def lstmH (a : LstmArgs) : Range := tensorRange a.h a.nHid

/-- The cell state's range. -/
def lstmC (a : LstmArgs) : Range := tensorRange a.c a.nHid

/-- The gate state's range, four slots. -/
def lstmG (a : LstmArgs) : Range := tensorRange a.g (4 * a.nHid)

/-- The parameter tensors LSTM reads. -/
def lstmParams (a : LstmArgs) : List Range :=
  [tensorRange a.wih (4 * a.nHid * a.nIn), tensorRange a.whh (4 * a.nHid * a.nHid), tensorRange a.bih (4 * a.nHid),
    tensorRange a.bhh (4 * a.nHid)]

/-- The input sequence's range (R290). -/
def lstmX (a : LstmArgs) : Range := tensorRange a.x (a.seq * a.nIn)

/-- The footprint of LSTM besides the descriptor; H, C and G are read and written. -/
def lstmFootprint (a : LstmArgs) : Footprint :=
  { reads := lstmX a :: lstmParams a, writes := [lstmH a, lstmC a, lstmG a] }

/-- The shape check of LSTM (check 2). -/
def lstmShape (a : LstmArgs) : Option ErrCode := checkShape (positive [a.nIn, a.nHid, a.seq])

/-- The checks of every tensor but X, in layout order (check 3). -/
def lstmTensorChecks (p : Platform) (a : LstmArgs) : List (Option ErrCode) :=
  [checkTensor p a.wih (4 * a.nHid * a.nIn), checkTensor p a.whh (4 * a.nHid * a.nHid),
    checkTensor p a.bih (4 * a.nHid), checkTensor p a.bhh (4 * a.nHid), checkTensor p a.h a.nHid,
    checkTensor p a.c a.nHid, checkTensor p a.g (4 * a.nHid)]

/-- The checks of LSTM after the descriptor's, in order. -/
def lstmChecks (p : Platform) (a : LstmArgs) : Option ErrCode :=
  firstError (lstmShape a :: checkTensor p a.x (a.seq * a.nIn) :: lstmTensorChecks p a)

/-- Which of the written tensors overlap another range of the footprint (20_memory.md R91). -/
structure LstmFree where
  h : Bool
  c : Bool
  g : Bool
  deriving DecidableEq, Repr

/-- The overlaps of an LSTM; `hazards` are the ranges it must not write besides its own footprint's. -/
def lstmFree (hazards : List Range) (a : LstmArgs) : LstmFree :=
  let ins := hazards ++ (lstmFootprint a).reads
  { h := (lstmH a).meets (lstmC a :: lstmG a :: ins)
    c := (lstmC a).meets (lstmH a :: lstmG a :: ins)
    g := (lstmG a).meets (lstmH a :: lstmC a :: ins) }

/-- The GATEFUSION of gate `k` at time step `t`: its slices (R291). -/
def lstmGateArgs (a : LstmArgs) (t k : Nat) : GateArgs :=
  { x1 := a.x + 2 * (t * a.nIn), n1 := a.nIn, w1 := a.wih + 2 * (k * a.nHid * a.nIn), b1 := a.bih + 2 * (k * a.nHid)
    x2 := a.h, n2 := a.nHid, w2 := a.whh + 2 * (k * a.nHid * a.nHid), b2 := a.bhh + 2 * (k * a.nHid)
    out := a.g + 2 * (k * a.nHid), nOut := a.nHid }

/-- The activation of gate `k`: tanh for the cell candidate, sigmoid for the others (R292). -/
def lstmGateMode (k : Nat) : Mode := if k = 2 then .tanh else .sigmoid

/-- Gate `k` of time step `t`: fused, or a GATEFUSION with ACT = 0 and a separate activation pass in place
(R292). -/
def lstmGate (cfg : Word) (lut : Lut) (fused : Bool) (fr : LstmFree) (a : LstmArgs) (t : Nat) (x : Run) (k : Nat) :
    Run :=
  let ga := lstmGateArgs a t k
  if fused then x.put fr.g ga.out (gateOutputs cfg lut (lstmGateMode k) x.mem ga)
  else
    let y := x.put fr.g ga.out (gateOutputs cfg lut .identity x.mem ga)
    y.put fr.g ga.out (mapElems y.mem (actf lut (lstmGateMode k)) ga.out a.nHid)

/-- The element-wise part of a time step: c, then h (R292). -/
def lstmCell (lut : Lut) (fr : LstmFree) (a : LstmArgs) (x : Run) : Run :=
  let n := a.nHid
  let i := a.g
  let f := a.g + 2 * n
  let gg := a.g + 4 * n
  let o := a.g + 6 * n
  let x1 := x.put fr.c a.c (zipElems x.mem had16 f a.c n)
  let x2 := x1.put fr.g gg (zipElems x1.mem had16 i gg n)
  let x3 := x2.put fr.c a.c (zipElems x2.mem add16 a.c gg n)
  let x4 := x3.put fr.g gg (mapElems x3.mem (actf lut .tanh) a.c n)
  x4.put fr.h a.h (zipElems x4.mem had16 o gg n)

/-- Time step `t` (R292). -/
def lstmStep (cfg : Word) (lut : Lut) (fused : Bool) (fr : LstmFree) (a : LstmArgs) (x : Run) (t : Nat) : Run :=
  lstmCell lut fr a ([0, 1, 2, 3].foldl (lstmGate cfg lut fused fr a t) x)

/-- The run of LSTM over SEQ time steps (R290, R292). -/
def lstmRun (cfg : Word) (lut : Lut) (fused : Bool) (hazards : List Range) (a : LstmArgs) (x : Run) : Run :=
  (List.range a.seq).foldl (lstmStep cfg lut fused (lstmFree hazards a) a) x

/-- LSTM as a command (R292). The descriptor has been read when it starts, so a tensor that overlaps it is free only
at the end. -/
def lstmCommand (fused : Bool) (o : LstmOps) (s : State) : Host.Outcome State Fault Refusal :=
  s.runCommand (lstmChecks s.platform (lstmArgs o)) fun s =>
    let a := lstmArgs o
    let x := (lstmRun s.tileCfg s.lut fused [] a s.run).freeOverlaps (lstmFootprint a).writes [s.descRange]
    s.finishTiled x o.h (passes s.tileCfg a.nHid)

/-- LSTM: FUSED = 0 (R292). -/
def execLstm (o : LstmOps) (s : State) : Host.Outcome State Fault Refusal := lstmCommand false o s

/-- LSTM.F: FUSED = 1 (R292, R293). -/
def execLstmF (o : LstmOps) (s : State) : Host.Outcome State Fault Refusal := lstmCommand true o s

/-! ### RNN (R295, R296) -/

/-- The persistent tensor H, which RNN writes. -/
def rnnH (a : RnnArgs) : Range := tensorRange a.h a.nHid

/-- The scratch tensor T, which RNN writes: T1 and T2. -/
def rnnT (a : RnnArgs) : Range := tensorRange a.t (2 * a.nHid)

/-- The parameter tensors RNN reads. -/
def rnnParams (a : RnnArgs) : List Range :=
  [tensorRange a.wih (a.nHid * a.nIn), tensorRange a.whh (a.nHid * a.nHid), tensorRange a.bih a.nHid,
    tensorRange a.bhh a.nHid]

/-- The input sequence's range (R290). -/
def rnnX (a : RnnArgs) : Range := tensorRange a.x (a.seq * a.nIn)

/-- The footprint of RNN besides the descriptor; H is read and written. -/
def rnnFootprint (a : RnnArgs) : Footprint :=
  { reads := rnnX a :: rnnParams a, writes := [rnnH a, rnnT a] }

/-- The shape check of RNN (check 2). -/
def rnnShape (a : RnnArgs) : Option ErrCode := checkShape (positive [a.nIn, a.nHid, a.seq])

/-- The checks of every tensor but X, in layout order (check 3). -/
def rnnTensorChecks (p : Platform) (a : RnnArgs) : List (Option ErrCode) :=
  [checkTensor p a.wih (a.nHid * a.nIn), checkTensor p a.whh (a.nHid * a.nHid), checkTensor p a.bih a.nHid,
    checkTensor p a.bhh a.nHid, checkTensor p a.h a.nHid, checkTensor p a.t (2 * a.nHid)]

/-- The checks of RNN after the descriptor's, in order. -/
def rnnChecks (p : Platform) (a : RnnArgs) : Option ErrCode :=
  firstError (rnnShape a :: checkTensor p a.x (a.seq * a.nIn) :: rnnTensorChecks p a)

/-- Which of the written tensors overlap another range of the footprint (20_memory.md R91). -/
structure RnnFree where
  h : Bool
  t : Bool
  deriving DecidableEq, Repr

/-- The overlaps of an RNN; `hazards` are the ranges it must not write besides its own footprint's. -/
def rnnFree (hazards : List Range) (a : RnnArgs) : RnnFree :=
  let ins := hazards ++ (rnnFootprint a).reads
  { h := (rnnH a).meets (rnnT a :: ins), t := (rnnT a).meets (rnnH a :: ins) }

/-- The LINEAR of the input term at time step `t`, into T1 (R295). -/
def rnnInputArgs (a : RnnArgs) (t : Nat) : LinearArgs :=
  { hasBias := true, inp := a.x + 2 * (t * a.nIn), out := a.t, w := a.wih, b := a.bih, nIn := a.nIn, nOut := a.nHid }

/-- The LINEAR of the hidden term, into T2 (R295). -/
def rnnHiddenArgs (a : RnnArgs) : LinearArgs :=
  { hasBias := true, inp := a.h, out := a.t + 2 * a.nHid, w := a.whh, b := a.bhh, nIn := a.nHid, nOut := a.nHid }

/-- Time step `t`: two LINEARs, tensor-add, tanh, state copy (R295). -/
def rnnStep (cfg : Word) (lut : Lut) (fr : RnnFree) (a : RnnArgs) (x : Run) (t : Nat) : Run :=
  let n := a.nHid
  let t1 := a.t
  let t2 := a.t + 2 * n
  let x1 := x.put fr.t t1 (linearOutputs cfg x.mem (rnnInputArgs a t))
  let x2 := x1.put fr.t t2 (linearOutputs cfg x1.mem (rnnHiddenArgs a))
  let x3 := x2.put fr.t t1 (zipElems x2.mem add16 t1 t2 n)
  let x4 := x3.put fr.t t1 (mapElems x3.mem (actf lut .tanh) t1 n)
  x4.put fr.h a.h (mapElems x4.mem id t1 n)

/-- The run of RNN over SEQ time steps (R290, R295). -/
def rnnRun (cfg : Word) (lut : Lut) (hazards : List Range) (a : RnnArgs) (x : Run) : Run :=
  (List.range a.seq).foldl (rnnStep cfg lut (rnnFree hazards a) a) x

/-- RNN (R295); the descriptor as in `lstmCommand`. -/
def execRnn (o : RnnOps) (s : State) : Host.Outcome State Fault Refusal :=
  s.runCommand (rnnChecks s.platform (rnnArgs o)) fun s =>
    let a := rnnArgs o
    let x := (rnnRun s.tileCfg s.lut [] a s.run).freeOverlaps (rnnFootprint a).writes [s.descRange]
    s.finishTiled x o.h (passes s.tileCfg a.nHid)

end Sys2Proof.Machine
end

