-- ==== Sys2Proof/Machine/Network.lean ====
section
/-! DEFINITION. The network driver NET (spec/43_network_driver.md R270 to R275). The whole layer list is validated
and its buffers are routed before anything runs (R273); the run then performs the planned steps in order (R274). -/

namespace Sys2Proof.Machine

/-- A layer of the list with its buffers routed (R271): a LINEAR or CONV2D with the half it writes (`false` for
SCRATCH_A, `true` for SCRATCH_B), an LSTM or an RNN. -/
inductive LayerStep where
  | linear (a : LinearArgs) (half : Bool)
  | conv (a : ConvArgs) (half : Bool)
  | lstm (fused : Bool) (a : LstmArgs)
  | rnn (a : RnnArgs)
  deriving DecidableEq, Repr

/-- Where the driver stands between layers: the length and the address of the current tensor, and the next half
(R271, R273). -/
structure Cursor where
  len : Nat
  cur : Word
  half : Bool
  deriving DecidableEq, Repr

/-- The cursor before the first layer (R273 step 5). -/
def firstCursor (o : NetOps) : Cursor := { len := o.inLen.toNat, cur := o.input, half := false }

/-- A failed validation: the code, the address of the descriptor or record, and the layer index (R273). -/
structure NetError where
  code : ErrCode
  addr : Word
  idx : Word
  deriving DecidableEq, Repr

/-! ### Validation and routing (R273) -/

/-- The base of the selected half (R271). -/
def State.halfBase (s : State) (half : Bool) : Word := if half then s.scratchB else s.scratchA

/-- The check of the selected half, in the place of OUT (R273 step 5.6). -/
def checkHalf (s : State) (half : Bool) : Option ErrCode :=
  checkTensor s.platform (s.halfBase half).toNat s.scratchCap.toNat

/-- The layer of the record at `p` with its buffers routed, and the cursor after it (R271, R274). The record is read
by its OPC, FLAGS bit 0 telling the two forms of LINEAR and of LSTM apart (30_encoding.md R122, R140); an OPC that
is no layer's routes nothing. -/
def routeLayer (s : State) (p : Nat) (c : Cursor) : Option (LayerStep × Cursor) :=
  let w (j : Nat) : Word := s.mem.ldw (p + 4 * j)
  let out := s.halfBase c.half
  match (headerOpc (w 0)).toNat with
  | 0x01 =>
    let a := { linearArgs ((headerFlags (w 0)).getLsbD 0) (linearOps w) with inp := c.cur.toNat, out := out.toNat }
    some (.linear a c.half, { len := a.nOut, cur := out, half := !c.half })
  | 0x02 =>
    let a := { rnnArgs (rnnOps w) with x := c.cur.toNat }
    some (.rnn a, { len := a.nHid, cur := (rnnOps w).h, half := c.half })
  | 0x03 =>
    let a := { lstmArgs (lstmOps w) with x := c.cur.toNat }
    some (.lstm ((headerFlags (w 0)).getLsbD 0) a, { len := a.nHid, cur := (lstmOps w).h, half := c.half })
  | 0x04 =>
    let a := { convArgs (convOps w) with inp := c.cur.toNat, out := out.toNat }
    some (.conv a c.half, { len := convOutSize a, cur := out, half := !c.half })
  | _ => none

/-- The checks of a routed layer: its counts, the chain, the capacity, its tensors (R273 steps 5.3 to 5.6). -/
def layerChecks (s : State) (c : Cursor) : LayerStep → List (Option ErrCode)
  | .linear a _ =>
    [linearShape a, checkShape (a.nIn == c.len), checkShape (decide (a.nOut ≤ s.scratchCap.toNat)),
      checkHalf s c.half] ++ linearParamChecks s.platform a
  | .conv a _ =>
    [convShape a, checkShape (convInSize a == c.len), checkShape (decide (convOutSize a ≤ s.scratchCap.toNat)),
      checkHalf s c.half] ++ convParamChecks s.platform a
  | .lstm _ a => [lstmShape a, checkShape (a.seq * a.nIn == c.len)] ++ lstmTensorChecks s.platform a
  | .rnn a => [rnnShape a, checkShape (a.seq * a.nIn == c.len)] ++ rnnTensorChecks s.platform a

/-- The record at `p`: its OPC, then its header, then the checks of its layer (R273 step 5). -/
def planLayer (s : State) (p : Nat) (c : Cursor) : Except ErrCode (LayerStep × Cursor) :=
  match routeLayer s p c with
  | none => .error .unsupportedLayer
  | some (st, c') =>
    if headerLegal (s.mem.ldw p) then
      match firstError (layerChecks s c st) with
      | some e => .error e
      | none => .ok (st, c')
    else .error .illegalCommand

/-- The address of layer record `i` (R272). -/
def recordAddr (list i : Nat) : Nat := list + 64 * i

/-- The records `i`, …, `i + n - 1` in list order, stopping at the first failure (R272, R273). -/
def planLayers (s : State) (list : Nat) : Nat → Nat → Cursor → Except NetError (List LayerStep × Cursor)
  | 0, _, c => .ok ([], c)
  | n + 1, i, c =>
    match planLayer s (recordAddr list i) c with
    | .error e => .error { code := e, addr := BitVec.ofNat 32 (recordAddr list i), idx := BitVec.ofNat 32 i }
    | .ok (st, c') =>
      match planLayers s list n (i + 1) c' with
      | .error e => .error e
      | .ok (sts, last) => .ok (st :: sts, last)

/-- The check of the layer list: alignment 4, then its range (R273 step 3). -/
def checkList (p : Platform) (list count : Nat) : Option ErrCode :=
  if list % 4 ≠ 0 then some .misaligned
  else if p.memOk list (64 * count) then none
  else some .busError

/-- The checks of the NET descriptor's own operands (R273 steps 2 to 4). -/
def netOwnChecks (p : Platform) (o : NetOps) : Option ErrCode :=
  firstError
    [checkShape (positive [o.count.toNat, o.inLen.toNat]), checkList p o.list.toNat o.count.toNat,
      checkTensor p o.input.toNat o.inLen.toNat]

/-- The validation of a NET command: its planned steps and the last cursor, or the first failure (R273). -/
def netPlan (s : State) (o : NetOps) : Except NetError (List LayerStep × Cursor) :=
  match netOwnChecks s.platform o with
  | some e => .error { code := e, addr := s.cmdAddr, idx := 0 }
  | none =>
    planLayers s o.list.toNat o.count.toNat 0 (firstCursor o)

/-- The layer steps of the list by routing alone, whatever a check finds: the steps whose ranges are the footprint
of a NET in flight (20_memory.md R90, R274). A record that is not in memory, or whose OPC is no layer's, is no step and
leaves the cursor (log entry 12). -/
def routeLayers (s : State) (list : Nat) : Nat → Nat → Cursor → List LayerStep
  | 0, _, _ => []
  | n + 1, i, c =>
    match if s.platform.memOk (recordAddr list i) 64 then routeLayer s (recordAddr list i) c else none with
    | none => routeLayers s list n (i + 1) c
    | some (st, c') => st :: routeLayers s list n (i + 1) c'

/-! ### Footprints (20_memory.md R90, R91, R102; R274) -/

/-- The footprint of one step. -/
def stepFootprint : LayerStep → Footprint
  | .linear a _ => linearFootprint a
  | .conv a _ => convFootprint a
  | .lstm _ a => lstmFootprint a
  | .rnn a => rnnFootprint a

/-- The tensors a step's record names and only reads. -/
def stepParams : LayerStep → List Range
  | .linear a _ => linearParams a
  | .conv a _ => convParams a
  | .lstm _ a => lstmParams a
  | .rnn a => rnnParams a

/-- The half a step writes, if it writes one (R271). -/
def stepHalf : LayerStep → Option Bool
  | .linear _ h => some h
  | .conv _ h => some h
  | .lstm _ _ => none
  | .rnn _ => none

/-- The ranges of a NET that no step writes by the rules: the descriptor, the layer list, the input, and every
tensor a record only reads (R274, 70_reset_and_hazards.md R344). -/
def netFixed (s : State) (o : NetOps) (steps : List LayerStep) : List Range :=
  s.descRange :: { base := o.list.toNat, len := 64 * o.count.toNat } :: tensorRange o.input.toNat o.inLen.toNat ::
    steps.flatMap stepParams

/-- What a step of the NET writes that is another range of W than those the step `st` writes. Steps that write the same
half write the one tensor the ping-pong gives them (R271): the model's reading (log entry 10, DEDUCED). -/
def otherWrites (st other : LayerStep) : List Range :=
  if (stepHalf st).isSome && stepHalf other == stepHalf st then [] else (stepFootprint other).writes

/-- The ranges a step writes that overlap, `others` being the NET's other steps. An overlap inside the step's own
footprint makes its whole write set unspecified (R274); otherwise each range that shares a byte with a fixed range, or
with a range another step writes, be it the same range, is (20_memory.md R91, R102). That a later step reads the range
as its current tensor is no overlap (R271): the model's reading too (log entry 10, DEDUCED). -/
def stepOverlaps (fixed : List Range) (others : List LayerStep) (st : LayerStep) : List Range :=
  let fp := stepFootprint st
  if fp.overlapsItself then fp.writes
  else fp.writes.filter fun r => r.meets (fixed ++ others.flatMap (otherWrites st))

/-- The overlapping ranges that the steps write, `before` being the steps that come before them. -/
def overlapsAfter (fixed : List Range) (before : List LayerStep) : List LayerStep → List Range
  | [] => []
  | st :: after => stepOverlaps fixed (before ++ after) st ++ overlapsAfter fixed (st :: before) after

/-- What a step writes by its rule; a step that overlaps itself writes free values alone. -/
def ruleWrites (st : LayerStep) : List Range :=
  let fp := stepFootprint st
  if fp.overlapsItself then [] else fp.writes

/-- The overlapping ranges of the NET that its steps leave with values of their rules, and that are free once the
command completes (20_memory.md R91, R102). -/
def netOverlaps (fixed : List Range) (steps : List LayerStep) : List Range :=
  (overlapsAfter fixed [] steps).filter fun r => r.meets (steps.flatMap ruleWrites)

/-- The footprint of a NET of these layer steps besides the descriptor (R274). -/
def netFootprint (o : NetOps) (steps : List LayerStep) : Footprint :=
  { reads :=
      { base := o.list.toNat, len := 64 * o.count.toNat } :: tensorRange o.input.toNat o.inLen.toNat ::
        steps.flatMap fun st => (stepFootprint st).reads
    writes := steps.flatMap fun st => (stepFootprint st).writes }

/-! ### The run (R274) -/

/-- One layer step: its rule's pseudocode (R274). If it overlaps itself, all it writes is free, and later steps read
the free values. -/
def stepRun (cfg : Word) (lut : Lut) (x : Run) (st : LayerStep) : Run :=
  let fp := stepFootprint st
  let hazards := if fp.overlapsItself then fp.writes else []
  match st with
  | .linear a _ => linearRun cfg hazards a x
  | .conv a _ => convRun cfg hazards a x
  | .lstm fused a => lstmRun cfg lut fused hazards a x
  | .rnn a => rnnRun cfg lut hazards a x

/-- The tile passes of one layer step (10_state.md R38). -/
def stepPasses (cfg : Word) : LayerStep → Nat
  | .linear a _ => passes cfg a.nOut
  | .conv a _ => passes cfg a.cout
  | .lstm _ a => passes cfg a.nHid
  | .rnn a => passes cfg a.nHid

/-- LAST_PASSES ends with the last step's value. -/
def lastStepPasses (cfg : Word) : List LayerStep → Nat
  | [] => 0
  | [st] => stepPasses cfg st
  | _ :: sts => lastStepPasses cfg sts

/-- The layer steps in list order, each on what the one before it left (R272, R274); at the end the overlapping ranges
are free (20_memory.md R91: "after the command completes"). -/
def netRun (s : State) (o : NetOps) (steps : List LayerStep) : Run :=
  (steps.foldl (stepRun s.tileCfg s.lut) s.run).freeRanges (netOverlaps (netFixed s o steps) steps)

/-- The state after the run: RESULT the current tensor, LAYER_IDX the layer count (R274). -/
def netFinish (s : State) (o : NetOps) (steps : List LayerStep) (last : Cursor) : State :=
  { s.finishTiled (netRun s o steps) last.cur (lastStepPasses s.tileCfg steps) with layerIdx := o.count }

/-- NET (R273, R274). -/
def execNet (o : NetOps) (s : State) : Host.Outcome State Fault Refusal :=
  match netPlan s o with
  | .error e => .next (s.raiseError e.code e.addr e.idx)
  | .ok (steps, last) => .next (netFinish s o steps last).complete

end Sys2Proof.Machine
end

