-- ==== Sys2Proof/Machine/Dispatch.lean ====
section
/-! DEFINITION. The meaning of every command: one arm per constructor of Instr. -/

namespace Sys2Proof.Machine

/-- A command whose descriptor is aligned, accessible and decoded, at its completion step (spec/20_memory.md R95). -/
def exec (i : Instr) (s : State) : Host.Outcome State Fault Refusal :=
  match i with
  | .linear o => Sys2Proof.Machine.execLinear o s
  | .linearNb o => Sys2Proof.Machine.execLinearNb o s
  | .rnn o => Sys2Proof.Machine.execRnn o s
  | .lstm o => Sys2Proof.Machine.execLstm o s
  | .lstmF o => Sys2Proof.Machine.execLstmF o s
  | .conv2d o => Sys2Proof.Machine.execConv2d o s
  | .gateFusion o => Sys2Proof.Machine.execGateFusion o s
  | .gateFusionTanh o => Sys2Proof.Machine.execGateFusionTanh o s
  | .gateFusionSig o => Sys2Proof.Machine.execGateFusionSig o s
  | .add a b dst n => Sys2Proof.Machine.execAdd a b dst n s
  | .had a b dst n => Sys2Proof.Machine.execHad a b dst n s
  | .copy src dst n => Sys2Proof.Machine.execCopy src dst n s
  | .fill dst n value => Sys2Proof.Machine.execFill dst n value s
  | .actId src dst n => Sys2Proof.Machine.execActId src dst n s
  | .actTanh src dst n => Sys2Proof.Machine.execActTanh src dst n s
  | .actSig src dst n => Sys2Proof.Machine.execActSig src dst n s
  | .net o => Sys2Proof.Machine.execNet o s
  | .accSet d value => Sys2Proof.Machine.execAccSet d value s
  | .accB d bias => Sys2Proof.Machine.execAccB d bias s
  | .mac2 d a b => Sys2Proof.Machine.execMac2 d a b s
  | .mac1 d a b => Sys2Proof.Machine.execMac1 d a b s
  | .req d => Sys2Proof.Machine.execReq d s
  | .actsId x => Sys2Proof.Machine.execActsId x s
  | .actsTanh x => Sys2Proof.Machine.execActsTanh x s
  | .actsSig x => Sys2Proof.Machine.execActsSig x s

end Sys2Proof.Machine
end

