-- ==== Sys2Proof/Machine/Engine.lean ====
section
/-! DEFINITION. The engine's side of a step: fetching the descriptor, the completion step, the footprint of the
command in flight, and reset (spec/60_exceptions.md R312, spec/20_memory.md R90, R95, R98,
spec/70_reset_and_hazards.md R340 to R342). -/

namespace Sys2Proof.Machine

/-- The descriptor check of the command at CMD_ADDR: alignment, range, then header and index (60_exceptions.md
R312). -/
def State.fetch (s : State) : Except ErrCode Instr :=
  if s.cmdAddr.toNat % 4 ≠ 0 then .error .misaligned
  else if s.platform.memOk s.cmdAddr.toNat 64 then
    match decode (s.mem.bytes s.cmdAddr.toNat 64) with
    | .ok i => .ok i
    | .error _ => .error .illegalCommand
  else .error .busError

/-- The completion step of the command in flight (20_memory.md R95). -/
def State.completionStep (s : State) : Host.Outcome State Fault Refusal :=
  match s.fetch with
  | .error e => .next (s.raiseError e s.cmdAddr 0)
  | .ok i => exec i s

/-- The engine's turn: the command in flight completes; with none, or while reset is asserted, the engine idles
(60_exceptions.md R332, 70_reset_and_hazards.md R340). -/
def State.engineTurn (s : State) : Host.Outcome State Fault Refusal :=
  if s.busy && !s.inReset then s.completionStep else .next s

/-! ### The footprint of the command in flight (20_memory.md R90) -/

/-- The footprint of a command besides its descriptor, from its operand words alone: its rule's Reads and Writes
lines, whether or not its checks pass (20_memory.md R90; log entry 12). -/
def commandFootprint (i : Instr) (s : State) : Footprint :=
  match i with
  | .linear o => linearFootprint (linearArgs true o)
  | .linearNb o => linearFootprint (linearArgs false o)
  | .rnn o => rnnFootprint (rnnArgs o)
  | .lstm o => lstmFootprint (lstmArgs o)
  | .lstmF o => lstmFootprint (lstmArgs o)
  | .conv2d o => convFootprint (convArgs o)
  | .gateFusion o => gateFootprint (gateArgs o)
  | .gateFusionTanh o => gateFootprint (gateArgs o)
  | .gateFusionSig o => gateFootprint (gateArgs o)
  | .add a b dst n => binaryFootprint a.toNat b.toNat dst.toNat n.toNat
  | .had a b dst n => binaryFootprint a.toNat b.toNat dst.toNat n.toNat
  | .copy src dst n => unaryFootprint src.toNat dst.toNat n.toNat
  | .fill dst n _ => fillFootprint dst.toNat n.toNat
  | .actId src dst n => unaryFootprint src.toNat dst.toNat n.toNat
  | .actTanh src dst n => unaryFootprint src.toNat dst.toNat n.toNat
  | .actSig src dst n => unaryFootprint src.toNat dst.toNat n.toNat
  | .net o => netFootprint o (routeLayers s o.list.toNat o.count.toNat 0 (firstCursor o))
  | .accSet _ _ => { reads := [], writes := [] }
  | .accB _ _ => { reads := [], writes := [] }
  | .mac2 _ _ _ => { reads := [], writes := [] }
  | .mac1 _ _ _ => { reads := [], writes := [] }
  | .req _ => { reads := [], writes := [] }
  | .actsId _ => { reads := [], writes := [] }
  | .actsTanh _ => { reads := [], writes := [] }
  | .actsSig _ => { reads := [], writes := [] }

/-- The command that the descriptor at CMD_ADDR names, its alignment aside: none where the descriptor is not in
memory or does not decode (log entry 12). -/
def State.namedCommand (s : State) : Option Instr :=
  if s.platform.memOk s.cmdAddr.toNat 64 then
    match decode (s.mem.bytes s.cmdAddr.toNat 64) with
    | .ok i => some i
    | .error _ => none
  else none

/-- The footprint of the command in flight, its descriptor included; nothing is in flight with BUSY = 0. -/
def State.inFlight (s : State) : Footprint :=
  if s.busy then
    match s.namedCommand with
    | none => { reads := [s.descRange], writes := [] }
    | some i =>
      let fp := commandFootprint i s
      { reads := s.descRange :: fp.reads, writes := fp.writes }
  else { reads := [], writes := [] }

/-! ### Reset (70_reset_and_hazards.md R340 to R342) -/

/-- The LUT and accumulators after a reset: unspecified again, a free value each (R341). -/
def freeLut (k : Nat) : Lut :=
  { tanhM := freeWords 16 k, tanhQ := freeWords 16 (k + 16), sigM := freeWords 16 (k + 32),
    sigQ := freeWords 16 (k + 48) }

/-- Reset is asserted: a command in flight is abandoned, its write set free (R342); every register takes its reset
value, the LUT and the accumulators free ones (R340, R341; log entries 2 and 15). -/
def State.enterReset (s : State) : State :=
  let x := s.run.freeRanges s.inFlight.writes
  { State.reset with
    lut := freeLut x.draws
    acc := freeWords 15 (x.draws + 64)
    mem := x.mem
    inReset := true
    platform := s.platform
    agenda := s.agenda
    hostData := s.hostData
    draws := x.draws + 79 }

end Sys2Proof.Machine
end

