-- ==== Sys2Proof/Machine/Flags.lean ====
section
/-! DEFINITION. The STATUS and CTRL words and the interrupt output. The engine has no arithmetic flags
(spec/10_state.md R51); these are all the status bits it has (R32, R33; spec/60_exceptions.md R310, R325). -/

namespace Sys2Proof.Machine

/-- The code of an error (60_exceptions.md R310). -/
def ErrCode.code : ErrCode → BitVec 4
  | .none => 0
  | .illegalCommand => 1
  | .unsupportedLayer => 2
  | .shapeMismatch => 3
  | .misaligned => 4
  | .busError => 5

/-- STATUS as the host reads it (10_state.md R33). -/
def State.statusWord (s : State) : Word :=
  (0 : BitVec 20) ++ s.errCode.code ++ (0 : BitVec 5) ++ BitVec.ofBool s.err ++ BitVec.ofBool s.done ++
    BitVec.ofBool s.busy

/-- CTRL as the host reads it: START reads 0 (10_state.md R32). -/
def State.ctrlWord (s : State) : Word := (0 : BitVec 30) ++ BitVec.ofBool s.irqEn ++ (0 : BitVec 1)

/-- The interrupt output (60_exceptions.md R325). -/
def State.irq (s : State) : Bool := s.irqEn && (s.done || s.err)

/-- A write of TILE_CFG stores this value (10_state.md R40). -/
def tileCfgOf (v : Word) : Word := (v &&& 0xFFFE) ||| 0x0002

/-- The values TILE_CFG can hold: bit 1 set, bit 0 and bits 31:16 clear (10_state.md R40). -/
def tileCfgLegal (v : Word) : Bool := tileCfgOf v == v

end Sys2Proof.Machine
end

