-- ==== Sys2Proof/Machine/Bus.lean ====
section
/-! DEFINITION. The host's side: the register map and the moves of the agenda (spec/10_state.md R30 to R49,
spec/20_memory.md R97, R98). -/

namespace Sys2Proof.Machine

/-! ### The register map (10_state.md R30) -/

/-- Register `k` of an array of registers. -/
def vecGet {n : Nat} (v : Vector Word n) (k : Nat) : Word := if h : k < n then v[k] else 0

/-- What a read of the register at the word-aligned offset `off` returns; offsets not named read 0 (R30 to R46). -/
def State.regValue (s : State) (off : Nat) : Word :=
  if off = 0x000 then 0x03120007
  else if off = 0x004 then s.ctrlWord
  else if off = 0x008 then s.statusWord
  else if off = 0x00C then s.cmdAddr
  else if off = 0x010 then s.result
  else if off = 0x014 then s.faultAddr
  else if off = 0x018 then s.layerIdx
  else if off = 0x01C then s.lastPasses
  else if off = 0x020 then s.sres
  else if off = 0x024 then s.tileCfg
  else if off = 0x028 then s.scratchA
  else if off = 0x02C then s.scratchB
  else if off = 0x030 then s.scratchCap
  else if off < 0x100 then 0
  else if off < 0x140 then vecGet s.lut.tanhM ((off - 0x100) / 4)
  else if off < 0x180 then vecGet s.lut.tanhQ ((off - 0x140) / 4)
  else if off < 0x1C0 then vecGet s.lut.sigM ((off - 0x180) / 4)
  else if off < 0x200 then vecGet s.lut.sigQ ((off - 0x1C0) / 4)
  else if off < 0x23C then s.getAcc ((off - 0x200) / 4)
  else 0

/-- The registers whose value a host read while BUSY = 1 does not tell: RESULT, FAULT_ADDR, LAYER_IDX, LAST_PASSES,
SRES and ACC (R48). -/
def hiddenWhileBusy (off : Nat) : Bool :=
  off == 0x010 || off == 0x014 || off == 0x018 || off == 0x01C || off == 0x020 ||
    (decide (0x200 ≤ off) && decide (off < 0x23C))

/-- A write of CTRL: IRQ_EN, then START (R32, R47). -/
def State.writeCtrl (s : State) (v : Word) : State :=
  let t := { s with irqEn := v.getLsbD 1 }
  if v.getLsbD 0 then t.start else t

/-- A write to the register at the word-aligned offset `off`, with BUSY = 0. Read-only and unnamed offsets ignore
it (R30 to R47). -/
def State.writeReg (s : State) (off : Nat) (v : Word) : State :=
  if off = 0x004 then s.writeCtrl v
  else if off = 0x008 then s.acknowledge v
  else if off = 0x00C then { s with cmdAddr := v }
  else if off = 0x024 then { s with tileCfg := tileCfgOf v }
  else if off = 0x028 then { s with scratchA := v }
  else if off = 0x02C then { s with scratchB := v }
  else if off = 0x030 then { s with scratchCap := v }
  else if off < 0x100 then s
  else if off < 0x140 then
    { s with lut := { s.lut with tanhM := s.lut.tanhM.setIfInBounds ((off - 0x100) / 4) v } }
  else if off < 0x180 then
    { s with lut := { s.lut with tanhQ := s.lut.tanhQ.setIfInBounds ((off - 0x140) / 4) v } }
  else if off < 0x1C0 then
    { s with lut := { s.lut with sigM := s.lut.sigM.setIfInBounds ((off - 0x180) / 4) v } }
  else if off < 0x200 then
    { s with lut := { s.lut with sigQ := s.lut.sigQ.setIfInBounds ((off - 0x1C0) / 4) v } }
  else if off < 0x23C then s.setAcc ((off - 0x200) / 4) v
  else s

/-! ### The moves -/

/-- A host access to the window has an effect the spec defines: a 32-bit access, aligned, and reset not asserted
(R49, 70_reset_and_hazards.md R340); otherwise, why it is refused. -/
def regAccessRefusal (s : State) (off : BitVec 10) (width : AccessWidth) : Option Refusal :=
  if s.inReset then some (.registerAccessInReset off)
  else if width = .word ∧ off.toNat % 4 = 0 then none
  else some (.badRegisterAccess off)

/-- A host read returns `v`. -/
def State.answer (s : State) (v : Word) : State := { s with hostData := v }

/-- A host read returns a value the spec leaves unspecified: the next free value. -/
def State.answerFree (s : State) : State :=
  { s with hostData := Config.freeValue s.draws, draws := s.draws + 1 }

/-- The host reads a register (R30 to R48). -/
def hostRegRead (off : BitVec 10) (width : AccessWidth) (s : State) : Host.Outcome State Fault Refusal :=
  match regAccessRefusal s off width with
  | some r => .refused r
  | none =>
    if s.busy && hiddenWhileBusy off.toNat then .next s.answerFree
    else .next (s.answer (s.regValue off.toNat))

/-- The host writes a register; while BUSY = 1 every write is ignored (R47). -/
def hostRegWrite (off : BitVec 10) (width : AccessWidth) (v : Word) (s : State) :
    Host.Outcome State Fault Refusal :=
  match regAccessRefusal s off width with
  | some r => .refused r
  | none => if s.busy then .next s else .next (s.writeReg off.toNat v)

/-- The host reads a byte of memory; a byte of the write set of the command in flight is unspecified
(20_memory.md R98). -/
def hostMemRead (addr : Word) (s : State) : Host.Outcome State Fault Refusal :=
  if s.platform.memOk addr.toNat 1 then
    if s.inFlight.writes.any fun r => r.holds addr.toNat then
      .next { s with hostData := (freeByte s.draws).setWidth 32, draws := s.draws + 1 }
    else .next (s.answer ((s.mem.read addr.toNat).setWidth 32))
  else .fault (.notSharedMemory addr)

/-- The host writes a byte of memory; it must not write the footprint of the command in flight (20_memory.md
R98). -/
def hostMemWrite (addr : Word) (b : Byte) (s : State) : Host.Outcome State Fault Refusal :=
  if s.platform.memOk addr.toNat 1 then
    if (s.inFlight.reads ++ s.inFlight.writes).any fun r => r.holds addr.toNat then
      .fault (.footprintRace addr)
    else .next { s with mem := s.mem.write addr.toNat b }
  else .fault (.notSharedMemory addr)

/-- One move of the agenda (20_memory.md R97). -/
def takeMove (e : Event) (s : State) : Host.Outcome State Fault Refusal :=
  match e with
  | .regRead off width => hostRegRead off width s
  | .regWrite off width v => hostRegWrite off width v s
  | .memRead addr => hostMemRead addr s
  | .memWrite addr b => hostMemWrite addr b s
  | .wait => .next s
  | .engine => s.engineTurn
  | .assertReset => .next s.enterReset
  | .releaseReset => .next { s with inReset := false }

/-- The next move: the agenda's first, or the engine's turn if the agenda is empty (log entry 5). -/
def nextMove (s : State) : Host.Outcome State Fault Refusal :=
  match s.agenda with
  | [] => s.engineTurn
  | e :: rest => takeMove e { s with agenda := rest }

/-- The state with the descriptor of the table's word `w` in flight at CMD_ADDR: its bytes in memory, the engine
busy as START leaves it, and the engine next to move (log entry 8). -/
def placeTableWord (s : State) (nbits w : Nat) : State :=
  { s.start with
    mem := s.mem.storeBytes s.cmdAddr.toNat (tableBytes nbits w)
    inReset := false
    agenda := [] }

end Sys2Proof.Machine
end

