-- ==== Sys2Proof/Machine/Step.lean ====
section
/-! DEFINITION. One step of the machine: the next move of the engine or of the host (spec/00_scope.md R20). -/

namespace Sys2Proof.Machine

/-- One step: the agenda's next move, or the engine's turn if there is none (spec/20_memory.md R94 to R97). -/
def step (s : State) : Host.Outcome State Fault Refusal := nextMove s

/-- The state whose very next step fetches and runs the instruction whose bits are `w`, numbered as
spec/opcode_table.json numbers them: its descriptor stands at CMD_ADDR and is in flight. -/
def State.withFetchWord (s : State) (nbits w : Nat) : State := placeTableWord s nbits w

end Sys2Proof.Machine
end

