-- ==== Sys2Proof/Safety.lean ====
section
/-! DEFINITION. What a sound state of the engine is, and what a safe run is, in the terms claims use. -/

namespace Sys2Proof.Machine

/-- STATUS is consistent: DONE and ERR are never both 1, ERRCODE is nonzero exactly with ERR (spec/10_state.md
R33), and while a command is in flight all of them and LAYER_IDX are as START left them (R37, R47). -/
abbrev State.statusSound (s : State) : Prop :=
  ¬(s.done = true ∧ s.err = true) ∧ (s.err = true ↔ s.errCode ≠ .none) ∧
    (s.busy = true → s.done = false ∧ s.err = false ∧ s.layerIdx = 0)

/-- The invariant of the machine: STATUS is consistent, TILE_CFG holds a legal value (spec/10_state.md R40), memory
is in its canonical form, and no command is in flight while reset is asserted (spec/70_reset_and_hazards.md
R340). -/
abbrev State.Sound (s : State) : Prop :=
  s.statusSound ∧ tileCfgLegal s.tileCfg = true ∧ s.mem.wf ∧ (s.inReset = true → s.busy = false)

/-- A move is dutiful in a state: the host keeps the duties of spec/10_state.md R49, spec/20_memory.md R80 and R98,
and spec/70_reset_and_hazards.md R340. -/
def dutiful (s : State) : Event → Bool
  | .regRead off width => (regAccessRefusal s off width).isNone
  | .regWrite off width _ => (regAccessRefusal s off width).isNone
  | .memRead addr => s.platform.memOk addr.toNat 1
  | .memWrite addr _ =>
    s.platform.memOk addr.toNat 1 && !(s.inFlight.reads ++ s.inFlight.writes).any fun r => r.holds addr.toNat
  | .wait => true
  | .engine => true
  | .assertReset => true
  | .releaseReset => true

/-- A state from which the next step goes on: the agenda is empty, or its first move is dutiful. -/
def State.goesOn (s : State) : Bool :=
  match s.agenda with
  | [] => true
  | e :: rest => dutiful { s with agenda := rest } e

/-- The machine goes on for `k` steps without a fault or a refusal. -/
def safeRun : Nat → State → Bool
  | 0, _ => true
  | k + 1, s =>
    match step s with
    | .next t => safeRun k t
    | .fault _ => false
    | .refused _ => false

end Sys2Proof.Machine
end

