-- ==== Sys2Proof/Certificates/Slice0/Obligations.lean ====
section
/-! DEFINITION. The statements for the provers, and the words they are stated in. -/

namespace Sys2Proof.Claims

open Sys2Proof Sys2Proof.Machine

/-! ### Acceptance: the checks of each command's rule, transcribed from the rules (60_exceptions.md R312 to R317) -/

/-- The first error of a list of tensors, given as base address and element count: alignment before range, in
layout order (60_exceptions.md R313, R314, R317). -/
def tensorError (s : State) : List (Nat × Nat) → Option ErrCode
  | [] => none
  | (t, n) :: rest =>
    if t % 2 = 1 then some .misaligned
    else if s.platform.memOk t (2 * n) = false then some .busError
    else tensorError s rest

/-- Shape checks before tensor checks (60_exceptions.md R315, R317). -/
def shapedError (s : State) (shape : Prop) [Decidable shape] (ts : List (Nat × Nat)) : Option ErrCode :=
  if shape then tensorError s ts else some .shapeMismatch

/-- The tensors of LINEAR in layout order, B only with HAS_BIAS = 1 (41_tiled_kernels.md R205). -/
def linearTensors (hasBias : Bool) (o : LinearOps) : List (Nat × Nat) :=
  [(o.inp.toNat, o.nIn.toNat), (o.out.toNat, o.nOut.toNat), (o.w.toNat, o.nOut.toNat * o.nIn.toNat)] ++
    if hasBias then [(o.b.toNat, o.nOut.toNat)] else []

/-- The error a LINEAR of either form ends with (41_tiled_kernels.md R205). -/
def linearError (s : State) (hasBias : Bool) (o : LinearOps) : Option ErrCode :=
  shapedError s (1 ≤ o.nIn.toNat ∧ 1 ≤ o.nOut.toNat) (linearTensors hasBias o)

/-- The error a CONV2D ends with (41_tiled_kernels.md R208). -/
def convError (s : State) (o : ConvOps) : Option ErrCode :=
  shapedError s
    (1 ≤ o.h.toNat ∧ 1 ≤ o.wd.toNat ∧ 1 ≤ o.cin.toNat ∧ 1 ≤ o.cout.toNat ∧ o.kh.toNat % 2 = 1 ∧ o.kw.toNat % 2 = 1)
    [(o.inp.toNat, o.h.toNat * o.wd.toNat * o.cin.toNat), (o.out.toNat, o.cout.toNat * o.h.toNat * o.wd.toNat),
      (o.w.toNat, o.cout.toNat * o.kh.toNat * o.kw.toNat * o.cin.toNat), (o.b.toNat, o.cout.toNat)]

/-- The error a GATEFUSION of any form ends with (41_tiled_kernels.md R210). -/
def gateError (s : State) (o : GateOps) : Option ErrCode :=
  shapedError s (1 ≤ o.n1.toNat ∧ 1 ≤ o.n2.toNat ∧ 1 ≤ o.nOut.toNat)
    [(o.x1.toNat, o.n1.toNat), (o.x2.toNat, o.n2.toNat), (o.w1.toNat, o.nOut.toNat * o.n1.toNat),
      (o.w2.toNat, o.nOut.toNat * o.n2.toNat), (o.b1.toNat, o.nOut.toNat), (o.b2.toNat, o.nOut.toNat),
      (o.out.toNat, o.nOut.toNat)]

/-- The error an LSTM of either form ends with (44_recurrent.md R292). -/
def lstmError (s : State) (o : LstmOps) : Option ErrCode :=
  shapedError s (1 ≤ o.nIn.toNat ∧ 1 ≤ o.nHid.toNat ∧ 1 ≤ o.seq.toNat)
    [(o.x.toNat, o.seq.toNat * o.nIn.toNat), (o.wih.toNat, 4 * o.nHid.toNat * o.nIn.toNat),
      (o.whh.toNat, 4 * o.nHid.toNat * o.nHid.toNat), (o.bih.toNat, 4 * o.nHid.toNat),
      (o.bhh.toNat, 4 * o.nHid.toNat), (o.h.toNat, o.nHid.toNat), (o.c.toNat, o.nHid.toNat),
      (o.g.toNat, 4 * o.nHid.toNat)]

/-- The error an RNN ends with (44_recurrent.md R295). -/
def rnnError (s : State) (o : RnnOps) : Option ErrCode :=
  shapedError s (1 ≤ o.nIn.toNat ∧ 1 ≤ o.nHid.toNat ∧ 1 ≤ o.seq.toNat)
    [(o.x.toNat, o.seq.toNat * o.nIn.toNat), (o.wih.toNat, o.nHid.toNat * o.nIn.toNat),
      (o.whh.toNat, o.nHid.toNat * o.nHid.toNat), (o.bih.toNat, o.nHid.toNat), (o.bhh.toNat, o.nHid.toNat),
      (o.h.toNat, o.nHid.toNat), (o.t.toNat, 2 * o.nHid.toNat)]

/-- The error of an element-wise command over tensors of `n` elements (40_numeric_core.md R175 to R178,
42_activation.md R248). -/
def elementError (s : State) (n : Word) (ts : List Word) : Option ErrCode :=
  shapedError s (1 ≤ n.toNat) (ts.map fun t => (t.toNat, n.toNat))

/-- The error of a primitive with accumulator number `d` (60_exceptions.md R312). -/
def indexError (d : Word) : Option ErrCode := if d.toNat ≤ 14 then none else some .illegalCommand

/-- The error a command other than NET ends with after its descriptor check, if any: its rule's Checks line. -/
def commandError (s : State) : Instr → Option ErrCode
  | .linear o => linearError s true o
  | .linearNb o => linearError s false o
  | .rnn o => rnnError s o
  | .lstm o => lstmError s o
  | .lstmF o => lstmError s o
  | .conv2d o => convError s o
  | .gateFusion o => gateError s o
  | .gateFusionTanh o => gateError s o
  | .gateFusionSig o => gateError s o
  | .add a b dst n => elementError s n [a, b, dst]
  | .had a b dst n => elementError s n [a, b, dst]
  | .copy src dst n => elementError s n [src, dst]
  | .fill dst n _ => elementError s n [dst]
  | .actId src dst n => elementError s n [src, dst]
  | .actTanh src dst n => elementError s n [src, dst]
  | .actSig src dst n => elementError s n [src, dst]
  | .net _ => none
  | .accSet d _ => indexError d
  | .accB d _ => indexError d
  | .mac2 d _ _ => indexError d
  | .mac1 d _ _ => indexError d
  | .req d => indexError d
  | .actsId _ => none
  | .actsTanh _ => none
  | .actsSig _ => none

/-- The state's invariant parts the kernels rest on: memory in canonical form, TILE_CFG legal. -/
def Ready (s : State) : Prop := s.mem.wf ∧ tileCfgLegal s.tileCfg = true

/-! ### Frames -/

/-- The state `s` ended with the error `e`, found in the descriptor at `p`, at layer `k`: nothing else differs
(60_exceptions.md R311, R321). -/
def erred (s : State) (e : ErrCode) (p k : Word) : State :=
  { s with busy := false, done := false, err := true, errCode := e, faultAddr := p, layerIdx := k }

/-- The state `s` ended with success: nothing else differs (60_exceptions.md R320). -/
def succeeded (s : State) : State :=
  { s with busy := false, done := true, err := false, errCode := .none, faultAddr := 0 }

/-- `t` is `s` ended with success, but for acc[d] alone. -/
def OnlyAcc (s t : State) (d : Nat) : Prop :=
  t = succeeded { s with acc := t.acc } ∧ ∀ k, k ≠ d → t.getAcc k = s.getAcc k

/-- `t` is `s` ended with success, but for memory and RESULT, which is `dst`; memory differs inside `ws` alone. -/
def OnlyTensor (s t : State) (dst : Word) (ws : List Range) : Prop :=
  t = succeeded { s with mem := t.mem, draws := t.draws, result := dst } ∧
    ∀ p, (∀ r ∈ ws, r.holds p = false) → t.mem.read p = s.mem.read p

/-- `t` is `s` ended with success, but for memory, the accumulators, RESULT, which is `dst`, and LAST_PASSES, which
is PASSES(n); memory differs inside `ws` alone. -/
def OnlyTiled (s t : State) (dst : Word) (n : Nat) (ws : List Range) : Prop :=
  t = succeeded
      { s with
        mem := t.mem, draws := t.draws, acc := t.acc, result := dst
        lastPasses := BitVec.ofNat 32 (passes s.tileCfg n) } ∧
    ∀ p, (∀ r ∈ ws, r.holds p = false) → t.mem.read p = s.mem.read p

/-- No byte of `r` is in one of the ranges (20_memory.md R91). -/
def Apart (r : Range) (rs : List Range) : Prop := ∀ q ∈ rs, ∀ p, r.holds p = true → q.holds p = false

/-- `dst` and `src` are the same tensor, or share no byte: the forms of ADD, HAD, COPY and ACT that are defined
(20_memory.md R91). -/
def InPlaceOrApart (dst src n : Nat) : Prop := src = dst ∨ Apart (tensorRange dst n) [tensorRange src n]

/-! ### Closed forms (40_numeric_core.md R165, 41_tiled_kernels.md R205, R208, R210) -/

/-- The sum of `f i` for i in [0, n). -/
def sumTo (n : Nat) (f : Nat → Int) : Int := ((List.range n).map f).sum

/-- Element `i` of the tensor at `t`, as an integer. -/
def val (m : Memory) (t i : Nat) : Int := (m.elem t i).toInt

/-- The sum of the products of `n` elements of `x` with those of `w` from element `k` on. -/
def dotSum (m : Memory) (x w k n : Nat) : Int := sumTo n fun i => val m x i * val m w (k + i)

/-- RQ(wrap_32(v)): the floor of the 32-bit value's 4096th part, cut to 16 bits (40_numeric_core.md R161). -/
def rq (v : Int) : FixedScalar := BitVec.ofInt 16 ((BitVec.ofInt 32 v).toInt / 4096)

/-- Output channel `c` of a LINEAR, `bias` its bias term. -/
def linearClosed (m : Memory) (bias : Int) (inp w nIn c : Nat) : FixedScalar :=
  rq (bias * 4096 + dotSum m inp w (c * nIn) nIn)

/-- Is the tap `k` of an axis of `n` pixels and `kn` taps valid at pixel `y` (41_tiled_kernels.md R207)? -/
def tapValid (n kn y k : Nat) : Bool :=
  decide ((kn - 1) / 2 ≤ y + k) && decide (y + k - (kn - 1) / 2 < n)

/-- Output (co, y, x) of a CONV2D: the bias and the sum over the valid taps and the input channels
(41_tiled_kernels.md R208). -/
def convClosed (m : Memory) (o : ConvOps) (co y x : Nat) : FixedScalar :=
  rq (val m o.b.toNat co * 4096 +
    sumTo o.kh.toNat fun kh => sumTo o.kw.toNat fun kw =>
      if tapValid o.h.toNat o.kh.toNat y kh && tapValid o.wd.toNat o.kw.toNat x kw then
        sumTo o.cin.toNat fun ci =>
          val m o.inp.toNat
              (((y + kh - (o.kh.toNat - 1) / 2) * o.wd.toNat + (x + kw - (o.kw.toNat - 1) / 2)) * o.cin.toNat + ci) *
            val m o.w.toNat (((co * o.kh.toNat + kh) * o.kw.toNat + kw) * o.cin.toNat + ci)
      else 0)

/-- Output channel `c` of a GATEFUSION (41_tiled_kernels.md R210). -/
def gateClosed (s : State) (mode : Mode) (o : GateOps) (c : Nat) : FixedScalar :=
  actf s.lut mode
    (rq ((val s.mem o.b1.toNat c + val s.mem o.b2.toNat c) * 4096 +
      dotSum s.mem o.x1.toNat o.w1.toNat (c * o.n1.toNat) o.n1.toNat +
      dotSum s.mem o.x2.toNat o.w2.toNat (c * o.n2.toNat) o.n2.toNat))

/-- Gate `k` of unit `j` at the first time step of an LSTM (44_recurrent.md R291, R292). -/
def gateValue (s : State) (o : LstmOps) (k j : Nat) : FixedScalar :=
  let c := k * o.nHid.toNat + j
  actf s.lut (if k = 2 then .tanh else .sigmoid)
    (rq ((val s.mem o.bih.toNat c + val s.mem o.bhh.toNat c) * 4096 +
      dotSum s.mem o.x.toNat o.wih.toNat (c * o.nIn.toNat) o.nIn.toNat +
      dotSum s.mem o.h.toNat o.whh.toNat (c * o.nHid.toNat) o.nHid.toNat))

/-- The cell state of unit `j` after the first time step (44_recurrent.md R292). -/
def cellValue (s : State) (o : LstmOps) (j : Nat) : FixedScalar :=
  add16 (had16 (gateValue s o 1 j) (s.mem.elem o.c.toNat j)) (had16 (gateValue s o 0 j) (gateValue s o 2 j))

/-- The tensors an LSTM writes: H, C, G (44_recurrent.md R292). -/
def lstmWrites (o : LstmOps) : List Range :=
  [tensorRange o.h.toNat o.nHid.toNat, tensorRange o.c.toNat o.nHid.toNat, tensorRange o.g.toNat (4 * o.nHid.toNat)]

/-- The ranges an LSTM only reads, its descriptor among them. -/
def lstmReads (s : State) (o : LstmOps) : List Range :=
  [s.descRange, tensorRange o.x.toNat (o.seq.toNat * o.nIn.toNat), tensorRange o.wih.toNat (4 * o.nHid.toNat * o.nIn.toNat),
    tensorRange o.whh.toNat (4 * o.nHid.toNat * o.nHid.toNat), tensorRange o.bih.toNat (4 * o.nHid.toNat),
    tensorRange o.bhh.toNat (4 * o.nHid.toNat)]

/-- No range an LSTM writes overlaps another range of its footprint. -/
def LstmApart (s : State) (o : LstmOps) : Prop :=
  (lstmWrites o).Pairwise (fun r q => Apart r [q]) ∧ ∀ r ∈ lstmWrites o, Apart r (lstmReads s o)

/-- The tensors an RNN writes: H, T (44_recurrent.md R295). -/
def rnnWrites (o : RnnOps) : List Range :=
  [tensorRange o.h.toNat o.nHid.toNat, tensorRange o.t.toNat (2 * o.nHid.toNat)]

/-- The ranges an RNN only reads, its descriptor among them. -/
def rnnReads (s : State) (o : RnnOps) : List Range :=
  [s.descRange, tensorRange o.x.toNat (o.seq.toNat * o.nIn.toNat), tensorRange o.wih.toNat (o.nHid.toNat * o.nIn.toNat),
    tensorRange o.whh.toNat (o.nHid.toNat * o.nHid.toNat), tensorRange o.bih.toNat o.nHid.toNat,
    tensorRange o.bhh.toNat o.nHid.toNat]

/-- No range an RNN writes overlaps another range of its footprint. -/
def RnnApart (s : State) (o : RnnOps) : Prop :=
  (rnnWrites o).Pairwise (fun r q => Apart r [q]) ∧ ∀ r ∈ rnnWrites o, Apart r (rnnReads s o)

/-- The ranges LINEAR only reads, its descriptor among them. -/
def linearReads (s : State) (hasBias : Bool) (o : LinearOps) : List Range :=
  [s.descRange, tensorRange o.inp.toNat o.nIn.toNat, tensorRange o.w.toNat (o.nOut.toNat * o.nIn.toNat)] ++
    if hasBias then [tensorRange o.b.toNat o.nOut.toNat] else []

/-- The ranges CONV2D only reads, its descriptor among them. -/
def convReads (s : State) (o : ConvOps) : List Range :=
  [s.descRange, tensorRange o.inp.toNat (o.h.toNat * o.wd.toNat * o.cin.toNat),
    tensorRange o.w.toNat (o.cout.toNat * o.kh.toNat * o.kw.toNat * o.cin.toNat), tensorRange o.b.toNat o.cout.toNat]

/-- The ranges GATEFUSION only reads, its descriptor among them. -/
def gateReads (s : State) (o : GateOps) : List Range :=
  [s.descRange, tensorRange o.x1.toNat o.n1.toNat, tensorRange o.x2.toNat o.n2.toNat,
    tensorRange o.w1.toNat (o.nOut.toNat * o.n1.toNat), tensorRange o.w2.toNat (o.nOut.toNat * o.n2.toNat),
    tensorRange o.b1.toNat o.nOut.toNat, tensorRange o.b2.toNat o.nOut.toNat]

/-- What a GATEFUSION of ACT = `mode`, run as `run`, does from `s`. -/
def GateDoes (mode : Mode) (run : State → Host.Outcome State Fault Refusal) (s : State) (o : GateOps) : Prop :=
  ∃ t, run s = .next t ∧ OnlyTiled s t o.out o.nOut.toNat [tensorRange o.out.toNat o.nOut.toNat] ∧
    (Apart (tensorRange o.out.toNat o.nOut.toNat) (gateReads s o) →
      ∀ c, c < o.nOut.toNat → t.mem.elem o.out.toNat c = gateClosed s mode o c)

/-- What a LINEAR, run as `run`, does from `s`; `bias c` is the bias term of channel `c`. -/
def LinearDoes (run : State → Host.Outcome State Fault Refusal) (s : State) (o : LinearOps) (reads : List Range)
    (bias : Nat → Int) : Prop :=
  ∃ t, run s = .next t ∧ OnlyTiled s t o.out o.nOut.toNat [tensorRange o.out.toNat o.nOut.toNat] ∧
    (Apart (tensorRange o.out.toNat o.nOut.toNat) reads →
      ∀ c, c < o.nOut.toNat →
        t.mem.elem o.out.toNat c = linearClosed s.mem (bias c) o.inp.toNat o.w.toNat o.nIn.toNat c)

/-- What ADD or HAD, run as `run` with the element function `f`, does from `s`. -/
def BinaryDoes (f : Int → Int → Int) (run : State → Host.Outcome State Fault Refusal) (s : State) (a b dst n : Word) :
    Prop :=
  ∃ t, run s = .next t ∧ OnlyTensor s t dst [tensorRange dst.toNat n.toNat] ∧
    (Apart (tensorRange dst.toNat n.toNat) [s.descRange] → InPlaceOrApart dst.toNat a.toNat n.toNat →
      InPlaceOrApart dst.toNat b.toNat n.toNat →
      ∀ i, i < n.toNat →
        t.mem.elem dst.toNat i = BitVec.ofInt 16 (f (val s.mem a.toNat i) (val s.mem b.toNat i)))

/-- What COPY or ACT, run as `run` with the element function `f`, does from `s`. -/
def UnaryDoes (f : FixedScalar → FixedScalar) (run : State → Host.Outcome State Fault Refusal) (s : State)
    (src dst n : Word) : Prop :=
  ∃ t, run s = .next t ∧ OnlyTensor s t dst [tensorRange dst.toNat n.toNat] ∧
    (Apart (tensorRange dst.toNat n.toNat) [s.descRange] → InPlaceOrApart dst.toNat src.toNat n.toNat →
      ∀ i, i < n.toNat → t.mem.elem dst.toNat i = f (s.mem.elem src.toNat i))

/-- The error a NET's own operands end with: counts, then the layer list, then the input
(43_network_driver.md R273 steps 2 to 4). -/
def netOwnError (s : State) (o : NetOps) : Option ErrCode :=
  if ¬(1 ≤ o.count.toNat ∧ 1 ≤ o.inLen.toNat) then some .shapeMismatch
  else if o.list.toNat % 4 ≠ 0 then some .misaligned
  else if s.platform.memOk o.list.toNat (64 * o.count.toNat) = false then some .busError
  else tensorError s [(o.input.toNat, o.inLen.toNat)]

/-- Word `j` of layer record `i` (43_network_driver.md R272). -/
def recordWord (s : State) (o : NetOps) (i j : Nat) : Word := s.mem.ldw (o.list.toNat + 64 * i + 4 * j)

/-- The half the selector `nh` names (43_network_driver.md R271). -/
def selectedHalf (s : State) (nh : Bool) : Word := if nh then s.scratchB else s.scratchA

/-- The error of the layer record of words `w`, `len` elements and the selector `nh` before it: its OPC, its header,
its counts, the chain, the capacity, its tensors in layout order with the selected half over the whole capacity in the
place of OUT (43_network_driver.md R270, R273 steps 5.1 to 5.6). -/
def recordError (s : State) (len : Nat) (nh : Bool) (w : Nat → Word) : Option ErrCode :=
  let n (j : Nat) : Nat := (w j).toNat
  let cap := s.scratchCap.toNat
  let half := ((selectedHalf s nh).toNat, cap)
  if n 0 % 256 ∉ [1, 2, 3, 4] then some .unsupportedLayer
  else if w 0 ∉ ([0x101, 0x001, 0x002, 0x003, 0x103, 0x004] : List Word) then some .illegalCommand
  else if n 0 % 256 = 1 then
    shapedError s ((1 ≤ n 5 ∧ 1 ≤ n 6) ∧ n 5 = len ∧ n 6 ≤ cap)
      ([half, (n 3, n 6 * n 5)] ++ if w 0 = 0x101 then [(n 4, n 6)] else [])
  else if n 0 % 256 = 4 then
    shapedError s
      ((1 ≤ n 5 ∧ 1 ≤ n 6 ∧ 1 ≤ n 7 ∧ 1 ≤ n 8 ∧ n 9 % 2 = 1 ∧ n 10 % 2 = 1) ∧ n 5 * n 6 * n 7 = len ∧
        n 8 * n 5 * n 6 ≤ cap)
      [half, (n 3, n 8 * n 9 * n 10 * n 7), (n 4, n 8)]
  else if n 0 % 256 = 3 then
    shapedError s ((1 ≤ n 9 ∧ 1 ≤ n 10 ∧ 1 ≤ n 11) ∧ n 11 * n 9 = len)
      [(n 2, 4 * n 10 * n 9), (n 3, 4 * n 10 * n 10), (n 4, 4 * n 10), (n 5, 4 * n 10), (n 6, n 10), (n 7, n 10),
        (n 8, 4 * n 10)]
  else
    shapedError s ((1 ≤ n 8 ∧ 1 ≤ n 9 ∧ 1 ≤ n 10) ∧ n 10 * n 8 = len)
      [(n 2, n 9 * n 8), (n 3, n 9 * n 9), (n 4, n 9), (n 5, n 9), (n 6, n 9), (n 7, 2 * n 9)]

/-- Does the record of header `h` write a half: LINEAR or CONV2D (43_network_driver.md R271)? -/
def writesHalf (h : Word) : Bool := h.toNat % 256 == 1 || h.toNat % 256 == 4

/-- The output size of the record of words `w` (43_network_driver.md R270). -/
def outputSize (w : Nat → Word) : Nat :=
  if (w 0).toNat % 256 = 1 then (w 6).toNat
  else if (w 0).toNat % 256 = 4 then (w 8).toNat * (w 5).toNat * (w 6).toNat
  else if (w 0).toNat % 256 = 3 then (w 10).toNat
  else (w 9).toNat

/-- The length `len` before record `i` (43_network_driver.md R273 step 5.7). -/
def lenBefore (s : State) (o : NetOps) : Nat → Nat
  | 0 => o.inLen.toNat
  | i + 1 => outputSize (recordWord s o i)

/-- The next half before record `i` (43_network_driver.md R271). -/
def halfBefore (s : State) (o : NetOps) : Nat → Bool
  | 0 => false
  | i + 1 => if writesHalf (recordWord s o i 0) then !halfBefore s o i else halfBefore s o i

/-- The current tensor before record `i`; w6 of an LSTM or RNN record is its H (43_network_driver.md R271). -/
def currentBefore (s : State) (o : NetOps) : Nat → Word
  | 0 => o.input
  | i + 1 =>
    if writesHalf (recordWord s o i 0) then selectedHalf s (halfBefore s o i) else recordWord s o i 6

/-- The error of record `i` where the records before it pass. -/
def netRecordError (s : State) (o : NetOps) (i : Nat) : Option ErrCode :=
  recordError s (lenBefore s o i) (halfBefore s o i) (recordWord s o i)

/-- The NET passes its validation (43_network_driver.md R273). -/
def NetPasses (s : State) (o : NetOps) : Prop :=
  netOwnError s o = none ∧ ∀ i, i < o.count.toNat → netRecordError s o i = none

/-- The stand-alone command of the record of words `w`, with IN or X `cur` and OUT `out` (30_encoding.md R140). -/
def layerCommand (w : Nat → Word) (cur out : Word) : Instr :=
  let linear : LinearOps := { inp := cur, out := out, w := w 3, b := w 4, nIn := w 5, nOut := w 6 }
  let lstm : LstmOps :=
    { x := cur, wih := w 2, whh := w 3, bih := w 4, bhh := w 5, h := w 6, c := w 7, g := w 8, nIn := w 9,
      nHid := w 10, seq := w 11 }
  if w 0 = 0x101 then .linear linear
  else if w 0 = 0x001 then .linearNb linear
  else if w 0 = 0x003 then .lstm lstm
  else if w 0 = 0x103 then .lstmF lstm
  else if w 0 = 0x004 then
    .conv2d
      { inp := cur, out := out, w := w 3, b := w 4, h := w 5, wd := w 6, cin := w 7, cout := w 8, kh := w 9,
        kw := w 10 }
  else
    .rnn
      { x := cur, wih := w 2, whh := w 3, bih := w 4, bhh := w 5, h := w 6, t := w 7, nIn := w 8, nHid := w 9,
        seq := w 10 }

/-- The command of record `i`, its buffers routed (43_network_driver.md R271, R274). -/
def netCommand (s : State) (o : NetOps) (i : Nat) : Instr :=
  layerCommand (recordWord s o i) (currentBefore s o i) (selectedHalf s (halfBefore s o i))

/-- What a layer's command writes: its rule's Writes line. -/
def layerWrites : Instr → List Range
  | .linear o => [tensorRange o.out.toNat o.nOut.toNat]
  | .linearNb o => [tensorRange o.out.toNat o.nOut.toNat]
  | .conv2d o => [tensorRange o.out.toNat (o.cout.toNat * o.h.toNat * o.wd.toNat)]
  | .lstm o => lstmWrites o
  | .lstmF o => lstmWrites o
  | .rnn o => rnnWrites o
  | _ => []

/-- What a layer's command only reads, the descriptor and the layer's input first: its rule's Reads line. -/
def layerReads (s : State) : Instr → List Range
  | .linear o => linearReads s true o
  | .linearNb o => linearReads s false o
  | .conv2d o => convReads s o
  | .lstm o => lstmReads s o
  | .lstmF o => lstmReads s o
  | .rnn o => rnnReads s o
  | _ => []

/-- No layer's output overlaps another range of its own command, the layer list, the input, a tensor that any layer
only reads, or the output of another layer, but for two layers that write the same half
(70_reset_and_hazards.md R344; 20_memory.md R91). -/
structure NetApart (s : State) (o : NetOps) : Prop where
  own : ∀ i, i < o.count.toNat →
    (layerWrites (netCommand s o i)).Pairwise (fun r q => Apart r [q]) ∧
      ∀ r ∈ layerWrites (netCommand s o i), Apart r (layerReads s (netCommand s o i))
  fixed : ∀ i j, i < o.count.toNat → j < o.count.toNat → ∀ r ∈ layerWrites (netCommand s o i),
    Apart r ({ base := o.list.toNat, len := 64 * o.count.toNat } :: tensorRange o.input.toNat o.inLen.toNat ::
      (layerReads s (netCommand s o j)).drop 2)
  others : ∀ i j, i < j → j < o.count.toNat →
    (writesHalf (recordWord s o i 0) = true ∧ writesHalf (recordWord s o j 0) = true ∧
        halfBefore s o i = halfBefore s o j) ∨
      ∀ r ∈ layerWrites (netCommand s o i), Apart r (layerWrites (netCommand s o j))

/-- The commands complete without an error one after another from the first state, and leave the second. -/
def Leaves : List Instr → State → State → Prop
  | [], s, t => t = s
  | i :: is, s, t => ∃ u, exec i s = .next u ∧ u.done = true ∧ Leaves is u t

/-- The layer records and the operands a two-layer LINEAR network rests on (43_network_driver.md R273, R275). -/
structure TwoLinears (s : State) (o : NetOps) (o0 o1 : LinearOps) : Prop where
  count : o.count = 2
  listAligned : o.list.toNat % 4 = 0
  listOk : s.platform.memOk o.list.toNat 128 = true
  record0 : decode (s.mem.bytes o.list.toNat 64) = .ok (.linear o0)
  record1 : decode (s.mem.bytes (o.list.toNat + 64) 64) = .ok (.linear o1)
  counts : 1 ≤ o0.nIn.toNat ∧ 1 ≤ o0.nOut.toNat ∧ 1 ≤ o1.nIn.toNat ∧ 1 ≤ o1.nOut.toNat
  chain : o0.nIn = o.inLen ∧ o1.nIn = o0.nOut
  capacity : o0.nOut.toNat ≤ s.scratchCap.toNat ∧ o1.nOut.toNat ≤ s.scratchCap.toNat
  tensors :
    tensorError s
      [(o.input.toNat, o.inLen.toNat), (s.scratchA.toNat, s.scratchCap.toNat),
        (s.scratchB.toNat, s.scratchCap.toNat), (o0.w.toNat, o0.nOut.toNat * o0.nIn.toNat),
        (o0.b.toNat, o0.nOut.toNat), (o1.w.toNat, o1.nOut.toNat * o1.nIn.toNat), (o1.b.toNat, o1.nOut.toNat)] = none

/-- The half A range the first layer writes. -/
def halfA (s : State) (o0 : LinearOps) : Range := tensorRange s.scratchA.toNat o0.nOut.toNat

/-- The half B range the second layer writes. -/
def halfB (s : State) (o1 : LinearOps) : Range := tensorRange s.scratchB.toNat o1.nOut.toNat

/-- What a two-layer LINEAR network only reads, its descriptor and layer list among it. -/
def twoLinearReads (s : State) (o : NetOps) (o0 o1 : LinearOps) : List Range :=
  [s.descRange, { base := o.list.toNat, len := 128 }, tensorRange o.input.toNat o.inLen.toNat,
    tensorRange o0.w.toNat (o0.nOut.toNat * o0.nIn.toNat), tensorRange o0.b.toNat o0.nOut.toNat,
    tensorRange o1.w.toNat (o1.nOut.toNat * o1.nIn.toNat), tensorRange o1.b.toNat o1.nOut.toNat]

/-- The boot rule for the halves of that network: they overlap neither each other nor what is read
(70_reset_and_hazards.md R344). -/
def HalvesApart (s : State) (o : NetOps) (o0 o1 : LinearOps) : Prop :=
  Apart (halfA s o0) (halfB s o1 :: twoLinearReads s o o0 o1) ∧ Apart (halfB s o1) (twoLinearReads s o o0 o1)

/-- The legal header words of 30_encoding.md R122. -/
def legalHeaders : List Word :=
  [0x101, 0x001, 0x002, 0x003, 0x103, 0x004, 0x010, 0x110, 0x210, 0x020, 0x021, 0x022, 0x023, 0x030, 0x130, 0x230,
    0x040, 0x050, 0x051, 0x052, 0x053, 0x054, 0x055, 0x155, 0x255]

/-- The operand words of kind value16 (30_encoding.md R131, R136 to R138). -/
def value16Words : Instr → List Nat
  | .fill _ _ _ => [3]
  | .accB _ _ => [2]
  | .mac1 _ _ _ => [2, 3]
  | .actsId _ => [1]
  | .actsTanh _ => [1]
  | .actsSig _ => [1]
  | _ => []

/-- The offsets of the registers that hold what is written to them: CMD_ADDR, SCRATCH_A, SCRATCH_B, SCRATCH_CAP, the
LUT and ACC (10_state.md R30). -/
def plainOffset (off : Nat) : Prop :=
  off % 4 = 0 ∧ (off = 0x00C ∨ off = 0x028 ∨ off = 0x02C ∨ off = 0x030 ∨ (0x100 ≤ off ∧ off < 0x23C))

/-- The register offsets 10_state.md R30 names. -/
def namedOffset (off : Nat) : Prop := off % 4 = 0 ∧ (off ≤ 0x030 ∨ (0x100 ≤ off ∧ off < 0x23C))

end Sys2Proof.Claims

open Sys2Proof Sys2Proof.Machine Sys2Proof.Claims

/-! ## Encoding -/

/-- The decoder reads back every well-formed command the encoder writes, whatever its operands (30_encoding.md R120
to R138). -/
def Obligations.DecodeReadsBackEncode : Prop :=
  ∀ i : Instr, WellFormed i → decode (encodeBytes i) = .ok i

/-- The procedure of 30_encoding.md R141 accepts exactly the 25 header words of R122, and the decoder rejects every
descriptor whose header is not one of them, and only those and the primitives with an index above 14 (R124). -/
def Obligations.ExactlyTheLegalHeadersDecode : Prop :=
  (∀ h : Word, headerLegal h = true ↔ h ∈ legalHeaders) ∧
    ∀ bs : List Byte, 64 ≤ bs.length →
      ((∃ i, decode bs = .ok i) ↔
        wordAt bs 0 ∈ legalHeaders ∧
          (wordAt bs 0 ∈ [0x050, 0x051, 0x052, 0x053, 0x054] → (wordAt bs 1).toNat ≤ 14))

/-- Words that a command's layout does not name may hold any value (30_encoding.md R125), and so may bits 31:16 of a
value16 word, of FILL, ACCB, MAC1 and ACTS (R124). -/
def Obligations.UnnamedWordsAreIgnored : Prop :=
  ∀ (w w' : Nat → Word) (i : Instr), decodeWords w = .ok i →
    (∀ j, j ≤ (encodeOperands i).length →
      if j ∈ value16Words i then (w' j).setWidth 16 = (w j).setWidth 16 else w' j = w j) →
    decodeWords w' = .ok i

/-- Descriptors written out from the spec decode to the commands they stand for: the LINEAR of 30_encoding.md R146,
first byte by byte as that rule and its word order give them (20_memory.md R81, R83), and descriptors of programs P1,
P4 and P5 of 95_test_vectors.md. -/
def Obligations.WrittenDescriptorsDecode : Prop :=
  let words (l : List Word) : List Byte := (l ++ List.replicate (16 - l.length) 0).flatMap bytesOfWord
  decode
      ([0x01, 0x01, 0x00, 0x00, 0x00, 0x10, 0x00, 0x00, 0x00, 0x11, 0x00, 0x00, 0x00, 0x20, 0x00, 0x00,
        0x00, 0x21, 0x00, 0x00, 0x04, 0x00, 0x00, 0x00, 0x02, 0x00, 0x00, 0x00] ++ List.replicate 36 0) =
      .ok (.linear { inp := 0x1000, out := 0x1100, w := 0x2000, b := 0x2100, nIn := 4, nOut := 2 }) ∧
    decode (words [0x101, 0x1000, 0x1100, 0x2000, 0x2100, 4, 2]) =
      .ok (.linear { inp := 0x1000, out := 0x1100, w := 0x2000, b := 0x2100, nIn := 4, nOut := 2 }) ∧
    decode (words [0x52, 0, 0x20001000, 0x10001000]) =
      .ok (.mac2 0 { lane0 := 0x1000, lane1 := 0x2000 } { lane0 := 0x1000, lane1 := 0x1000 }) ∧
    decode (words [0x21, 0x3000, 0x3000, 0x3010, 3]) = .ok (.had 0x3000 0x3000 0x3010 3) ∧
    decode (words [0x23, 0x3000, 3, 0x800]) = .ok (.fill 0x3000 3 0x800) ∧
    decode (words [3, 0, 0x2100, 0x2200, 0x2300, 0x2400, 0x3000, 0x3010, 0x3020, 1, 1, 1]) =
      .ok (.lstm
        { x := 0, wih := 0x2100, whh := 0x2200, bih := 0x2300, bhh := 0x2400, h := 0x3000, c := 0x3010, g := 0x3020,
          nIn := 1, nHid := 1, seq := 1 })

/-! ## The step -/

/-- With no move of the host first, and at an `.engine` move, a step runs the command whose descriptor stands
at CMD_ADDR: it is exec of that command (20_memory.md R95, 60_exceptions.md R312). With nothing in flight, or while
reset is asserted, the engine idles, and at a `.wait` the host waits: such a step changes nothing but the moves to come
(60_exceptions.md R332, 70_reset_and_hazards.md R340, 20_memory.md R97). That the moves are an agenda, that the engine
moves when it is empty, and that an idle turn is a step, is the model's choice (notes/assumptions/5.md and 20.md). -/
def Obligations.StepRunsTheDecodedCommand : Prop :=
  ∀ (s : State) (rest : List Event),
    (∀ i : Instr, s.busy = true → s.inReset = false → s.cmdAddr.toNat % 4 = 0 →
      s.platform.memOk s.cmdAddr.toNat 64 = true → decode (s.mem.bytes s.cmdAddr.toNat 64) = .ok i →
      (s.agenda = [] → step s = exec i s) ∧
        (s.agenda = .engine :: rest → step s = exec i { s with agenda := rest })) ∧
    (s.busy = false ∨ s.inReset = true →
      (s.agenda = [] → step s = .next s) ∧ (s.agenda = .engine :: rest → step s = .next { s with agenda := rest })) ∧
    (s.agenda = .wait :: rest → step s = .next { s with agenda := rest })

/-- The descriptor check: at the engine's turn, with no move of the host first and at an `.engine` move, a descriptor
that is misaligned, not accessible, or does not decode ends the command with its error code at CMD_ADDR, in that order
(60_exceptions.md R312). That the engine's turns come so is the model's choice (notes/assumptions/5.md). -/
def Obligations.BadDescriptorsEndWithTheirError : Prop :=
  ∀ (s t : State) (rest : List Event), s.busy = true → s.inReset = false →
    (s.agenda = [] ∧ t = s) ∨ (s.agenda = .engine :: rest ∧ t = { s with agenda := rest }) →
    (s.cmdAddr.toNat % 4 ≠ 0 → step s = .next (erred t .misaligned s.cmdAddr 0)) ∧
      (s.cmdAddr.toNat % 4 = 0 → s.platform.memOk s.cmdAddr.toNat 64 = false →
        step s = .next (erred t .busError s.cmdAddr 0)) ∧
      (s.cmdAddr.toNat % 4 = 0 → s.platform.memOk s.cmdAddr.toNat 64 = true →
        (s.mem.ldw s.cmdAddr.toNat ∉ legalHeaders ∨
          (s.mem.ldw s.cmdAddr.toNat ∈ [0x050, 0x051, 0x052, 0x053, 0x054] ∧
            14 < (s.mem.ldw (s.cmdAddr.toNat + 4)).toNat)) →
        step s = .next (erred t .illegalCommand s.cmdAddr 0))

/-- Every command ends: with success, or with an error that changes STATUS, FAULT_ADDR and LAYER_IDX and nothing
else (60_exceptions.md R311, R320, R321, R323). -/
def Obligations.EveryCommandEndsPrecisely : Prop :=
  ∀ (i : Instr) (s : State), ∃ t, exec i s = .next t ∧
    ((t = succeeded t ∧ t.irqEn = s.irqEn ∧ t.cmdAddr = s.cmdAddr ∧ t.tileCfg = s.tileCfg ∧
        t.scratchA = s.scratchA ∧ t.scratchB = s.scratchB ∧ t.scratchCap = s.scratchCap ∧ t.lut = s.lut ∧
        t.inReset = s.inReset ∧ t.agenda = s.agenda ∧ t.hostData = s.hostData) ∨
      ∃ e p k, e ≠ .none ∧ t = erred s e p k)

/-- A command other than NET whose checks find an error ends with the first one, at CMD_ADDR (60_exceptions.md R312
to R317 and the Checks line of each command's rule). -/
def Obligations.FirstFailedCheckIsReported : Prop :=
  ∀ (i : Instr) (s : State) (e : ErrCode), commandError s i = some e → exec i s = .next (erred s e s.cmdAddr 0)

/-! ## Numeric core -/

/-- RQ keeps the low 16 bits of the arithmetic right shift by 12: it floors and it does not saturate; then the
rule's examples (40_numeric_core.md R161). -/
def Obligations.RequantizeFloorsAndWraps : Prop :=
  (∀ acc : Acc, requantize acc = (acc.sshiftRight 12).setWidth 16 ∧
      requantize acc = BitVec.ofInt 16 (acc.toInt / 4096)) ∧
    (requantize 0x01000000).toInt = 4096 ∧ (requantize (-1)).toInt = -1 ∧ (requantize 4095).toInt = 0 ∧
    (requantize (-4096)).toInt = -1 ∧ (requantize 0x08000000).toInt = -32768 ∧ (requantize 0x7FFFFFFF).toInt = -1

/-- The bias pre-shift is exact, RQ undoes it, and two biases are summed without a 16-bit wrap (40_numeric_core.md
R162). -/
def Obligations.BiasPreShiftIsExact : Prop :=
  (∀ b : FixedScalar, (bias12 b).toInt = b.toInt * 4096 ∧ -2 ^ 27 ≤ b.toInt * 4096 ∧ b.toInt * 4096 ≤ 2 ^ 27 - 4096 ∧
      requantize (bias12 b) = b) ∧
    ∀ b1 b2 : FixedScalar, (bias12Sum b1 b2).toInt = (b1.toInt + b2.toInt) * 4096 ∧
      -2 ^ 28 ≤ (b1.toInt + b2.toInt) * 4096 ∧ (b1.toInt + b2.toInt) * 4096 < 2 ^ 28

/-- The 2-lane MAC: each product is exact, the only narrowing is the final wrap to 32 bits, and from 0 it is exact
but for one operand set, all four lanes -32768, where it gives -2^31 (40_numeric_core.md R163). -/
def Obligations.OneLanePairWraps : Prop :=
  ∀ (acc : Acc) (a0 a1 b0 b1 : FixedScalar),
    macPair acc a0 a1 b0 b1 = BitVec.ofInt 32 (acc.toInt + a0.toInt * b0.toInt + a1.toInt * b1.toInt) ∧
      -2 ^ 30 + 2 ^ 15 ≤ a0.toInt * b0.toInt ∧ a0.toInt * b0.toInt ≤ 2 ^ 30 ∧
      ((macPair 0 a0 a1 b0 b1).toInt = a0.toInt * b0.toInt + a1.toInt * b1.toInt ↔
        ¬(a0 = 0x8000 ∧ a1 = 0x8000 ∧ b0 = 0x8000 ∧ b1 = 0x8000)) ∧
      (macPair 0 0x8000 0x8000 0x8000 0x8000).toInt = -2 ^ 31

/-- The dot-product sweep is the sum modulo 2^32 of all the products, pairs and odd tail alike, so neither the
pairing nor the order shows (40_numeric_core.md R165). -/
def Obligations.DotIsTheWrappedSum : Prop :=
  ∀ (xs ws : List FixedScalar) (acc : Acc), xs.length = ws.length →
    dot acc xs ws = BitVec.ofInt 32 (acc.toInt + (List.zipWith (fun x w => x.toInt * w.toInt) xs ws).sum)

/-! ## Accumulator primitives -/

/-- ACCSET and ACCB write acc[D] and nothing else but the completion (40_numeric_core.md R170, R171). -/
def Obligations.AccumulatorLoads : Prop :=
  ∀ (s : State) (d : Word), d.toNat ≤ 14 →
    (∀ v : Word, ∃ t, exec (.accSet d v) s = .next t ∧ OnlyAcc s t d.toNat ∧ t.getAcc d.toNat = v) ∧
      ∀ b : FixedScalar, ∃ t, exec (.accB d b) s = .next t ∧ OnlyAcc s t d.toNat ∧
        (t.getAcc d.toNat).toInt = b.toInt * 4096

/-- MAC2 and MAC1 add their exact products to acc[D] modulo 2^32 and change nothing else but the completion
(40_numeric_core.md R172, R173). -/
def Obligations.MultiplyAccumulates : Prop :=
  ∀ (s : State) (d : Word), d.toNat ≤ 14 →
    (∀ a b : Pair, ∃ t, exec (.mac2 d a b) s = .next t ∧ OnlyAcc s t d.toNat ∧
        (t.getAcc d.toNat).toInt =
          ((s.getAcc d.toNat).toInt + a.lane0.toInt * b.lane0.toInt + a.lane1.toInt * b.lane1.toInt).bmod (2 ^ 32)) ∧
      ∀ a b : FixedScalar, ∃ t, exec (.mac1 d a b) s = .next t ∧ OnlyAcc s t d.toNat ∧
        (t.getAcc d.toNat).toInt = ((s.getAcc d.toNat).toInt + a.toInt * b.toInt).bmod (2 ^ 32)

/-- REQ writes SRES with the sign-extended requantized accumulator and nothing else but the completion
(40_numeric_core.md R174, 10_state.md R39). -/
def Obligations.RequantizeIntoSres : Prop :=
  ∀ (s : State) (d : Word), d.toNat ≤ 14 → ∃ t, exec (.req d) s = .next t ∧ t = succeeded { s with sres := t.sres } ∧
    t.sres.toInt = (rq (s.getAcc d.toNat).toInt).toInt

/-! ## Element-wise commands -/

/-- ADD: every element of DST is the 16-bit wrapped sum; nothing outside DST changes, and RESULT is DST
(40_numeric_core.md R175, R166; 20_memory.md R91). -/
def Obligations.AddResult : Prop :=
  ∀ (s : State) (a b dst n : Word), Ready s → commandError s (.add a b dst n) = none →
    BinaryDoes (fun x y => x + y) (exec (.add a b dst n)) s a b dst n

/-- HAD: every element of DST is the floor of the product over 4096, cut to 16 bits (40_numeric_core.md R176, R167;
20_memory.md R91). -/
def Obligations.HadamardResult : Prop :=
  ∀ (s : State) (a b dst n : Word), Ready s → commandError s (.had a b dst n) = none →
    BinaryDoes (fun x y => x * y / 4096) (exec (.had a b dst n)) s a b dst n

/-- COPY: DST holds SRC's elements (40_numeric_core.md R177; 20_memory.md R91). -/
def Obligations.CopyResult : Prop :=
  ∀ (s : State) (src dst n : Word), Ready s → commandError s (.copy src dst n) = none →
    UnaryDoes (fun x => x) (exec (.copy src dst n)) s src dst n

/-- FILL: every element of DST is VALUE (40_numeric_core.md R178; 20_memory.md R91). -/
def Obligations.FillResult : Prop :=
  ∀ (s : State) (dst n : Word) (v : FixedScalar), Ready s → commandError s (.fill dst n v) = none →
    ∃ t, exec (.fill dst n v) s = .next t ∧ OnlyTensor s t dst [tensorRange dst.toNat n.toNat] ∧
      (Apart (tensorRange dst.toNat n.toNat) [s.descRange] → ∀ i, i < n.toNat → t.mem.elem dst.toNat i = v)

/-! ## Activation -/

/-- Every magnitude of 4.0 or more saturates, -32768 among them, whatever the LUT holds (42_activation.md R241,
R242). -/
def Obligations.LargeMagnitudesSaturate : Prop :=
  ∀ (lut : Lut) (x : FixedScalar),
    (16384 ≤ x.toInt → actf lut .tanh x = 0x1000 ∧ actf lut .sigmoid x = 0x1000) ∧
      (x.toInt ≤ -16384 → actf lut .tanh x = 0xF000 ∧ actf lut .sigmoid x = 0)

/-- For 0 ≤ x < 4.0 tanh and sigmoid are RQ of the wrapped slope times x plus intercept of bucket x div 1024
(42_activation.md R243). -/
def Obligations.BucketsInterpolate : Prop :=
  ∀ (lut : Lut) (x : FixedScalar) (k : Nat) (hk : k < 16), (k : Int) * 1024 ≤ x.toInt → x.toInt < (k + 1) * 1024 →
    actf lut .tanh x = rq (lut.tanhM[k].toInt * x.toInt + lut.tanhQ[k].toInt) ∧
      actf lut .sigmoid x = rq (lut.sigM[k].toInt * x.toInt + lut.sigQ[k].toInt)

/-- For -4.0 < x < 0 tanh is the bitwise complement of the positive branch, one code below its negation
(42_activation.md R244). -/
def Obligations.TanhMirrorsByComplement : Prop :=
  ∀ (lut : Lut) (x : FixedScalar), -16384 < x.toInt → x.toInt < 0 →
    actf lut .tanh x = ~~~(actf lut .tanh (-x)) ∧
      (actf lut .tanh x).toInt = -(actf lut .tanh (-x)).toInt - 1

/-- For -4.0 < x < 0 sigmoid is 4094 minus the positive branch, wrapped to 16 bits (42_activation.md R245). -/
def Obligations.SigmoidMirrorsFromOne : Prop :=
  ∀ (lut : Lut) (x : FixedScalar), -16384 < x.toInt → x.toInt < 0 →
    actf lut .sigmoid x = BitVec.ofInt 16 (4094 - (actf lut .sigmoid (-x)).toInt)

/-- ACTS.ID, ACTS.TANH and ACTS.SIG write SRES with the sign-extended activation and nothing else but the
completion (42_activation.md R247, 10_state.md R39). -/
def Obligations.ScalarActivationResult : Prop :=
  ∀ (s : State) (x : FixedScalar),
    exec (.actsId x) s = .next (succeeded { s with sres := x.signExtend 32 }) ∧
      exec (.actsTanh x) s = .next (succeeded { s with sres := (actf s.lut .tanh x).signExtend 32 }) ∧
      exec (.actsSig x) s = .next (succeeded { s with sres := (actf s.lut .sigmoid x).signExtend 32 })

/-- ACT.ID, ACT.TANH and ACT.SIG: every element of DST is the activation of SRC's (42_activation.md R248;
20_memory.md R91). -/
def Obligations.TensorActivationResult : Prop :=
  ∀ (s : State) (src dst n : Word), Ready s → commandError s (.actId src dst n) = none →
    UnaryDoes (fun x => x) (exec (.actId src dst n)) s src dst n ∧
      UnaryDoes (actf s.lut .tanh) (exec (.actTanh src dst n)) s src dst n ∧
      UnaryDoes (actf s.lut .sigmoid) (exec (.actSig src dst n)) s src dst n

/-! ## Tile scheduler and tiled kernels -/

/-- The tiles of a legal TILE_CFG cover the channels [0, N) in increasing order, each exactly once, with widths of 1
to 15 that sum to N (41_tiled_kernels.md R202). -/
def Obligations.TilesCoverEachChannelOnce : Prop :=
  ∀ (cfg : Word) (n : Nat), tileCfgLegal cfg = true →
    passes cfg n = (sched cfg n).length ∧ (sched cfg n).flatMap Tile.channels = List.range n ∧
      ((sched cfg n).map Tile.width).sum = n ∧
      ∀ t ∈ sched cfg n, 1 ≤ t.width ∧ t.width ≤ 15 ∧ cfg.getLsbD t.width = true

/-- The greedy rule: while at least w channels are left, no tile narrower than the candidate width w is chosen
(41_tiled_kernels.md R201). -/
def Obligations.ScheduleIsGreedy : Prop :=
  ∀ (cfg : Word) (n w : Nat), tileCfgLegal cfg = true → 1 ≤ w → w ≤ 15 → cfg.getLsbD w = true →
    ∀ t ∈ sched cfg n, t.base + w ≤ n → w ≤ t.width

/-- A write of TILE_CFG stores `(v & 0xFFFE) | 2` and changes nothing else; every value written gives a descending list of candidate widths
that ends in 1, and the reset value the list 15, 8, 4, 2, 1 (10_state.md R40). -/
def Obligations.CandidatesDescendToOne : Prop :=
  candidates State.reset.tileCfg = [15, 8, 4, 2, 1] ∧
  ∀ v : Word, (∀ s : State, s.writeReg 0x024 v = { s with tileCfg := (v &&& 0xFFFE) ||| 2 }) ∧
    (∀ s : State, (s.writeReg 0x024 v).regValue 0x024 = (v &&& 0xFFFE) ||| 2) ∧
    tileCfgLegal (tileCfgOf v) = true ∧ (candidates (tileCfgOf v)).Pairwise (fun a b => b < a) ∧
    (candidates (tileCfgOf v)).getLast? = some 1 ∧
    ∀ w, w ∈ candidates (tileCfgOf v) ↔ 1 ≤ w ∧ w ≤ 15 ∧ (w = 1 ∨ v.getLsbD w = true)

/-- LINEAR: every output channel is RQ of its bias times 4096 plus its products, modulo 2^32; nothing outside OUT
changes, RESULT is OUT and LAST_PASSES is PASSES(N_OUT) (41_tiled_kernels.md R205; 20_memory.md R91). -/
def Obligations.LinearResult : Prop :=
  ∀ (s : State) (o : LinearOps), Ready s → commandError s (.linear o) = none →
    LinearDoes (exec (.linear o)) s o (linearReads s true o) (fun c => val s.mem o.b.toNat c)

/-- LINEAR.NB: as LINEAR with every accumulator starting at 0; B is neither checked nor read
(41_tiled_kernels.md R205, R206; 20_memory.md R91). -/
def Obligations.LinearWithoutBiasResult : Prop :=
  ∀ (s : State) (o : LinearOps), Ready s → commandError s (.linearNb o) = none →
    LinearDoes (exec (.linearNb o)) s o (linearReads s false o) (fun _ => 0)

/-- CONV2D: every output is RQ of its bias times 4096 plus the products of the valid taps over the input channels;
border taps contribute nothing (41_tiled_kernels.md R207, R208; 20_memory.md R91). -/
def Obligations.ConvolutionResult : Prop :=
  ∀ (s : State) (o : ConvOps), Ready s → commandError s (.conv2d o) = none →
    ∃ t, exec (.conv2d o) s = .next t ∧
      OnlyTiled s t o.out o.cout.toNat [tensorRange o.out.toNat (o.cout.toNat * o.h.toNat * o.wd.toNat)] ∧
      (Apart (tensorRange o.out.toNat (o.cout.toNat * o.h.toNat * o.wd.toNat)) (convReads s o) →
        ∀ co y x, co < o.cout.toNat → y < o.h.toNat → x < o.wd.toNat →
          t.mem.elem o.out.toNat ((co * o.h.toNat + y) * o.wd.toNat + x) = convClosed s.mem o co y x)

/-- GATEFUSION, GATEFUSION.TANH and GATEFUSION.SIG: every output is the activation of one RQ of both biases and both
dot products (41_tiled_kernels.md R210; 20_memory.md R91). -/
def Obligations.GateFusionResult : Prop :=
  ∀ (s : State) (o : GateOps), Ready s → commandError s (.gateFusion o) = none →
    GateDoes .identity (exec (.gateFusion o)) s o ∧ GateDoes .tanh (exec (.gateFusionTanh o)) s o ∧
      GateDoes .sigmoid (exec (.gateFusionSig o)) s o

/-- A fused activation writes the same memory as GATEFUSION followed by ACT in place, for tanh and for sigmoid
(41_tiled_kernels.md R211). -/
def Obligations.FusedActivationEqualsSeparate : Prop :=
  ∀ (s : State) (o : GateOps), Ready s → commandError s (.gateFusion o) = none →
    Apart (tensorRange o.out.toNat o.nOut.toNat) (gateReads s o) →
    ∃ t, exec (.gateFusion o) s = .next t ∧
      (∃ f a, exec (.gateFusionTanh o) s = .next f ∧ exec (.actTanh o.out o.out o.nOut) t = .next a ∧
        ∀ p, a.mem.read p = f.mem.read p) ∧
      ∃ f a, exec (.gateFusionSig o) s = .next f ∧ exec (.actSig o.out o.out o.nOut) t = .next a ∧
        ∀ p, a.mem.read p = f.mem.read p

/-- The memory a tiled kernel leaves does not depend on TILE_CFG (41_tiled_kernels.md R204): LINEAR, LINEAR.NB,
CONV2D and the three forms of GATEFUSION. -/
def Obligations.OutputsDoNotDependOnTiling : Prop :=
  ∀ (s : State) (cfg : Word), Ready s → tileCfgLegal cfg = true →
    let same (i : Instr) : Prop :=
      ∃ t u, exec i s = .next t ∧ exec i { s with tileCfg := cfg } = .next u ∧ ∀ p, u.mem.read p = t.mem.read p
    (∀ o, commandError s (.linear o) = none →
        Apart (tensorRange o.out.toNat o.nOut.toNat) (linearReads s true o) → same (.linear o)) ∧
      (∀ o, commandError s (.linearNb o) = none →
        Apart (tensorRange o.out.toNat o.nOut.toNat) (linearReads s false o) → same (.linearNb o)) ∧
      (∀ o, commandError s (.conv2d o) = none →
        Apart (tensorRange o.out.toNat (o.cout.toNat * o.h.toNat * o.wd.toNat)) (convReads s o) → same (.conv2d o)) ∧
      ∀ o, commandError s (.gateFusion o) = none → Apart (tensorRange o.out.toNat o.nOut.toNat) (gateReads s o) →
        same (.gateFusion o) ∧ same (.gateFusionTanh o) ∧ same (.gateFusionSig o)

/-! ## Recurrent layers -/

/-- LSTM and LSTM.F complete on every sequence their checks accept: RESULT is H, LAST_PASSES is PASSES(N_HID), and
nothing outside H, C and G changes (44_recurrent.md R292). -/
def Obligations.LstmCompletesWithinItsState : Prop :=
  ∀ (s : State) (o : LstmOps), commandError s (.lstm o) = none →
    (∃ t, exec (.lstm o) s = .next t ∧ OnlyTiled s t o.h o.nHid.toNat (lstmWrites o)) ∧
      ∃ t, exec (.lstmF o) s = .next t ∧ OnlyTiled s t o.h o.nHid.toNat (lstmWrites o)

/-- One time step of LSTM: the four gates from h(t-1), the cell and hidden state from them, and what the gate slots
hold at the end (44_recurrent.md R291, R292). -/
def Obligations.LstmSingleStepResult : Prop :=
  ∀ (s : State) (o : LstmOps), Ready s → commandError s (.lstm o) = none → o.seq = 1 → LstmApart s o →
    ∃ t, exec (.lstm o) s = .next t ∧
      ∀ j, j < o.nHid.toNat →
        t.mem.elem o.c.toNat j = cellValue s o j ∧
          t.mem.elem o.g.toNat j = gateValue s o 0 j ∧
          t.mem.elem o.g.toNat (o.nHid.toNat + j) = gateValue s o 1 j ∧
          t.mem.elem o.g.toNat (2 * o.nHid.toNat + j) = actf s.lut .tanh (cellValue s o j) ∧
          t.mem.elem o.g.toNat (3 * o.nHid.toNat + j) = gateValue s o 3 j ∧
          t.mem.elem o.h.toNat j = had16 (gateValue s o 3 j) (actf s.lut .tanh (cellValue s o j))

/-- LSTM and RNN: a sequence of n + 1 steps is a sequence of n steps and then one more on the next input, with the
state kept in memory between them (44_recurrent.md R290, R292, R295). -/
def Obligations.SequencesUnroll : Prop :=
  (∀ (s : State) (o : LstmOps) (n : Nat), Ready s → commandError s (.lstm o) = none → LstmApart s o →
      o.seq.toNat = n + 1 → 1 ≤ n →
      ∃ t u v, exec (.lstm { o with seq := BitVec.ofNat 32 n }) s = .next t ∧
        exec (.lstm { o with x := BitVec.ofNat 32 (o.x.toNat + 2 * (n * o.nIn.toNat)), seq := 1 }) t = .next u ∧
        exec (.lstm o) s = .next v ∧ ∀ p, v.mem.read p = u.mem.read p) ∧
    ∀ (s : State) (o : RnnOps) (n : Nat), Ready s → commandError s (.rnn o) = none → RnnApart s o →
      o.seq.toNat = n + 1 → 1 ≤ n →
      ∃ t u v, exec (.rnn { o with seq := BitVec.ofNat 32 n }) s = .next t ∧
        exec (.rnn { o with x := BitVec.ofNat 32 (o.x.toNat + 2 * (n * o.nIn.toNat)), seq := 1 }) t = .next u ∧
        exec (.rnn o) s = .next v ∧ ∀ p, v.mem.read p = u.mem.read p

/-- LSTM and LSTM.F write the same memory (44_recurrent.md R293). -/
def Obligations.LstmFormsWriteTheSameMemory : Prop :=
  ∀ (s : State) (o : LstmOps), Ready s → commandError s (.lstm o) = none → LstmApart s o →
    ∃ t u, exec (.lstm o) s = .next t ∧ exec (.lstmF o) s = .next u ∧ ∀ p, u.mem.read p = t.mem.read p

/-- RNN completes on every sequence its checks accept: RESULT is H, LAST_PASSES is PASSES(N_HID), and nothing outside
H and T changes (44_recurrent.md R295). -/
def Obligations.RnnCompletesWithinItsState : Prop :=
  ∀ (s : State) (o : RnnOps), commandError s (.rnn o) = none →
    ∃ t, exec (.rnn o) s = .next t ∧ OnlyTiled s t o.h o.nHid.toNat (rnnWrites o)

/-- One time step of RNN: each term is requantized by itself, the sum wraps to 16 bits, then tanh; H and T1 hold it,
and T2 the hidden term (44_recurrent.md R295, R296). -/
def Obligations.RnnSingleStepResult : Prop :=
  ∀ (s : State) (o : RnnOps), Ready s → commandError s (.rnn o) = none → o.seq = 1 → RnnApart s o →
    ∃ t, exec (.rnn o) s = .next t ∧
      ∀ j, j < o.nHid.toNat →
        let xTerm := linearClosed s.mem (val s.mem o.bih.toNat j) o.x.toNat o.wih.toNat o.nIn.toNat j
        let hTerm := linearClosed s.mem (val s.mem o.bhh.toNat j) o.h.toNat o.whh.toNat o.nHid.toNat j
        t.mem.elem o.h.toNat j = actf s.lut .tanh (add16 xTerm hTerm) ∧
          t.mem.elem o.t.toNat j = actf s.lut .tanh (add16 xTerm hTerm) ∧
          t.mem.elem o.t.toNat (o.nHid.toNat + j) = hTerm

/-! ## Network driver -/

/-- A network of two LINEAR layers reads the input, writes half A, reads half A, writes half B and returns half B,
with LAYER_IDX its layer count; nothing outside the two halves changes (43_network_driver.md R274, R275). -/
def Obligations.TwoLinearLayersPingPong : Prop :=
  ∀ (s : State) (o : NetOps) (o0 o1 : LinearOps), Ready s → TwoLinears s o o0 o1 → HalvesApart s o o0 o1 →
    ∃ t, exec (.net o) s = .next t ∧
      t = succeeded
        { s with
          mem := t.mem, draws := t.draws, acc := t.acc, result := s.scratchB, layerIdx := 2
          lastPasses := BitVec.ofNat 32 (passes s.tileCfg o1.nOut.toNat) } ∧
      (∀ p, (halfA s o0).holds p = false → (halfB s o1).holds p = false → t.mem.read p = s.mem.read p) ∧
      (∀ c, c < o0.nOut.toNat →
        t.mem.elem s.scratchA.toNat c =
          linearClosed s.mem (val s.mem o0.b.toNat c) o.input.toNat o0.w.toNat o0.nIn.toNat c) ∧
      ∀ c, c < o1.nOut.toNat →
        t.mem.elem s.scratchB.toNat c =
          linearClosed t.mem (val t.mem o1.b.toNat c) s.scratchA.toNat o1.w.toNat o1.nIn.toNat c

/-- A NET that passes validation completes: RESULT is the current tensor of the last layer, LAYER_IDX its layer
count, LAST_PASSES the last layer's, and nothing outside the layers' write sets changes (43_network_driver.md R274,
60_exceptions.md R316). That a NET whose layers write over its own list runs on the records its validation read, and
so the RESULT, LAST_PASSES and write sets claimed of it, is the model's choice (notes/assumptions/11.md). -/
def Obligations.ValidatedNetCompletes : Prop :=
  ∀ (s : State) (o : NetOps) (steps : List LayerStep) (last : Cursor), netPlan s o = .ok (steps, last) →
    ∃ t, exec (.net o) s = .next t ∧
      t = succeeded
        { s with
          mem := t.mem, draws := t.draws, acc := t.acc, result := last.cur, layerIdx := o.count
          lastPasses := BitVec.ofNat 32 (lastStepPasses s.tileCfg steps) } ∧
      steps.length = o.count.toNat ∧
      ∀ p, (∀ r ∈ (netFootprint o steps).writes, r.holds p = false) → t.mem.read p = s.mem.read p

/-- Routing: a LINEAR or CONV2D layer reads the current tensor, writes the selected half and flips the selector; an
LSTM or RNN layer reads the current tensor, makes its H current and leaves the selector (43_network_driver.md R270,
R271). Performing: a NET that passes, and whose layers' outputs overlap nothing else, leaves the memory, RESULT and
LAST_PASSES that its layers' commands leave, run one after another with their buffers routed (R272, R274); so
LINEAR, LSTM, LINEAR use half A, the LSTM's H and half B, and RESULT is half B (R275). That layers which write the
same half do not overlap in the sense of R91 is the model's reading of R271 (notes/assumptions/10.md). -/
def Obligations.LayersRunAsTheirCommands : Prop :=
  (∀ (s : State) (p : Nat) (c c' : Cursor) (st : LayerStep), planLayer s p c = .ok (st, c') →
    match st with
    | .linear a h => h = c.half ∧ a.inp = c.cur.toNat ∧ a.nIn = c.len ∧ a.out = (s.halfBase c.half).toNat ∧
        c' = { len := a.nOut, cur := s.halfBase c.half, half := !c.half } ∧ a.nOut ≤ s.scratchCap.toNat
    | .conv a h => h = c.half ∧ a.inp = c.cur.toNat ∧ a.h * a.wd * a.cin = c.len ∧
        a.out = (s.halfBase c.half).toNat ∧
        c' = { len := a.cout * a.h * a.wd, cur := s.halfBase c.half, half := !c.half } ∧
        a.cout * a.h * a.wd ≤ s.scratchCap.toNat
    | .lstm _ a => a.x = c.cur.toNat ∧ a.seq * a.nIn = c.len ∧ c'.len = a.nHid ∧ c'.cur.toNat = a.h ∧
        c'.half = c.half
    | .rnn a => a.x = c.cur.toNat ∧ a.seq * a.nIn = c.len ∧ c'.len = a.nHid ∧ c'.cur.toNat = a.h ∧
        c'.half = c.half) ∧
  ∀ (s : State) (o : NetOps), NetPasses s o → NetApart s o →
    ∃ t u, exec (.net o) s = .next t ∧ Leaves ((List.range o.count.toNat).map (netCommand s o)) s u ∧
      (∀ p, t.mem.read p = u.mem.read p) ∧ t.result = u.result ∧ t.lastPasses = u.lastPasses ∧ t.layerIdx = o.count ∧
      ∀ (o0 o2 : LinearOps) (o1 : LstmOps), o.count = 3 →
        decode (s.mem.bytes o.list.toNat 64) = .ok (.linear o0) →
        decode (s.mem.bytes (o.list.toNat + 64) 64) = .ok (.lstm o1) →
        decode (s.mem.bytes (o.list.toNat + 128) 64) = .ok (.linear o2) →
        Leaves
            [.linear { o0 with inp := o.input, out := s.scratchA }, .lstm { o1 with x := s.scratchA },
              .linear { o2 with inp := o1.h, out := s.scratchB }] s u ∧
          t.result = s.scratchB

/-- A failing NET: the first error of its own operands is reported at CMD_ADDR with LAYER_IDX 0; where they pass, the
first record that fails, whatever its error, is reported before any layer has executed, with FAULT_ADDR that record's
address and LAYER_IDX its index; where every record passes, the NET completes (43_network_driver.md R273;
60_exceptions.md R311). -/
def Obligations.NetReportsItsFirstError : Prop :=
  ∀ (s : State) (o : NetOps),
    (∀ e, netOwnError s o = some e → exec (.net o) s = .next (erred s e s.cmdAddr 0)) ∧
      (∀ i e, netOwnError s o = none → i < o.count.toNat → (∀ j, j < i → netRecordError s o j = none) →
        netRecordError s o i = some e →
        exec (.net o) s = .next (erred s e (BitVec.ofNat 32 (o.list.toNat + 64 * i)) (BitVec.ofNat 32 i))) ∧
      (NetPasses s o → ∃ t, exec (.net o) s = .next t ∧ t.done = true ∧ t.err = false)

/-! ## Registers, START, status and the interrupt -/

/-- Host writes act only while BUSY = 0; while BUSY = 1 they are lost; a write of CTRL with bit 0 set starts the
command at CMD_ADDR (10_state.md R47). The agenda holds the host's moves (notes/assumptions/5.md). -/
def Obligations.StartTakesEffectOnlyWhenIdle : Prop :=
  ∀ (s : State) (off : BitVec 10) (v : Word) (rest : List Event), s.inReset = false →
    (off.toNat % 4 = 0 → s.agenda = .regWrite off .word v :: rest →
        (s.busy = true → step s = .next { s with agenda := rest }) ∧
        (s.busy = false → step s = .next (State.writeReg { s with agenda := rest } off.toNat v))) ∧
      (s.busy = false → s.agenda = .regWrite 4 .word v :: rest →
        (v.getLsbD 0 = true →
          step s = .next
            { s with
              agenda := rest, irqEn := v.getLsbD 1, done := false, err := false, errCode := .none, layerIdx := 0
              busy := true }) ∧
        (v.getLsbD 0 = false → step s = .next { s with agenda := rest, irqEn := v.getLsbD 1 }))

/-- The registers that hold what is written to them read back what was last written, a write to one of them changes
no other named register's value, and the state it leaves differs in that register alone (10_state.md R34, R41 to R43,
R45). -/
def Obligations.PlainRegistersHoldTheirValue : Prop :=
  ∀ (s : State) (v : Word),
    (∀ off off' : Nat, plainOffset off → namedOffset off' →
      (s.writeReg off v).regValue off' = if off' = off then v else s.regValue off') ∧
    s.writeReg 0x00C v = { s with cmdAddr := v } ∧ s.writeReg 0x028 v = { s with scratchA := v } ∧
    s.writeReg 0x02C v = { s with scratchB := v } ∧ s.writeReg 0x030 v = { s with scratchCap := v } ∧
    (∀ (k : Nat) (hk : k < 16),
      s.writeReg (0x100 + 4 * k) v = { s with lut := { s.lut with tanhM := s.lut.tanhM.set k v } } ∧
        s.writeReg (0x140 + 4 * k) v = { s with lut := { s.lut with tanhQ := s.lut.tanhQ.set k v } } ∧
        s.writeReg (0x180 + 4 * k) v = { s with lut := { s.lut with sigM := s.lut.sigM.set k v } } ∧
        s.writeReg (0x1C0 + 4 * k) v = { s with lut := { s.lut with sigQ := s.lut.sigQ.set k v } }) ∧
    ∀ (d : Nat) (hd : d < 15), s.writeReg (0x200 + 4 * d) v = { s with acc := s.acc.set d v }

/-- ID reads as its constant, unnamed offsets read 0, and a write to ID, to an unnamed offset, or to one of the
read-only registers RESULT, FAULT_ADDR, LAYER_IDX, LAST_PASSES and SRES does nothing (10_state.md R31, R46, and the
map of R30). -/
def Obligations.IdAndReservedOffsets : Prop :=
  ∀ (s : State) (v : Word),
    s.regValue 0 = 0x03120007 ∧ s.writeReg 0 v = s ∧
      (∀ off ∈ [0x010, 0x014, 0x018, 0x01C, 0x020], s.writeReg off v = s) ∧
      ∀ off, off % 4 = 0 → off < 1024 → ¬namedOffset off → s.regValue off = 0 ∧ s.writeReg off v = s

/-- A host read goes on and changes only what the host has read. With BUSY = 0 it answers the register at its
offset, by the map of 10_state.md R30; while BUSY = 1 too, but for RESULT, FAULT_ADDR, LAYER_IDX, LAST_PASSES, SRES and
ACC, of whose value nothing is said (R48). Where the answer is held is the model's choice (notes/assumptions/6.md). -/
def Obligations.HostRegisterReads : Prop :=
  (∀ (s : State) (off : BitVec 10) (rest : List Event), s.inReset = false → off.toNat % 4 = 0 →
      s.agenda = .regRead off .word :: rest →
      (s.busy = false → step s = .next { s with agenda := rest, hostData := s.regValue off.toNat }) ∧
        (s.busy = true →
          ∃ t, step s = .next t ∧ t = { s with agenda := rest, hostData := t.hostData, draws := t.draws } ∧
            (off.toNat ∉ [0x010, 0x014, 0x018, 0x01C, 0x020] → ¬(0x200 ≤ off.toNat ∧ off.toNat < 0x23C) →
              t.hostData = s.regValue off.toNat))) ∧
    ∀ s : State,
      (s.regValue 0x004 = if s.irqEn then 2 else 0) ∧ s.regValue 0x008 = s.statusWord ∧ s.regValue 0x00C = s.cmdAddr ∧
        s.regValue 0x010 = s.result ∧ s.regValue 0x014 = s.faultAddr ∧ s.regValue 0x018 = s.layerIdx ∧
        s.regValue 0x01C = s.lastPasses ∧ s.regValue 0x020 = s.sres ∧ s.regValue 0x024 = s.tileCfg ∧
        s.regValue 0x028 = s.scratchA ∧ s.regValue 0x02C = s.scratchB ∧ s.regValue 0x030 = s.scratchCap ∧
        (∀ (k : Nat) (hk : k < 16),
          s.regValue (0x100 + 4 * k) = s.lut.tanhM[k] ∧ s.regValue (0x140 + 4 * k) = s.lut.tanhQ[k] ∧
            s.regValue (0x180 + 4 * k) = s.lut.sigM[k] ∧ s.regValue (0x1C0 + 4 * k) = s.lut.sigQ[k]) ∧
        ∀ (d : Nat) (hd : d < 15), s.regValue (0x200 + 4 * d) = s.acc[d]

/-- STATUS: its fields stand where the map says, the error codes have their numbers, and a write clears DONE by bit 1,
ERR and ERRCODE by bit 2, and nothing else (10_state.md R33, 60_exceptions.md R310). -/
def Obligations.StatusFieldsAndClearing : Prop :=
  ErrCode.code .none = 0 ∧ ErrCode.code .illegalCommand = 1 ∧ ErrCode.code .unsupportedLayer = 2 ∧
    ErrCode.code .shapeMismatch = 3 ∧ ErrCode.code .misaligned = 4 ∧ ErrCode.code .busError = 5 ∧
  ∀ (s : State) (v : Word),
    s.statusWord.getLsbD 0 = s.busy ∧ s.statusWord.getLsbD 1 = s.done ∧ s.statusWord.getLsbD 2 = s.err ∧
      s.statusWord.extractLsb' 8 4 = s.errCode.code ∧ s.statusWord.extractLsb' 3 5 = 0 ∧
      s.statusWord.extractLsb' 12 20 = 0 ∧
      s.writeReg 8 v =
        { s with
          done := if v.getLsbD 1 then false else s.done
          err := if v.getLsbD 2 then false else s.err
          errCode := if v.getLsbD 2 then .none else s.errCode }

/-- The interrupt line: it rises at the completion of every command run with IRQ_EN = 1, success or error, stays low
with IRQ_EN = 0, and falls when the host clears DONE and ERR (60_exceptions.md R325). -/
def Obligations.InterruptFollowsCompletion : Prop :=
  (∀ (i : Instr) (s : State), ∃ t, exec i s = .next t ∧ t.irq = s.irqEn) ∧
    ∀ s : State, s.irq = (s.irqEn && (s.done || s.err)) ∧ (s.writeReg 8 6).irq = false ∧ (s.writeReg 4 0).irq = false

/-- A host access to the window that is not an aligned 32-bit one, or that is made while reset is asserted, has no
meaning (10_state.md R49, 70_reset_and_hazards.md R340). That the model refuses them is notes/assumptions/14.md. -/
def Obligations.UndefinedRegisterAccessesAreRefused : Prop :=
  ∀ (s : State) (off : BitVec 10) (width : AccessWidth) (v : Word) (rest : List Event),
    s.agenda = .regRead off width :: rest ∨ s.agenda = .regWrite off width v :: rest →
    (s.inReset = true → step s = .refused (.registerAccessInReset off)) ∧
      (s.inReset = false → (width ≠ .word ∨ off.toNat % 4 ≠ 0) → step s = .refused (.badRegisterAccess off))

/-! ## Memory -/

/-- A read after a write gives the byte written and every other byte as before; an element is stored and loaded
low byte first, and a descriptor word is loaded low byte first (20_memory.md R81 to R83, R88). The host reads and
writes single bytes of the shared memory and nothing else; of a byte of the write set in flight its read tells nothing,
and a write into the footprint in flight is no move of the host (R97, R98). That host moves are single bytes, and that
the last two kinds of write and every access outside the shared memory fault, is the model's choice
(notes/assumptions/13.md and 14.md); so is the footprint of a command that will fail (notes/assumptions/12.md). -/
def Obligations.MemoryIsPlainAndLittleEndian : Prop :=
  (∀ (m : Memory) (p : Nat), m.wf →
    (∀ b : Byte, p < 2 ^ 32 → ∀ q, (m.write p b).read q = if q = p then b else m.read q) ∧
      ∀ v : FixedScalar, p + 1 < 2 ^ 32 →
        (m.st16 p v).ld16 p = v ∧ (m.st16 p v).read p = v.extractLsb' 0 8 ∧
          (m.st16 p v).read (p + 1) = v.extractLsb' 8 8) ∧
  (∀ (m : Memory) (p k : Nat), k < 4 → (m.ldw p).extractLsb' (8 * k) 8 = m.read (p + k)) ∧
  ∀ (s : State) (addr : Word) (b : Byte) (rest : List Event),
    let inside (rs : List Range) : Prop := ∃ r ∈ rs, r.holds addr.toNat = true
    (s.platform.memOk addr.toNat 1 = true →
      (s.agenda = .memRead addr :: rest →
        (¬inside s.inFlight.writes →
          step s = .next { s with agenda := rest, hostData := (s.mem.read addr.toNat).setWidth 32 }) ∧
        (inside s.inFlight.writes →
          ∃ t, step s = .next t ∧ t = { s with agenda := rest, hostData := t.hostData, draws := t.draws })) ∧
      (s.agenda = .memWrite addr b :: rest →
        (¬inside (s.inFlight.reads ++ s.inFlight.writes) →
          step s = .next { s with agenda := rest, mem := s.mem.write addr.toNat b }) ∧
        (inside (s.inFlight.reads ++ s.inFlight.writes) → step s = .fault (.footprintRace addr)))) ∧
    (s.platform.memOk addr.toNat 1 = false →
      s.agenda = .memRead addr :: rest ∨ s.agenda = .memWrite addr b :: rest →
      step s = .fault (.notSharedMemory addr))

/-- A range MEM_OK accepts lies below 2^32 and off the register window (20_memory.md R84). That it lies off the
platform's holes, and that every byte and every part of it is itself accepted, is the model's choice: its MEM_OK is
decided byte by byte from the holes (notes/assumptions/4.md). -/
def Obligations.AcceptedRangesAreInMemory : Prop :=
  ∀ (pl : Platform) (a n : Nat), pl.memOk a n = true →
    a + n ≤ 2 ^ 32 ∧
      (∀ p, a ≤ p → p < a + n →
        pl.window.holds p = false ∧ (∀ h ∈ pl.holes, h.holds p = false) ∧ pl.memOk p 1 = true) ∧
      ∀ b k, a ≤ b → b + k ≤ a + n → pl.memOk b k = true

/-- From START to its turn the engine changes nothing, and no step of the host writes a byte of the footprint of the
command in flight, nor CMD_ADDR: so the command runs on what START found (20_memory.md R95, R98; 10_state.md R53;
70_reset_and_hazards.md R346). The footprint of a command that will fail is the model's reading of R90
(notes/assumptions/12.md). -/
def Obligations.FootprintIsStableInFlight : Prop :=
  ∀ (s t : State) (e : Event) (rest : List Event), s.busy = true → s.agenda = e :: rest → e ≠ .engine →
    e ≠ .assertReset → step s = .next t →
    t.busy = true ∧ t.cmdAddr = s.cmdAddr ∧ t.tileCfg = s.tileCfg ∧ t.lut = s.lut ∧ t.acc = s.acc ∧
      t.scratchA = s.scratchA ∧ t.scratchB = s.scratchB ∧ t.scratchCap = s.scratchCap ∧
      ∀ r ∈ s.inFlight.reads ++ s.inFlight.writes, ∀ p, r.holds p = true → t.mem.read p = s.mem.read p

/-! ## Reset and invariants -/

/-- The state after reset holds the values the spec gives for reset, with nothing in flight and the interrupt low
(10_state.md R54). -/
def Obligations.ResetValues : Prop :=
  State.reset.ctrlWord = 0 ∧ State.reset.statusWord = 0 ∧ State.reset.cmdAddr = 0 ∧ State.reset.result = 0 ∧
    State.reset.faultAddr = 0 ∧ State.reset.layerIdx = 0 ∧ State.reset.lastPasses = 0 ∧ State.reset.sres = 0 ∧
    State.reset.tileCfg = 0x00008116 ∧ State.reset.scratchA = 0 ∧ State.reset.scratchB = 0 ∧
    State.reset.scratchCap = 0 ∧ State.reset.irq = false ∧ State.reset.regValue 0 = 0x03120007

/-- Asserting reset in any state gives every register its reset value, abandons the command in flight without DONE or
ERR, and changes memory inside that command's write set alone; releasing it leaves reset and changes nothing else
(70_reset_and_hazards.md R340, R342; 10_state.md R54). That the registers change when reset is asserted, not when it is
released, is the model's choice (notes/assumptions/15.md); so is what the write set of a command that will fail is
(notes/assumptions/12.md). -/
def Obligations.ResetAbandonsTheCommand : Prop :=
  ∀ (s : State) (rest : List Event),
    (s.agenda = .assertReset :: rest →
      ∃ t, step s = .next t ∧
        t = { State.reset with
              lut := t.lut, acc := t.acc, mem := t.mem, inReset := true, platform := s.platform, agenda := rest
              hostData := s.hostData, draws := t.draws } ∧
        (∀ p, (∀ r ∈ s.inFlight.writes, r.holds p = false) → t.mem.read p = s.mem.read p) ∧
        (s.busy = false → t.mem = s.mem)) ∧
    (s.agenda = .releaseReset :: rest → step s = .next { s with agenda := rest, inReset := false })

/-- The machine's invariant holds in the state after reset. -/
def Obligations.ResetIsSound : Prop := State.reset.Sound

/-- Every step keeps the machine's invariant: DONE and ERR never both 1, ERRCODE nonzero exactly with ERR, STATUS and
LAYER_IDX as START left them while BUSY, TILE_CFG legal, memory in canonical form, nothing in flight under reset
(10_state.md R33, R37, R40; 70_reset_and_hazards.md R340). -/
def Obligations.EveryStepKeepsTheInvariant : Prop :=
  ∀ s t : State, s.Sound → step s = .next t → t.Sound

/-- Only a host write to the LUT's offsets, or reset, changes the LUT; the engine never does (10_state.md R44,
70_reset_and_hazards.md R341). Reset acts when it is asserted (notes/assumptions/15.md). -/
def Obligations.OnlyHostWritesChangeTheLut : Prop :=
  ∀ s t : State, step s = .next t → t.lut ≠ s.lut →
    ∃ rest, (∃ off v, s.agenda = .regWrite off .word v :: rest ∧ 0x100 ≤ off.toNat ∧ off.toNat < 0x200) ∨
      s.agenda = .assertReset :: rest

/-- From every state whose next move keeps the host's duties the machine goes on: no command stops it
(60_exceptions.md R321, R323). Where a host move stops is the model's reading (notes/assumptions/12.md to 14.md). -/
def Obligations.DutifulStepsNeverStop : Prop :=
  ∀ s : State, s.goesOn = true → ∃ t, step s = .next t
end

