-- ==== Sys2Proof/Laws/State.lean ====
section
/-! SUPPORT. What each update of the state does to each field: one lemma per field per update. -/

namespace Sys2Proof.Machine

variable (s : State)


/-! ### raiseError -/

@[simp] theorem State.raiseError_irqEn (e : ErrCode) (p k : Word) : (s.raiseError e p k).irqEn = s.irqEn := rfl
@[simp] theorem State.raiseError_busy (e : ErrCode) (p k : Word) : (s.raiseError e p k).busy = false := rfl
@[simp] theorem State.raiseError_done (e : ErrCode) (p k : Word) : (s.raiseError e p k).done = false := rfl
@[simp] theorem State.raiseError_err (e : ErrCode) (p k : Word) : (s.raiseError e p k).err = true := rfl
@[simp] theorem State.raiseError_errCode (e : ErrCode) (p k : Word) : (s.raiseError e p k).errCode = e := rfl
@[simp] theorem State.raiseError_cmdAddr (e : ErrCode) (p k : Word) : (s.raiseError e p k).cmdAddr = s.cmdAddr := rfl
@[simp] theorem State.raiseError_result (e : ErrCode) (p k : Word) : (s.raiseError e p k).result = s.result := rfl
@[simp] theorem State.raiseError_faultAddr (e : ErrCode) (p k : Word) : (s.raiseError e p k).faultAddr = p := rfl
@[simp] theorem State.raiseError_layerIdx (e : ErrCode) (p k : Word) : (s.raiseError e p k).layerIdx = k := rfl
@[simp] theorem State.raiseError_lastPasses (e : ErrCode) (p k : Word) : (s.raiseError e p k).lastPasses = s.lastPasses := rfl
@[simp] theorem State.raiseError_sres (e : ErrCode) (p k : Word) : (s.raiseError e p k).sres = s.sres := rfl
@[simp] theorem State.raiseError_tileCfg (e : ErrCode) (p k : Word) : (s.raiseError e p k).tileCfg = s.tileCfg := rfl
@[simp] theorem State.raiseError_scratchA (e : ErrCode) (p k : Word) : (s.raiseError e p k).scratchA = s.scratchA := rfl
@[simp] theorem State.raiseError_scratchB (e : ErrCode) (p k : Word) : (s.raiseError e p k).scratchB = s.scratchB := rfl
@[simp] theorem State.raiseError_scratchCap (e : ErrCode) (p k : Word) : (s.raiseError e p k).scratchCap = s.scratchCap := rfl
@[simp] theorem State.raiseError_lut (e : ErrCode) (p k : Word) : (s.raiseError e p k).lut = s.lut := rfl
@[simp] theorem State.raiseError_acc (e : ErrCode) (p k : Word) : (s.raiseError e p k).acc = s.acc := rfl
@[simp] theorem State.raiseError_mem (e : ErrCode) (p k : Word) : (s.raiseError e p k).mem = s.mem := rfl
@[simp] theorem State.raiseError_inReset (e : ErrCode) (p k : Word) : (s.raiseError e p k).inReset = s.inReset := rfl
@[simp] theorem State.raiseError_platform (e : ErrCode) (p k : Word) : (s.raiseError e p k).platform = s.platform := rfl
@[simp] theorem State.raiseError_agenda (e : ErrCode) (p k : Word) : (s.raiseError e p k).agenda = s.agenda := rfl
@[simp] theorem State.raiseError_hostData (e : ErrCode) (p k : Word) : (s.raiseError e p k).hostData = s.hostData := rfl
@[simp] theorem State.raiseError_draws (e : ErrCode) (p k : Word) : (s.raiseError e p k).draws = s.draws := rfl

/-! ### complete -/

@[simp] theorem State.complete_irqEn : s.complete.irqEn = s.irqEn := rfl
@[simp] theorem State.complete_busy : s.complete.busy = false := rfl
@[simp] theorem State.complete_done : s.complete.done = true := rfl
@[simp] theorem State.complete_err : s.complete.err = false := rfl
@[simp] theorem State.complete_errCode : s.complete.errCode = .none := rfl
@[simp] theorem State.complete_cmdAddr : s.complete.cmdAddr = s.cmdAddr := rfl
@[simp] theorem State.complete_result : s.complete.result = s.result := rfl
@[simp] theorem State.complete_faultAddr : s.complete.faultAddr = 0 := rfl
@[simp] theorem State.complete_layerIdx : s.complete.layerIdx = s.layerIdx := rfl
@[simp] theorem State.complete_lastPasses : s.complete.lastPasses = s.lastPasses := rfl
@[simp] theorem State.complete_sres : s.complete.sres = s.sres := rfl
@[simp] theorem State.complete_tileCfg : s.complete.tileCfg = s.tileCfg := rfl
@[simp] theorem State.complete_scratchA : s.complete.scratchA = s.scratchA := rfl
@[simp] theorem State.complete_scratchB : s.complete.scratchB = s.scratchB := rfl
@[simp] theorem State.complete_scratchCap : s.complete.scratchCap = s.scratchCap := rfl
@[simp] theorem State.complete_lut : s.complete.lut = s.lut := rfl
@[simp] theorem State.complete_acc : s.complete.acc = s.acc := rfl
@[simp] theorem State.complete_mem : s.complete.mem = s.mem := rfl
@[simp] theorem State.complete_inReset : s.complete.inReset = s.inReset := rfl
@[simp] theorem State.complete_platform : s.complete.platform = s.platform := rfl
@[simp] theorem State.complete_agenda : s.complete.agenda = s.agenda := rfl
@[simp] theorem State.complete_hostData : s.complete.hostData = s.hostData := rfl
@[simp] theorem State.complete_draws : s.complete.draws = s.draws := rfl

/-! ### acknowledge -/

@[simp] theorem State.acknowledge_irqEn (v : Word) : (s.acknowledge v).irqEn = s.irqEn := rfl
@[simp] theorem State.acknowledge_busy (v : Word) : (s.acknowledge v).busy = s.busy := rfl
@[simp] theorem State.acknowledge_done (v : Word) : (s.acknowledge v).done = (s.done && !v.getLsbD 1) := rfl
@[simp] theorem State.acknowledge_err (v : Word) : (s.acknowledge v).err = (s.err && !v.getLsbD 2) := rfl
@[simp] theorem State.acknowledge_errCode (v : Word) : (s.acknowledge v).errCode = (if v.getLsbD 2 then .none else s.errCode) := rfl
@[simp] theorem State.acknowledge_cmdAddr (v : Word) : (s.acknowledge v).cmdAddr = s.cmdAddr := rfl
@[simp] theorem State.acknowledge_result (v : Word) : (s.acknowledge v).result = s.result := rfl
@[simp] theorem State.acknowledge_faultAddr (v : Word) : (s.acknowledge v).faultAddr = s.faultAddr := rfl
@[simp] theorem State.acknowledge_layerIdx (v : Word) : (s.acknowledge v).layerIdx = s.layerIdx := rfl
@[simp] theorem State.acknowledge_lastPasses (v : Word) : (s.acknowledge v).lastPasses = s.lastPasses := rfl
@[simp] theorem State.acknowledge_sres (v : Word) : (s.acknowledge v).sres = s.sres := rfl
@[simp] theorem State.acknowledge_tileCfg (v : Word) : (s.acknowledge v).tileCfg = s.tileCfg := rfl
@[simp] theorem State.acknowledge_scratchA (v : Word) : (s.acknowledge v).scratchA = s.scratchA := rfl
@[simp] theorem State.acknowledge_scratchB (v : Word) : (s.acknowledge v).scratchB = s.scratchB := rfl
@[simp] theorem State.acknowledge_scratchCap (v : Word) : (s.acknowledge v).scratchCap = s.scratchCap := rfl
@[simp] theorem State.acknowledge_lut (v : Word) : (s.acknowledge v).lut = s.lut := rfl
@[simp] theorem State.acknowledge_acc (v : Word) : (s.acknowledge v).acc = s.acc := rfl
@[simp] theorem State.acknowledge_mem (v : Word) : (s.acknowledge v).mem = s.mem := rfl
@[simp] theorem State.acknowledge_inReset (v : Word) : (s.acknowledge v).inReset = s.inReset := rfl
@[simp] theorem State.acknowledge_platform (v : Word) : (s.acknowledge v).platform = s.platform := rfl
@[simp] theorem State.acknowledge_agenda (v : Word) : (s.acknowledge v).agenda = s.agenda := rfl
@[simp] theorem State.acknowledge_hostData (v : Word) : (s.acknowledge v).hostData = s.hostData := rfl
@[simp] theorem State.acknowledge_draws (v : Word) : (s.acknowledge v).draws = s.draws := rfl

/-! ### start -/

@[simp] theorem State.start_irqEn : s.start.irqEn = s.irqEn := rfl
@[simp] theorem State.start_busy : s.start.busy = true := rfl
@[simp] theorem State.start_done : s.start.done = false := rfl
@[simp] theorem State.start_err : s.start.err = false := rfl
@[simp] theorem State.start_errCode : s.start.errCode = .none := rfl
@[simp] theorem State.start_cmdAddr : s.start.cmdAddr = s.cmdAddr := rfl
@[simp] theorem State.start_result : s.start.result = s.result := rfl
@[simp] theorem State.start_faultAddr : s.start.faultAddr = s.faultAddr := rfl
@[simp] theorem State.start_layerIdx : s.start.layerIdx = 0 := rfl
@[simp] theorem State.start_lastPasses : s.start.lastPasses = s.lastPasses := rfl
@[simp] theorem State.start_sres : s.start.sres = s.sres := rfl
@[simp] theorem State.start_tileCfg : s.start.tileCfg = s.tileCfg := rfl
@[simp] theorem State.start_scratchA : s.start.scratchA = s.scratchA := rfl
@[simp] theorem State.start_scratchB : s.start.scratchB = s.scratchB := rfl
@[simp] theorem State.start_scratchCap : s.start.scratchCap = s.scratchCap := rfl
@[simp] theorem State.start_lut : s.start.lut = s.lut := rfl
@[simp] theorem State.start_acc : s.start.acc = s.acc := rfl
@[simp] theorem State.start_mem : s.start.mem = s.mem := rfl
@[simp] theorem State.start_inReset : s.start.inReset = s.inReset := rfl
@[simp] theorem State.start_platform : s.start.platform = s.platform := rfl
@[simp] theorem State.start_agenda : s.start.agenda = s.agenda := rfl
@[simp] theorem State.start_hostData : s.start.hostData = s.hostData := rfl
@[simp] theorem State.start_draws : s.start.draws = s.draws := rfl

/-! ### setAcc -/

@[simp] theorem State.setAcc_irqEn (d : Nat) (v : Acc) : (s.setAcc d v).irqEn = s.irqEn := rfl
@[simp] theorem State.setAcc_busy (d : Nat) (v : Acc) : (s.setAcc d v).busy = s.busy := rfl
@[simp] theorem State.setAcc_done (d : Nat) (v : Acc) : (s.setAcc d v).done = s.done := rfl
@[simp] theorem State.setAcc_err (d : Nat) (v : Acc) : (s.setAcc d v).err = s.err := rfl
@[simp] theorem State.setAcc_errCode (d : Nat) (v : Acc) : (s.setAcc d v).errCode = s.errCode := rfl
@[simp] theorem State.setAcc_cmdAddr (d : Nat) (v : Acc) : (s.setAcc d v).cmdAddr = s.cmdAddr := rfl
@[simp] theorem State.setAcc_result (d : Nat) (v : Acc) : (s.setAcc d v).result = s.result := rfl
@[simp] theorem State.setAcc_faultAddr (d : Nat) (v : Acc) : (s.setAcc d v).faultAddr = s.faultAddr := rfl
@[simp] theorem State.setAcc_layerIdx (d : Nat) (v : Acc) : (s.setAcc d v).layerIdx = s.layerIdx := rfl
@[simp] theorem State.setAcc_lastPasses (d : Nat) (v : Acc) : (s.setAcc d v).lastPasses = s.lastPasses := rfl
@[simp] theorem State.setAcc_sres (d : Nat) (v : Acc) : (s.setAcc d v).sres = s.sres := rfl
@[simp] theorem State.setAcc_tileCfg (d : Nat) (v : Acc) : (s.setAcc d v).tileCfg = s.tileCfg := rfl
@[simp] theorem State.setAcc_scratchA (d : Nat) (v : Acc) : (s.setAcc d v).scratchA = s.scratchA := rfl
@[simp] theorem State.setAcc_scratchB (d : Nat) (v : Acc) : (s.setAcc d v).scratchB = s.scratchB := rfl
@[simp] theorem State.setAcc_scratchCap (d : Nat) (v : Acc) : (s.setAcc d v).scratchCap = s.scratchCap := rfl
@[simp] theorem State.setAcc_lut (d : Nat) (v : Acc) : (s.setAcc d v).lut = s.lut := rfl
@[simp] theorem State.setAcc_acc (d : Nat) (v : Acc) : (s.setAcc d v).acc = s.acc.setIfInBounds d v := rfl
@[simp] theorem State.setAcc_mem (d : Nat) (v : Acc) : (s.setAcc d v).mem = s.mem := rfl
@[simp] theorem State.setAcc_inReset (d : Nat) (v : Acc) : (s.setAcc d v).inReset = s.inReset := rfl
@[simp] theorem State.setAcc_platform (d : Nat) (v : Acc) : (s.setAcc d v).platform = s.platform := rfl
@[simp] theorem State.setAcc_agenda (d : Nat) (v : Acc) : (s.setAcc d v).agenda = s.agenda := rfl
@[simp] theorem State.setAcc_hostData (d : Nat) (v : Acc) : (s.setAcc d v).hostData = s.hostData := rfl
@[simp] theorem State.setAcc_draws (d : Nat) (v : Acc) : (s.setAcc d v).draws = s.draws := rfl

/-! ### setSres -/

@[simp] theorem State.setSres_irqEn (y : FixedScalar) : (s.setSres y).irqEn = s.irqEn := rfl
@[simp] theorem State.setSres_busy (y : FixedScalar) : (s.setSres y).busy = s.busy := rfl
@[simp] theorem State.setSres_done (y : FixedScalar) : (s.setSres y).done = s.done := rfl
@[simp] theorem State.setSres_err (y : FixedScalar) : (s.setSres y).err = s.err := rfl
@[simp] theorem State.setSres_errCode (y : FixedScalar) : (s.setSres y).errCode = s.errCode := rfl
@[simp] theorem State.setSres_cmdAddr (y : FixedScalar) : (s.setSres y).cmdAddr = s.cmdAddr := rfl
@[simp] theorem State.setSres_result (y : FixedScalar) : (s.setSres y).result = s.result := rfl
@[simp] theorem State.setSres_faultAddr (y : FixedScalar) : (s.setSres y).faultAddr = s.faultAddr := rfl
@[simp] theorem State.setSres_layerIdx (y : FixedScalar) : (s.setSres y).layerIdx = s.layerIdx := rfl
@[simp] theorem State.setSres_lastPasses (y : FixedScalar) : (s.setSres y).lastPasses = s.lastPasses := rfl
@[simp] theorem State.setSres_sres (y : FixedScalar) : (s.setSres y).sres = y.signExtend 32 := rfl
@[simp] theorem State.setSres_tileCfg (y : FixedScalar) : (s.setSres y).tileCfg = s.tileCfg := rfl
@[simp] theorem State.setSres_scratchA (y : FixedScalar) : (s.setSres y).scratchA = s.scratchA := rfl
@[simp] theorem State.setSres_scratchB (y : FixedScalar) : (s.setSres y).scratchB = s.scratchB := rfl
@[simp] theorem State.setSres_scratchCap (y : FixedScalar) : (s.setSres y).scratchCap = s.scratchCap := rfl
@[simp] theorem State.setSres_lut (y : FixedScalar) : (s.setSres y).lut = s.lut := rfl
@[simp] theorem State.setSres_acc (y : FixedScalar) : (s.setSres y).acc = s.acc := rfl
@[simp] theorem State.setSres_mem (y : FixedScalar) : (s.setSres y).mem = s.mem := rfl
@[simp] theorem State.setSres_inReset (y : FixedScalar) : (s.setSres y).inReset = s.inReset := rfl
@[simp] theorem State.setSres_platform (y : FixedScalar) : (s.setSres y).platform = s.platform := rfl
@[simp] theorem State.setSres_agenda (y : FixedScalar) : (s.setSres y).agenda = s.agenda := rfl
@[simp] theorem State.setSres_hostData (y : FixedScalar) : (s.setSres y).hostData = s.hostData := rfl
@[simp] theorem State.setSres_draws (y : FixedScalar) : (s.setSres y).draws = s.draws := rfl

/-! ### finishTensor -/

@[simp] theorem State.finishTensor_irqEn (x : Run) (dst : Word) : (s.finishTensor x dst).irqEn = s.irqEn := rfl
@[simp] theorem State.finishTensor_busy (x : Run) (dst : Word) : (s.finishTensor x dst).busy = s.busy := rfl
@[simp] theorem State.finishTensor_done (x : Run) (dst : Word) : (s.finishTensor x dst).done = s.done := rfl
@[simp] theorem State.finishTensor_err (x : Run) (dst : Word) : (s.finishTensor x dst).err = s.err := rfl
@[simp] theorem State.finishTensor_errCode (x : Run) (dst : Word) : (s.finishTensor x dst).errCode = s.errCode := rfl
@[simp] theorem State.finishTensor_cmdAddr (x : Run) (dst : Word) : (s.finishTensor x dst).cmdAddr = s.cmdAddr := rfl
@[simp] theorem State.finishTensor_result (x : Run) (dst : Word) : (s.finishTensor x dst).result = dst := rfl
@[simp] theorem State.finishTensor_faultAddr (x : Run) (dst : Word) : (s.finishTensor x dst).faultAddr = s.faultAddr := rfl
@[simp] theorem State.finishTensor_layerIdx (x : Run) (dst : Word) : (s.finishTensor x dst).layerIdx = s.layerIdx := rfl
@[simp] theorem State.finishTensor_lastPasses (x : Run) (dst : Word) : (s.finishTensor x dst).lastPasses = s.lastPasses := rfl
@[simp] theorem State.finishTensor_sres (x : Run) (dst : Word) : (s.finishTensor x dst).sres = s.sres := rfl
@[simp] theorem State.finishTensor_tileCfg (x : Run) (dst : Word) : (s.finishTensor x dst).tileCfg = s.tileCfg := rfl
@[simp] theorem State.finishTensor_scratchA (x : Run) (dst : Word) : (s.finishTensor x dst).scratchA = s.scratchA := rfl
@[simp] theorem State.finishTensor_scratchB (x : Run) (dst : Word) : (s.finishTensor x dst).scratchB = s.scratchB := rfl
@[simp] theorem State.finishTensor_scratchCap (x : Run) (dst : Word) : (s.finishTensor x dst).scratchCap = s.scratchCap := rfl
@[simp] theorem State.finishTensor_lut (x : Run) (dst : Word) : (s.finishTensor x dst).lut = s.lut := rfl
@[simp] theorem State.finishTensor_acc (x : Run) (dst : Word) : (s.finishTensor x dst).acc = s.acc := rfl
@[simp] theorem State.finishTensor_mem (x : Run) (dst : Word) : (s.finishTensor x dst).mem = x.mem := rfl
@[simp] theorem State.finishTensor_inReset (x : Run) (dst : Word) : (s.finishTensor x dst).inReset = s.inReset := rfl
@[simp] theorem State.finishTensor_platform (x : Run) (dst : Word) : (s.finishTensor x dst).platform = s.platform := rfl
@[simp] theorem State.finishTensor_agenda (x : Run) (dst : Word) : (s.finishTensor x dst).agenda = s.agenda := rfl
@[simp] theorem State.finishTensor_hostData (x : Run) (dst : Word) : (s.finishTensor x dst).hostData = s.hostData := rfl
@[simp] theorem State.finishTensor_draws (x : Run) (dst : Word) : (s.finishTensor x dst).draws = x.draws := rfl

/-! ### finishTiled -/

@[simp] theorem State.finishTiled_irqEn (x : Run) (dst : Word) (n : Nat) : (s.finishTiled x dst n).irqEn = s.irqEn := rfl
@[simp] theorem State.finishTiled_busy (x : Run) (dst : Word) (n : Nat) : (s.finishTiled x dst n).busy = s.busy := rfl
@[simp] theorem State.finishTiled_done (x : Run) (dst : Word) (n : Nat) : (s.finishTiled x dst n).done = s.done := rfl
@[simp] theorem State.finishTiled_err (x : Run) (dst : Word) (n : Nat) : (s.finishTiled x dst n).err = s.err := rfl
@[simp] theorem State.finishTiled_errCode (x : Run) (dst : Word) (n : Nat) : (s.finishTiled x dst n).errCode = s.errCode := rfl
@[simp] theorem State.finishTiled_cmdAddr (x : Run) (dst : Word) (n : Nat) : (s.finishTiled x dst n).cmdAddr = s.cmdAddr := rfl
@[simp] theorem State.finishTiled_result (x : Run) (dst : Word) (n : Nat) : (s.finishTiled x dst n).result = dst := rfl
@[simp] theorem State.finishTiled_faultAddr (x : Run) (dst : Word) (n : Nat) : (s.finishTiled x dst n).faultAddr = s.faultAddr := rfl
@[simp] theorem State.finishTiled_layerIdx (x : Run) (dst : Word) (n : Nat) : (s.finishTiled x dst n).layerIdx = s.layerIdx := rfl
@[simp] theorem State.finishTiled_lastPasses (x : Run) (dst : Word) (n : Nat) : (s.finishTiled x dst n).lastPasses = BitVec.ofNat 32 n := rfl
@[simp] theorem State.finishTiled_sres (x : Run) (dst : Word) (n : Nat) : (s.finishTiled x dst n).sres = s.sres := rfl
@[simp] theorem State.finishTiled_tileCfg (x : Run) (dst : Word) (n : Nat) : (s.finishTiled x dst n).tileCfg = s.tileCfg := rfl
@[simp] theorem State.finishTiled_scratchA (x : Run) (dst : Word) (n : Nat) : (s.finishTiled x dst n).scratchA = s.scratchA := rfl
@[simp] theorem State.finishTiled_scratchB (x : Run) (dst : Word) (n : Nat) : (s.finishTiled x dst n).scratchB = s.scratchB := rfl
@[simp] theorem State.finishTiled_scratchCap (x : Run) (dst : Word) (n : Nat) : (s.finishTiled x dst n).scratchCap = s.scratchCap := rfl
@[simp] theorem State.finishTiled_lut (x : Run) (dst : Word) (n : Nat) : (s.finishTiled x dst n).lut = s.lut := rfl
@[simp] theorem State.finishTiled_acc (x : Run) (dst : Word) (n : Nat) : (s.finishTiled x dst n).acc = freeWords 15 x.draws := rfl
@[simp] theorem State.finishTiled_mem (x : Run) (dst : Word) (n : Nat) : (s.finishTiled x dst n).mem = x.mem := rfl
@[simp] theorem State.finishTiled_inReset (x : Run) (dst : Word) (n : Nat) : (s.finishTiled x dst n).inReset = s.inReset := rfl
@[simp] theorem State.finishTiled_platform (x : Run) (dst : Word) (n : Nat) : (s.finishTiled x dst n).platform = s.platform := rfl
@[simp] theorem State.finishTiled_agenda (x : Run) (dst : Word) (n : Nat) : (s.finishTiled x dst n).agenda = s.agenda := rfl
@[simp] theorem State.finishTiled_hostData (x : Run) (dst : Word) (n : Nat) : (s.finishTiled x dst n).hostData = s.hostData := rfl
@[simp] theorem State.finishTiled_draws (x : Run) (dst : Word) (n : Nat) : (s.finishTiled x dst n).draws = x.draws + 15 := rfl

/-! ### netFinish -/

@[simp] theorem netFinish_irqEn (o : NetOps) (steps : List LayerStep) (last : Cursor) : (netFinish s o steps last).irqEn = s.irqEn := rfl
@[simp] theorem netFinish_busy (o : NetOps) (steps : List LayerStep) (last : Cursor) : (netFinish s o steps last).busy = s.busy := rfl
@[simp] theorem netFinish_done (o : NetOps) (steps : List LayerStep) (last : Cursor) : (netFinish s o steps last).done = s.done := rfl
@[simp] theorem netFinish_err (o : NetOps) (steps : List LayerStep) (last : Cursor) : (netFinish s o steps last).err = s.err := rfl
@[simp] theorem netFinish_errCode (o : NetOps) (steps : List LayerStep) (last : Cursor) : (netFinish s o steps last).errCode = s.errCode := rfl
@[simp] theorem netFinish_cmdAddr (o : NetOps) (steps : List LayerStep) (last : Cursor) : (netFinish s o steps last).cmdAddr = s.cmdAddr := rfl
@[simp] theorem netFinish_result (o : NetOps) (steps : List LayerStep) (last : Cursor) : (netFinish s o steps last).result = last.cur := rfl
@[simp] theorem netFinish_faultAddr (o : NetOps) (steps : List LayerStep) (last : Cursor) : (netFinish s o steps last).faultAddr = s.faultAddr := rfl
@[simp] theorem netFinish_layerIdx (o : NetOps) (steps : List LayerStep) (last : Cursor) : (netFinish s o steps last).layerIdx = o.count := rfl
@[simp] theorem netFinish_lastPasses (o : NetOps) (steps : List LayerStep) (last : Cursor) : (netFinish s o steps last).lastPasses = BitVec.ofNat 32 (lastStepPasses s.tileCfg steps) := rfl
@[simp] theorem netFinish_sres (o : NetOps) (steps : List LayerStep) (last : Cursor) : (netFinish s o steps last).sres = s.sres := rfl
@[simp] theorem netFinish_tileCfg (o : NetOps) (steps : List LayerStep) (last : Cursor) : (netFinish s o steps last).tileCfg = s.tileCfg := rfl
@[simp] theorem netFinish_scratchA (o : NetOps) (steps : List LayerStep) (last : Cursor) : (netFinish s o steps last).scratchA = s.scratchA := rfl
@[simp] theorem netFinish_scratchB (o : NetOps) (steps : List LayerStep) (last : Cursor) : (netFinish s o steps last).scratchB = s.scratchB := rfl
@[simp] theorem netFinish_scratchCap (o : NetOps) (steps : List LayerStep) (last : Cursor) : (netFinish s o steps last).scratchCap = s.scratchCap := rfl
@[simp] theorem netFinish_lut (o : NetOps) (steps : List LayerStep) (last : Cursor) : (netFinish s o steps last).lut = s.lut := rfl
@[simp] theorem netFinish_acc (o : NetOps) (steps : List LayerStep) (last : Cursor) : (netFinish s o steps last).acc = freeWords 15 (netRun s o steps).draws := rfl
@[simp] theorem netFinish_mem (o : NetOps) (steps : List LayerStep) (last : Cursor) : (netFinish s o steps last).mem = (netRun s o steps).mem := rfl
@[simp] theorem netFinish_inReset (o : NetOps) (steps : List LayerStep) (last : Cursor) : (netFinish s o steps last).inReset = s.inReset := rfl
@[simp] theorem netFinish_platform (o : NetOps) (steps : List LayerStep) (last : Cursor) : (netFinish s o steps last).platform = s.platform := rfl
@[simp] theorem netFinish_agenda (o : NetOps) (steps : List LayerStep) (last : Cursor) : (netFinish s o steps last).agenda = s.agenda := rfl
@[simp] theorem netFinish_hostData (o : NetOps) (steps : List LayerStep) (last : Cursor) : (netFinish s o steps last).hostData = s.hostData := rfl
@[simp] theorem netFinish_draws (o : NetOps) (steps : List LayerStep) (last : Cursor) : (netFinish s o steps last).draws = (netRun s o steps).draws + 15 := rfl

/-! ### answer -/

@[simp] theorem State.answer_irqEn (v : Word) : (s.answer v).irqEn = s.irqEn := rfl
@[simp] theorem State.answer_busy (v : Word) : (s.answer v).busy = s.busy := rfl
@[simp] theorem State.answer_done (v : Word) : (s.answer v).done = s.done := rfl
@[simp] theorem State.answer_err (v : Word) : (s.answer v).err = s.err := rfl
@[simp] theorem State.answer_errCode (v : Word) : (s.answer v).errCode = s.errCode := rfl
@[simp] theorem State.answer_cmdAddr (v : Word) : (s.answer v).cmdAddr = s.cmdAddr := rfl
@[simp] theorem State.answer_result (v : Word) : (s.answer v).result = s.result := rfl
@[simp] theorem State.answer_faultAddr (v : Word) : (s.answer v).faultAddr = s.faultAddr := rfl
@[simp] theorem State.answer_layerIdx (v : Word) : (s.answer v).layerIdx = s.layerIdx := rfl
@[simp] theorem State.answer_lastPasses (v : Word) : (s.answer v).lastPasses = s.lastPasses := rfl
@[simp] theorem State.answer_sres (v : Word) : (s.answer v).sres = s.sres := rfl
@[simp] theorem State.answer_tileCfg (v : Word) : (s.answer v).tileCfg = s.tileCfg := rfl
@[simp] theorem State.answer_scratchA (v : Word) : (s.answer v).scratchA = s.scratchA := rfl
@[simp] theorem State.answer_scratchB (v : Word) : (s.answer v).scratchB = s.scratchB := rfl
@[simp] theorem State.answer_scratchCap (v : Word) : (s.answer v).scratchCap = s.scratchCap := rfl
@[simp] theorem State.answer_lut (v : Word) : (s.answer v).lut = s.lut := rfl
@[simp] theorem State.answer_acc (v : Word) : (s.answer v).acc = s.acc := rfl
@[simp] theorem State.answer_mem (v : Word) : (s.answer v).mem = s.mem := rfl
@[simp] theorem State.answer_inReset (v : Word) : (s.answer v).inReset = s.inReset := rfl
@[simp] theorem State.answer_platform (v : Word) : (s.answer v).platform = s.platform := rfl
@[simp] theorem State.answer_agenda (v : Word) : (s.answer v).agenda = s.agenda := rfl
@[simp] theorem State.answer_hostData (v : Word) : (s.answer v).hostData = v := rfl
@[simp] theorem State.answer_draws (v : Word) : (s.answer v).draws = s.draws := rfl

/-! ### answerFree -/

@[simp] theorem State.answerFree_irqEn : s.answerFree.irqEn = s.irqEn := rfl
@[simp] theorem State.answerFree_busy : s.answerFree.busy = s.busy := rfl
@[simp] theorem State.answerFree_done : s.answerFree.done = s.done := rfl
@[simp] theorem State.answerFree_err : s.answerFree.err = s.err := rfl
@[simp] theorem State.answerFree_errCode : s.answerFree.errCode = s.errCode := rfl
@[simp] theorem State.answerFree_cmdAddr : s.answerFree.cmdAddr = s.cmdAddr := rfl
@[simp] theorem State.answerFree_result : s.answerFree.result = s.result := rfl
@[simp] theorem State.answerFree_faultAddr : s.answerFree.faultAddr = s.faultAddr := rfl
@[simp] theorem State.answerFree_layerIdx : s.answerFree.layerIdx = s.layerIdx := rfl
@[simp] theorem State.answerFree_lastPasses : s.answerFree.lastPasses = s.lastPasses := rfl
@[simp] theorem State.answerFree_sres : s.answerFree.sres = s.sres := rfl
@[simp] theorem State.answerFree_tileCfg : s.answerFree.tileCfg = s.tileCfg := rfl
@[simp] theorem State.answerFree_scratchA : s.answerFree.scratchA = s.scratchA := rfl
@[simp] theorem State.answerFree_scratchB : s.answerFree.scratchB = s.scratchB := rfl
@[simp] theorem State.answerFree_scratchCap : s.answerFree.scratchCap = s.scratchCap := rfl
@[simp] theorem State.answerFree_lut : s.answerFree.lut = s.lut := rfl
@[simp] theorem State.answerFree_acc : s.answerFree.acc = s.acc := rfl
@[simp] theorem State.answerFree_mem : s.answerFree.mem = s.mem := rfl
@[simp] theorem State.answerFree_inReset : s.answerFree.inReset = s.inReset := rfl
@[simp] theorem State.answerFree_platform : s.answerFree.platform = s.platform := rfl
@[simp] theorem State.answerFree_agenda : s.answerFree.agenda = s.agenda := rfl
@[simp] theorem State.answerFree_hostData : s.answerFree.hostData = Config.freeValue s.draws := rfl
@[simp] theorem State.answerFree_draws : s.answerFree.draws = s.draws + 1 := rfl

/-! ### enterReset -/

@[simp] theorem State.enterReset_irqEn : s.enterReset.irqEn = false := rfl
@[simp] theorem State.enterReset_busy : s.enterReset.busy = false := rfl
@[simp] theorem State.enterReset_done : s.enterReset.done = false := rfl
@[simp] theorem State.enterReset_err : s.enterReset.err = false := rfl
@[simp] theorem State.enterReset_errCode : s.enterReset.errCode = .none := rfl
@[simp] theorem State.enterReset_cmdAddr : s.enterReset.cmdAddr = 0 := rfl
@[simp] theorem State.enterReset_result : s.enterReset.result = 0 := rfl
@[simp] theorem State.enterReset_faultAddr : s.enterReset.faultAddr = 0 := rfl
@[simp] theorem State.enterReset_layerIdx : s.enterReset.layerIdx = 0 := rfl
@[simp] theorem State.enterReset_lastPasses : s.enterReset.lastPasses = 0 := rfl
@[simp] theorem State.enterReset_sres : s.enterReset.sres = 0 := rfl
@[simp] theorem State.enterReset_tileCfg : s.enterReset.tileCfg = 0x00008116 := rfl
@[simp] theorem State.enterReset_scratchA : s.enterReset.scratchA = 0 := rfl
@[simp] theorem State.enterReset_scratchB : s.enterReset.scratchB = 0 := rfl
@[simp] theorem State.enterReset_scratchCap : s.enterReset.scratchCap = 0 := rfl
@[simp] theorem State.enterReset_lut : s.enterReset.lut = freeLut (s.run.freeRanges s.inFlight.writes).draws := rfl
@[simp] theorem State.enterReset_acc : s.enterReset.acc = freeWords 15 ((s.run.freeRanges s.inFlight.writes).draws + 64) := rfl
@[simp] theorem State.enterReset_mem : s.enterReset.mem = (s.run.freeRanges s.inFlight.writes).mem := rfl
@[simp] theorem State.enterReset_inReset : s.enterReset.inReset = true := rfl
@[simp] theorem State.enterReset_platform : s.enterReset.platform = s.platform := rfl
@[simp] theorem State.enterReset_agenda : s.enterReset.agenda = s.agenda := rfl
@[simp] theorem State.enterReset_hostData : s.enterReset.hostData = s.hostData := rfl
@[simp] theorem State.enterReset_draws : s.enterReset.draws = (s.run.freeRanges s.inFlight.writes).draws + 79 := rfl

/-! ### run -/

@[simp] theorem State.run_mem : s.run.mem = s.mem := rfl
@[simp] theorem State.run_draws : s.run.draws = s.draws := rfl

end Sys2Proof.Machine
end

