-- ==== Sys2Proof/Laws/Checks.lean ====
section
/-! SUPPORT. What the checks can find, and what `runCommand` does with it (spec/60_exceptions.md R312 to R317). -/

namespace Sys2Proof.Machine

@[simp] theorem firstError_nil : firstError [] = none := rfl

@[simp] theorem firstError_cons_some (e : ErrCode) (cs : List (Option ErrCode)) :
    firstError (some e :: cs) = some e := rfl

@[simp] theorem firstError_cons_none (cs : List (Option ErrCode)) : firstError (none :: cs) = firstError cs := rfl

/-- The checks pass exactly if each passes. -/
theorem firstError_eq_none {cs : List (Option ErrCode)} : firstError cs = none ↔ ∀ c ∈ cs, c = none := by
  induction cs with
  | nil => simp
  | cons c cs ih => cases c <;> simp [ih]

/-- The error found is one of the checks' errors. -/
theorem mem_of_firstError {cs : List (Option ErrCode)} {e : ErrCode} (h : firstError cs = some e) : some e ∈ cs := by
  induction cs with
  | nil => simp at h
  | cons c cs ih =>
    cases c with
    | none => exact List.mem_cons_of_mem _ (ih h)
    | some d => simp_all

theorem checkTensor_eq_none {p : Platform} {t n : Nat} :
    checkTensor p t n = none ↔ t % 2 = 0 ∧ p.memOk t (2 * n) = true := by
  unfold checkTensor
  split
  · simp_all
  · split <;> simp_all

@[simp] theorem checkShape_eq_none {b : Bool} : checkShape b = none ↔ b = true := by
  cases b <;> simp [checkShape]

theorem checkIndex_eq_none {d : Word} : checkIndex d = none ↔ d.toNat ≤ 14 := by
  unfold checkIndex indexLegal
  by_cases h : d.toNat ≤ 14 <;> simp [h]

/-- A check never reports the code NONE. -/
abbrev Reports (c : Option ErrCode) : Prop := c ≠ some .none

theorem reports_checkTensor (p : Platform) (t n : Nat) : Reports (checkTensor p t n) := by
  unfold checkTensor; repeat' split
  all_goals simp

theorem reports_checkShape (b : Bool) : Reports (checkShape b) := by cases b <;> simp [checkShape]

theorem reports_checkIndex (d : Word) : Reports (checkIndex d) := by
  unfold checkIndex; split <;> simp

theorem reports_checkList (p : Platform) (l n : Nat) : Reports (checkList p l n) := by
  unfold checkList; repeat' split
  all_goals simp

theorem reports_firstError {cs : List (Option ErrCode)} (h : ∀ c ∈ cs, Reports c) : Reports (firstError cs) :=
  fun hc => h _ (mem_of_firstError hc) rfl

theorem positive_iff {ns : List Nat} : positive ns = true ↔ ∀ n ∈ ns, 0 < n := by simp [positive]

/-! ### runCommand -/

theorem runCommand_some {s : State} {found : Option ErrCode} {e : ErrCode} {body : State → State}
    (h : found = some e) : s.runCommand found body = .next (s.raiseError e s.cmdAddr 0) := by
  subst h; rfl

theorem runCommand_none {s : State} {found : Option ErrCode} {body : State → State} (h : found = none) :
    s.runCommand found body = .next (body s).complete := by
  subst h; rfl

/-! ### Every kernel's checks report an error -/

theorem reports_binaryChecks (p : Platform) (a b dst n : Nat) : Reports (binaryChecks p a b dst n) :=
  reports_firstError (by simp [reports_checkTensor, reports_checkShape])

theorem reports_unaryChecks (p : Platform) (src dst n : Nat) : Reports (unaryChecks p src dst n) :=
  reports_firstError (by simp [reports_checkTensor, reports_checkShape])

theorem reports_fillChecks (p : Platform) (dst n : Nat) : Reports (fillChecks p dst n) :=
  reports_firstError (by simp [reports_checkTensor, reports_checkShape])

theorem reports_linearParamChecks (p : Platform) (a : LinearArgs) : ∀ c ∈ linearParamChecks p a, Reports c := by
  unfold linearParamChecks
  split <;> simp [reports_checkTensor]

theorem reports_linearChecks (p : Platform) (a : LinearArgs) : Reports (linearChecks p a) :=
  reports_firstError (by
    intro c hc
    rcases List.mem_append.1 hc with hc | hc
    · simp only [List.mem_cons, List.not_mem_nil, or_false] at hc
      rcases hc with rfl | rfl | rfl
      exacts [reports_checkShape _, reports_checkTensor _ _ _, reports_checkTensor _ _ _]
    · exact reports_linearParamChecks p a c hc)

theorem reports_convChecks (p : Platform) (a : ConvArgs) : Reports (convChecks p a) :=
  reports_firstError (by simp [convShape, convParamChecks, reports_checkTensor, reports_checkShape])

theorem reports_gateChecks (p : Platform) (a : GateArgs) : Reports (gateChecks p a) :=
  reports_firstError (by simp [reports_checkTensor, reports_checkShape])

theorem reports_lstmChecks (p : Platform) (a : LstmArgs) : Reports (lstmChecks p a) :=
  reports_firstError (by simp [lstmShape, lstmTensorChecks, reports_checkTensor, reports_checkShape])

theorem reports_rnnChecks (p : Platform) (a : RnnArgs) : Reports (rnnChecks p a) :=
  reports_firstError (by simp [rnnShape, rnnTensorChecks, reports_checkTensor, reports_checkShape])

theorem reports_netOwnChecks (p : Platform) (o : NetOps) : Reports (netOwnChecks p o) :=
  reports_firstError (by simp [reports_checkTensor, reports_checkShape, reports_checkList])

/-- The checks of a routed layer report an error. -/
theorem reports_layerChecks (s : State) (c : Cursor) : ∀ st : LayerStep, ∀ d ∈ layerChecks s c st, Reports d
  | .linear a _, d, hd => by
    rcases List.mem_append.1 hd with hd | hd
    · simp only [List.mem_cons, List.not_mem_nil, or_false] at hd
      rcases hd with rfl | rfl | rfl | rfl
      exacts [reports_checkShape _, reports_checkShape _, reports_checkShape _, reports_checkTensor _ _ _]
    · exact reports_linearParamChecks _ a d hd
  | .conv _ _, d, hd => by
    revert d
    simp [layerChecks, convShape, convParamChecks, checkHalf, reports_checkTensor, reports_checkShape]
  | .lstm _ _, d, hd => by
    revert d
    simp [layerChecks, lstmShape, lstmTensorChecks, reports_checkTensor, reports_checkShape]
  | .rnn _, d, hd => by
    revert d
    simp [layerChecks, rnnShape, rnnTensorChecks, reports_checkTensor, reports_checkShape]

/-- What a record's validation can answer: its layer with every check passed, or the error of its OPC, its header or
its first failing check (43_network_driver.md R273 step 5). -/
theorem planLayer_cases (s : State) (p : Nat) (c : Cursor) :
    (routeLayer s p c = none ∧ planLayer s p c = .error .unsupportedLayer) ∨
      ∃ st c', routeLayer s p c = some (st, c') ∧
        ((headerLegal (s.mem.ldw p) = false ∧ planLayer s p c = .error .illegalCommand) ∨
          (headerLegal (s.mem.ldw p) = true ∧
            ((∃ e, firstError (layerChecks s c st) = some e ∧ planLayer s p c = .error e) ∨
              (firstError (layerChecks s c st) = none ∧ planLayer s p c = .ok (st, c'))))) := by
  unfold planLayer
  cases routeLayer s p c with
  | none => exact .inl ⟨rfl, rfl⟩
  | some r =>
    refine .inr ⟨r.1, r.2, rfl, ?_⟩
    cases headerLegal (s.mem.ldw p) with
    | false => exact .inl ⟨rfl, rfl⟩
    | true =>
      refine .inr ⟨rfl, ?_⟩
      cases h : firstError (layerChecks s c r.1) with
      | none => exact .inr ⟨rfl, by simp [h]⟩
      | some e => exact .inl ⟨e, rfl, by simp [h]⟩

/-- A record that passes has its layer routed, a legal header, and every check passed. -/
theorem planLayer_ok {s : State} {p : Nat} {c c' : Cursor} {st : LayerStep} :
    planLayer s p c = .ok (st, c') ↔
      routeLayer s p c = some (st, c') ∧ headerLegal (s.mem.ldw p) = true ∧ firstError (layerChecks s c st) = none := by
  rcases planLayer_cases s p c with ⟨h, h'⟩ | ⟨st', c'', h, ⟨hl, h'⟩ | ⟨hl, ⟨e, he, h'⟩ | ⟨he, h'⟩⟩⟩
  · simp [h, h']
  · simp [h', hl]
  · rw [h', h]; simp only [reduceCtorEq, Option.some.injEq, Prod.mk.injEq, false_iff, not_and]
    rintro ⟨rfl, -⟩ -; simp [he]
  · rw [h', h]; simp only [Except.ok.injEq, Option.some.injEq, Prod.mk.injEq]
    constructor
    · rintro ⟨rfl, rfl⟩; exact ⟨⟨rfl, rfl⟩, hl, he⟩
    · rintro ⟨⟨rfl, rfl⟩, -, -⟩; exact ⟨rfl, rfl⟩

/-- A record's validation never reports the code NONE. -/
theorem planLayer_error_ne_none {s : State} {p : Nat} {c : Cursor} {e : ErrCode} (h : planLayer s p c = .error e) :
    e ≠ .none := by
  rintro rfl
  rcases planLayer_cases s p c with ⟨-, h'⟩ | ⟨st, c', -, ⟨-, h'⟩ | ⟨-, ⟨e, he, h'⟩ | ⟨-, h'⟩⟩⟩
  · simp [h'] at h
  · simp [h'] at h
  · rw [h', Except.error.injEq] at h
    exact reports_firstError (reports_layerChecks s c st) (h ▸ he)
  · simp [h'] at h

/-- The validation of the layer list never reports the code NONE. -/
theorem planLayers_error_ne_none {s : State} {l : Nat} : ∀ {n i : Nat} {c : Cursor} {e : NetError},
    planLayers s l n i c = .error e → e.code ≠ .none
  | 0, _, _, _, h => by simp [planLayers] at h
  | n + 1, i, c, e, h => by
    unfold planLayers at h
    split at h
    · next hp => cases h; exact planLayer_error_ne_none hp
    · split at h
      · next hr => cases h; exact planLayers_error_ne_none hr
      · cases h

theorem netPlan_error_ne_none {s : State} {o : NetOps} {e : NetError} (h : netPlan s o = .error e) :
    e.code ≠ .none := by
  unfold netPlan at h
  split at h
  · next he => cases h; exact fun hn => reports_netOwnChecks _ _ (he.trans (congrArg some hn))
  · exact planLayers_error_ne_none h

end Sys2Proof.Machine
end

