-- ==== Sys2Proof/Laws/Memory.lean ====
section
/-! SUPPORT. The laws of memory: a read after a write, the canonical form, and what the writes of a running command
(`Run.put`, `Run.freeBytes`, `Run.freeRanges`) can do. -/

namespace Sys2Proof.Machine

/-! ### Cells -/

theorem readCells_eq_unlisted_of_lt {cs : List Host.Cell} {p : Nat} (h : ∀ c ∈ cs, p < c.1) :
    readCells cs p = unlistedByte := by
  induction cs with
  | nil => rfl
  | cons c cs ih =>
    have hc := h c (by simp)
    simp only [readCells]
    rw [if_neg (by omega)]
    exact ih fun d hd => h d (by simp [hd])

theorem readCells_writeCells_other {cs : List Host.Cell} {p q : Nat} {b : Byte} (h : q ≠ p) :
    readCells (writeCells cs p b) q = readCells cs q := by
  induction cs with
  | nil => simp only [writeCells]; split <;> simp [readCells, h]
  | cons c cs ih =>
    obtain ⟨a, c⟩ := c
    simp only [writeCells]
    split
    · split <;> simp [readCells, h]
    · split
      · subst_vars
        split <;> simp [readCells, h]
      · simp [readCells, ih]

theorem readCells_writeCells_same {cs : List Host.Cell} {p : Nat} {b : Byte}
    (h : cs.Pairwise fun c d => c.1 < d.1) : readCells (writeCells cs p b) p = b := by
  induction cs with
  | nil => simp only [writeCells]; split <;> simp_all [readCells]
  | cons c cs ih =>
    obtain ⟨a, c⟩ := c
    rw [List.pairwise_cons] at h
    simp only [writeCells]
    split
    · split
      · next hp hb =>
        subst hb
        refine readCells_eq_unlisted_of_lt fun d hd => ?_
        rcases List.mem_cons.1 hd with rfl | hd
        · exact hp
        · exact Nat.lt_trans hp (h.1 d hd)
      · simp [readCells]
    · split
      · next hpa =>
        subst hpa
        split
        · next hb => subst hb; exact readCells_eq_unlisted_of_lt h.1
        · simp [readCells]
      · next hpa => simp [readCells, hpa, ih h.2]

theorem mem_writeCells {cs : List Host.Cell} {p : Nat} {b : Byte} {d : Host.Cell} (h : d ∈ writeCells cs p b) :
    (d = (p, b) ∧ b ≠ unlistedByte) ∨ d ∈ cs := by
  induction cs with
  | nil =>
    simp only [writeCells] at h
    split at h <;> simp_all
  | cons c cs ih =>
    obtain ⟨a, c⟩ := c
    simp only [writeCells] at h
    split at h
    · split at h <;> simp_all
    · split at h
      · split at h <;> simp_all
        tauto
      · rcases List.mem_cons.1 h with rfl | h
        · simp
        · rcases ih h with h | h <;> simp [h]

theorem writeCells_sorted {cs : List Host.Cell} {p : Nat} {b : Byte} (h : cs.Pairwise fun c d => c.1 < d.1) :
    (writeCells cs p b).Pairwise fun c d => c.1 < d.1 := by
  induction cs with
  | nil => simp only [writeCells]; split <;> simp
  | cons c cs ih =>
    obtain ⟨a, c⟩ := c
    have h' := h
    rw [List.pairwise_cons] at h
    simp only [writeCells]
    split
    · next hp =>
      split
      · exact h'
      · refine List.pairwise_cons.2 ⟨fun d hd => ?_, h'⟩
        rcases List.mem_cons.1 hd with rfl | hd
        · exact hp
        · exact Nat.lt_trans hp (h.1 d hd)
    · split
      · next hpa =>
        subst hpa
        split
        · exact h.2
        · exact List.pairwise_cons.2 ⟨h.1, h.2⟩
      · next hlt hne =>
        refine List.pairwise_cons.2 ⟨fun d hd => ?_, ih h.2⟩
        rcases mem_writeCells hd with ⟨rfl, -⟩ | hd
        · show a < p; omega
        · exact h.1 d hd

/-! ### Bytes -/

/-- A write leaves every other address alone. -/
theorem Memory.read_write_other {m : Memory} {p q : Nat} {b : Byte} (h : q ≠ p) :
    (m.write p b).read q = m.read q := by
  unfold Memory.write Memory.read
  split
  · exact readCells_writeCells_other h
  · rfl

/-- A read of the address written gives the byte written. -/
theorem Memory.read_write_same {m : Memory} {p : Nat} {b : Byte} (hm : m.wf) (hp : p < 2 ^ 32) :
    (m.write p b).read p = b := by
  unfold Memory.write Memory.read
  rw [if_pos hp]
  exact readCells_writeCells_same hm.1

/-- Every write keeps the canonical form. -/
theorem Memory.wf_write {m : Memory} {p : Nat} {b : Byte} (hm : m.wf) : (m.write p b).wf := by
  unfold Memory.write
  split
  · next hp =>
    refine ⟨writeCells_sorted hm.1, fun c hc => ?_⟩
    rcases mem_writeCells hc with ⟨rfl, hb⟩ | hc
    · exact ⟨hb, hp⟩
    · exact hm.2 c hc
  · exact hm

/-- Memory that lists nothing is in canonical form. -/
theorem Memory.wf_nil : Memory.wf { cells := [] } := by simp [Memory.wf]

/-- The memory of the state after reset is in canonical form. -/
theorem Memory.wf_reset : State.reset.mem.wf := Memory.wf_nil

/-! ### Byte order -/

@[simp] theorem halfOfBytes_byteOfHalf (v : FixedScalar) : halfOfBytes (byteOfHalf v 0) (byteOfHalf v 1) = v := by
  apply BitVec.eq_of_getLsbD_eq
  intro i hi
  simp only [halfOfBytes, byteOfHalf, BitVec.getLsbD_append, BitVec.getLsbD_extractLsb']
  split
  · next h => simp [h]
  · next h =>
    have h1 : i - 8 < 8 := by omega
    simp only [h1, decide_true, Bool.true_and]
    congr 1
    omega

@[simp] theorem byteOfHalf_zero_halfOfBytes (a b : Byte) : byteOfHalf (halfOfBytes a b) 0 = a := by
  apply BitVec.eq_of_getLsbD_eq
  intro i hi
  simp only [halfOfBytes, byteOfHalf, BitVec.getLsbD_extractLsb', BitVec.getLsbD_append]
  simp [hi]

@[simp] theorem byteOfHalf_one_halfOfBytes (a b : Byte) : byteOfHalf (halfOfBytes a b) 1 = b := by
  apply BitVec.eq_of_getLsbD_eq
  intro i hi
  simp only [halfOfBytes, byteOfHalf, BitVec.getLsbD_extractLsb', BitVec.getLsbD_append]
  simp [hi]

@[simp] theorem wordOfBytes_byteOfWord (w : Word) :
    wordOfBytes (byteOfWord w 0) (byteOfWord w 1) (byteOfWord w 2) (byteOfWord w 3) = w := by
  apply BitVec.eq_of_getLsbD_eq
  intro i hi
  simp only [wordOfBytes, byteOfWord, BitVec.getLsbD_append, BitVec.getLsbD_extractLsb']
  repeat' split
  all_goals first
    | (simp only [*, decide_true, Bool.true_and]; congr 1; omega)
    | (have h1 : i - 8 - 8 - 8 < 8 := by omega
       simp only [h1, decide_true, Bool.true_and]; congr 1; omega)

/-! ### Elements (20_memory.md R82) -/

theorem Range.holds_iff {r : Range} {p : Nat} : r.holds p = true ↔ r.base ≤ p ∧ p < r.base + r.len := by
  simp [Range.holds]

theorem holds_tensorRange {t n p : Nat} : (tensorRange t n).holds p = true ↔ t ≤ p ∧ p < t + 2 * n :=
  Range.holds_iff

theorem Memory.wf_st16 {m : Memory} {p : Nat} {v : FixedScalar} (hm : m.wf) : (m.st16 p v).wf :=
  Memory.wf_write (Memory.wf_write hm)

/-- An element store leaves every byte but its two alone. -/
theorem Memory.read_st16_other {m : Memory} {p q : Nat} {v : FixedScalar} (h0 : q ≠ p) (h1 : q ≠ p + 1) :
    (m.st16 p v).read q = m.read q := by
  unfold Memory.st16
  rw [Memory.read_write_other h1, Memory.read_write_other h0]

/-- A load of the element stored gives it back. -/
theorem Memory.ld16_st16_same {m : Memory} {p : Nat} {v : FixedScalar} (hm : m.wf) (hp : p + 1 < 2 ^ 32) :
    (m.st16 p v).ld16 p = v := by
  unfold Memory.ld16 Memory.st16
  rw [Memory.read_write_same (Memory.wf_write hm) hp, Memory.read_write_other (by omega),
    Memory.read_write_same hm (by omega)]
  simp

/-- A load of an element none of whose bytes is stored reads as before. -/
theorem Memory.ld16_st16_disjoint {m : Memory} {p q : Nat} {v : FixedScalar} (h : p + 2 ≤ q ∨ q + 2 ≤ p) :
    (m.st16 p v).ld16 q = m.ld16 q := by
  unfold Memory.ld16
  rw [Memory.read_st16_other (by omega) (by omega), Memory.read_st16_other (by omega) (by omega)]

/-- Loads depend on the bytes alone. -/
theorem Memory.ld16_congr {m m' : Memory} {p : Nat} (h0 : m'.read p = m.read p) (h1 : m'.read (p + 1) = m.read (p + 1)) :
    m'.ld16 p = m.ld16 p := by
  unfold Memory.ld16; rw [h0, h1]

theorem Memory.elem_congr {m m' : Memory} {t n i : Nat} (h : ∀ p, (tensorRange t n).holds p = true → m'.read p = m.read p)
    (hi : i < n) : m'.elem t i = m.elem t i := by
  have hr : ∀ k, k < 2 → (tensorRange t n).holds (t + 2 * i + k) = true := fun k hk => by
    rw [holds_tensorRange]
    omega
  exact Memory.ld16_congr (h _ (hr 0 (by omega))) (h _ (hr 1 (by omega)))

theorem Memory.tensor_congr {m m' : Memory} {t n : Nat}
    (h : ∀ p, (tensorRange t n).holds p = true → m'.read p = m.read p) : m'.tensor t n = m.tensor t n := by
  refine List.map_congr_left fun i hi => Memory.elem_congr h (List.mem_range.1 hi)

@[simp] theorem Memory.length_tensor (m : Memory) (t n : Nat) : (m.tensor t n).length = n := by
  simp [Memory.tensor]

@[simp] theorem Memory.length_bytes (m : Memory) (p n : Nat) : (m.bytes p n).length = n := by
  simp [Memory.bytes]

theorem Memory.getD_bytes {m : Memory} {p n i : Nat} (h : i < n) : (m.bytes p n).getD i 0 = m.read (p + i) := by
  simp [Memory.bytes, List.getD_eq_getElem?_getD, h]

/-! ### Stored byte lists -/

theorem Memory.wf_storeBytes {bs : List Byte} {m : Memory} {p : Nat} (hm : m.wf) : (m.storeBytes p bs).wf := by
  induction bs generalizing m p with
  | nil => exact hm
  | cons b bs ih => exact ih (Memory.wf_write hm)

theorem Memory.read_storeBytes_other {bs : List Byte} {m : Memory} {p q : Nat} (h : q < p ∨ p + bs.length ≤ q) :
    (m.storeBytes p bs).read q = m.read q := by
  induction bs generalizing m p with
  | nil => rfl
  | cons b bs ih =>
    simp only [List.length_cons] at h
    rw [Memory.storeBytes, ih (by omega), Memory.read_write_other (by omega)]

theorem Memory.read_storeBytes {bs : List Byte} {m : Memory} {p i : Nat} (hm : m.wf) (hp : p + bs.length ≤ 2 ^ 32)
    (hi : i < bs.length) : (m.storeBytes p bs).read (p + i) = bs[i] := by
  induction bs generalizing m p i with
  | nil => simp at hi
  | cons b bs ih =>
    simp only [List.length_cons] at hp hi
    rw [Memory.storeBytes]
    cases i with
    | zero =>
      rw [Memory.read_storeBytes_other (by omega), Nat.add_zero, Memory.read_write_same hm (by omega)]
      rfl
    | succ i =>
      rw [show p + (i + 1) = p + 1 + i by omega, ih (Memory.wf_write hm) (by omega) (by omega)]
      rfl

/-! ### Ranges -/

theorem Range.overlaps_iff {r q : Range} : r.overlaps q = true ↔ ∃ p, r.holds p = true ∧ q.holds p = true := by
  simp only [Range.overlaps, Range.holds_iff, Bool.and_eq_true, decide_eq_true_eq]
  constructor
  · rintro ⟨⟨⟨h1, h2⟩, h3⟩, h4⟩
    exact ⟨max r.base q.base, by omega, by omega⟩
  · rintro ⟨p, h1, h2⟩
    omega

theorem Range.meets_eq_false {r : Range} {rs : List Range} :
    r.meets rs = false ↔ ∀ q ∈ rs, ∀ p, r.holds p = true → q.holds p = false := by
  simp only [Range.meets, List.any_eq_false, Range.overlaps_iff, not_exists, not_and, Bool.not_eq_true]

/-- MEM_OK keeps a range inside the address space, off the window and off the holes (20_memory.md R84). -/
theorem Platform.memOk_iff {pl : Platform} {a n : Nat} :
    pl.memOk a n = true ↔
      a + n ≤ 2 ^ 32 ∧ Range.overlaps { base := a, len := n } pl.window = false ∧
        ∀ h ∈ pl.holes, Range.overlaps { base := a, len := n } h = false := by
  simp [Platform.memOk, and_assoc]

theorem Platform.le_of_memOk {pl : Platform} {a n : Nat} (h : pl.memOk a n = true) : a + n ≤ 2 ^ 32 :=
  (Platform.memOk_iff.1 h).1

/-! ### The writes of a running command -/

theorem Run.wf_put {free : Bool} {base : Nat} {es : List (Nat × FixedScalar)} {x : Run} (hx : x.mem.wf) :
    (x.put free base es).mem.wf := by
  induction es generalizing x with
  | nil => exact hx
  | cons e es ih =>
    obtain ⟨i, v⟩ := e
    simp only [Run.put]
    split <;> exact ih (Memory.wf_st16 hx)

/-- `put` writes only the elements it names. -/
theorem Run.read_put_other {free : Bool} {base n : Nat} {es : List (Nat × FixedScalar)} {x : Run} {p : Nat}
    (hes : ∀ e ∈ es, e.1 < n) (hp : (tensorRange base n).holds p = false) :
    (x.put free base es).mem.read p = x.mem.read p := by
  induction es generalizing x with
  | nil => rfl
  | cons e es ih =>
    obtain ⟨i, v⟩ := e
    have hi : i < n := hes (i, v) (by simp)
    have hp' : ¬(base ≤ p ∧ p < base + 2 * n) := fun h => by
      rw [holds_tensorRange.2 h] at hp
      cases hp
    simp only [Run.put]
    split <;>
    · rw [ih fun e he => hes e (by simp [he])]
      exact Memory.read_st16_other (by omega) (by omega)

/-- `put` leaves an element it does not name. -/
theorem Run.elem_put_other {free : Bool} {base i : Nat} {es : List (Nat × FixedScalar)} {x : Run}
    (hes : ∀ e ∈ es, e.1 ≠ i) : (x.put free base es).mem.elem base i = x.mem.elem base i := by
  induction es generalizing x with
  | nil => rfl
  | cons e es ih =>
    obtain ⟨j, v⟩ := e
    have hj : j ≠ i := hes (j, v) (by simp)
    simp only [Run.put]
    split <;>
    · rw [ih fun e he => hes e (by simp [he])]
      exact Memory.ld16_st16_disjoint (by omega)

/-- Where nothing overlaps, `put` stores the values it is given: each element it names once holds its value. -/
theorem Run.elem_put {base i : Nat} {v : FixedScalar} {es : List (Nat × FixedScalar)} {x : Run} (hx : x.mem.wf)
    (hes : (es.map Prod.fst).Nodup) (hb : base + 2 * i + 1 < 2 ^ 32) (hv : (i, v) ∈ es) :
    (x.put false base es).mem.elem base i = v := by
  induction es generalizing x with
  | nil => simp at hv
  | cons e es ih =>
    obtain ⟨j, w⟩ := e
    simp only [List.map_cons, List.nodup_cons] at hes
    simp only [Run.put, Bool.false_eq_true, if_false]
    rcases List.mem_cons.1 hv with h | h
    · obtain ⟨rfl, rfl⟩ := Prod.mk.inj h
      rw [Run.elem_put_other]
      · exact Memory.ld16_st16_same hx hb
      · rintro e he rfl
        exact hes.1 (List.mem_map.2 ⟨e, he, rfl⟩)
    · exact ih (Memory.wf_st16 hx) hes.2 h

/-- The draws of a `put`: one for each element if the bytes are free, none otherwise. -/
theorem Run.draws_put {free : Bool} {base : Nat} {es : List (Nat × FixedScalar)} {x : Run} :
    (x.put free base es).draws = x.draws + if free then es.length else 0 := by
  induction es generalizing x with
  | nil => simp [Run.put]
  | cons e es ih =>
    obtain ⟨i, v⟩ := e
    simp only [Run.put]
    cases free
    · simp [ih]
    · simp only [if_true, ih, List.length_cons]; omega

theorem Run.wf_freeBytes {n : Nat} {x : Run} {p : Nat} (hx : x.mem.wf) : (x.freeBytes p n).mem.wf := by
  induction n generalizing x p with
  | zero => exact hx
  | succ n ih => exact ih (Memory.wf_write hx)

theorem Run.read_freeBytes_other {n : Nat} {x : Run} {p q : Nat} (h : q < p ∨ p + n ≤ q) :
    (x.freeBytes p n).mem.read q = x.mem.read q := by
  induction n generalizing x p with
  | zero => rfl
  | succ n ih =>
    simp only [Run.freeBytes]
    rw [ih (by omega)]
    exact Memory.read_write_other (by omega)

theorem Run.wf_freeRanges {rs : List Range} {x : Run} (hx : x.mem.wf) : (x.freeRanges rs).mem.wf := by
  induction rs generalizing x with
  | nil => exact hx
  | cons r rs ih => exact ih (Run.wf_freeBytes hx)

/-- `freeRanges` writes only the ranges. -/
theorem Run.read_freeRanges_other {rs : List Range} {x : Run} {q : Nat} (h : ∀ r ∈ rs, r.holds q = false) :
    (x.freeRanges rs).mem.read q = x.mem.read q := by
  induction rs generalizing x with
  | nil => rfl
  | cons r rs ih =>
    have hr := h r (by simp)
    simp only [Run.freeRanges]
    rw [ih fun r' hr' => h r' (by simp [hr'])]
    refine Run.read_freeBytes_other ?_
    have : ¬(r.base ≤ q ∧ q < r.base + r.len) := fun hh => by rw [Range.holds_iff.2 hh] at hr; cases hr
    omega

end Sys2Proof.Machine
end

