-- ==== Sys2Proof/Laws/Decode.lean ====
section
/-! SUPPORT. The small lemmas of the descriptor format: words from bytes and back, and the header's fields
(spec/30_encoding.md R120, R121). -/

namespace Sys2Proof

open Sys2Proof.Machine

@[simp] theorem length_bytesOfWord (w : Word) : (bytesOfWord w).length = 4 := rfl

@[simp] theorem length_flatMap_bytesOfWord (ws : List Word) : (ws.flatMap bytesOfWord).length = 4 * ws.length := by
  induction ws with
  | nil => rfl
  | cons w ws ih => rw [List.flatMap_cons, List.length_append, ih]; simp; omega

/-- The words read back from their bytes in memory order. -/
theorem wordAt_flatMap_bytesOfWord {ws : List Word} {j : Nat} (h : j < ws.length) :
    wordAt (ws.flatMap bytesOfWord) j = ws[j] := by
  induction ws generalizing j with
  | nil => simp at h
  | cons w ws ih =>
    cases j with
    | zero =>
      simp only [wordAt, List.flatMap_cons, bytesOfWord, List.cons_append, List.nil_append]
      simp
    | succ j =>
      have hg : ∀ k, ((w :: ws).flatMap bytesOfWord).getD (4 * (j + 1) + k) 0 = (ws.flatMap bytesOfWord).getD (4 * j + k) 0 := by
        intro k
        rw [List.flatMap_cons, List.getD_append_right _ _ _ _ (by simp; omega)]
        congr 1
        simp
        omega
      have := ih (j := j) (by simpa using h)
      simp only [wordAt] at this ⊢
      rw [hg 1, hg 2, hg 3, ← Nat.add_zero (4 * (j + 1)), hg 0]
      simpa using this

/-- The words of a descriptor in memory. -/
theorem wordAt_bytes {m : Memory} {p n j : Nat} (h : 4 * j + 4 ≤ n) : wordAt (m.bytes p n) j = m.ldw (p + 4 * j) := by
  simp only [wordAt, Memory.ldw]
  rw [Memory.getD_bytes (by omega), Memory.getD_bytes (by omega), Memory.getD_bytes (by omega),
    Memory.getD_bytes (by omega)]
  rfl

@[simp] theorem headerOpc_header (f : BitVec 4) (o : BitVec 8) : headerOpc (header f o) = o := by
  apply BitVec.eq_of_getLsbD_eq
  intro i hi
  simp only [headerOpc, header, BitVec.getLsbD_extractLsb', BitVec.getLsbD_append]
  simp [hi]

@[simp] theorem headerFlags_header (f : BitVec 4) (o : BitVec 8) : headerFlags (header f o) = f := by
  apply BitVec.eq_of_getLsbD_eq
  intro i hi
  simp only [headerFlags, header, BitVec.getLsbD_extractLsb', BitVec.getLsbD_append]
  simp [hi]

@[simp] theorem headerRsv_header (f : BitVec 4) (o : BitVec 8) : headerRsv (header f o) = 0 := by
  apply BitVec.eq_of_getLsbD_eq
  intro i hi
  simp only [headerRsv, header, BitVec.getLsbD_extractLsb', BitVec.getLsbD_append]
  rw [if_neg (by omega), if_neg (by omega)]
  simp

@[simp] theorem value16_wordOfValue16 (v : FixedScalar) : value16 (wordOfValue16 v) = v := by
  apply BitVec.eq_of_getLsbD_eq
  intro i hi
  simp only [value16, wordOfValue16, BitVec.getLsbD_extractLsb', BitVec.getLsbD_append]
  simp [hi]

@[simp] theorem pairOf_wordOfPair (p : Pair) : pairOf (wordOfPair p) = p := by
  obtain ⟨a, b⟩ := p
  simp only [pairOf, wordOfPair, Pair.mk.injEq]
  constructor <;>
  · apply BitVec.eq_of_getLsbD_eq
    intro i hi
    simp only [BitVec.getLsbD_extractLsb', BitVec.getLsbD_append]
    simp [hi]

theorem withIndex_eq_ok {d : Word} {i j : Instr} : withIndex d i = .ok j ↔ indexLegal d = true ∧ i = j := by
  unfold withIndex
  split <;> simp_all

/-- Every encoding has 16 words. -/
theorem length_encode (i : Instr) : (encode i).length = 16 := by
  cases i <;> rfl

/-- Every encoding has 64 bytes. -/
theorem length_encodeBytes (i : Instr) : (encodeBytes i).length = 64 := by
  rw [encodeBytes, length_flatMap_bytesOfWord, length_encode]

/-- The decoder sees the encoder's words. -/
theorem wordAt_encodeBytes {i : Instr} {j : Nat} (h : j < 16) :
    wordAt (encodeBytes i) j = (encode i)[j]'(by rw [length_encode]; exact h) :=
  wordAt_flatMap_bytesOfWord (by rw [length_encode]; exact h)

/-- On 64 bytes the decoder is the decoder of their words. -/
theorem decode_of_length {bs : List Byte} (h : 64 ≤ bs.length) : decode bs = decodeWords (wordAt bs) :=
  if_neg (by omega)

end Sys2Proof
end

