-- ==== Sys2Proof/Laws/Tile.lean ====
section
/-! SUPPORT. What the tile scheduler answers (spec/41_tiled_kernels.md R200 to R203). -/

namespace Sys2Proof.Machine

theorem mem_candidates {cfg : Word} {w : Nat} : w ∈ candidates cfg ↔ 1 ≤ w ∧ w ≤ 15 ∧ cfg.getLsbD w = true := by
  simp only [candidates, allWidths, List.mem_filter, List.mem_cons, List.not_mem_nil, or_false]
  constructor
  · rintro ⟨h, h'⟩
    exact ⟨by omega, by omega, h'⟩
  · rintro ⟨h1, h2, h'⟩
    exact ⟨by omega, h'⟩

theorem mem_tilesOf {w base cnt : Nat} {t : Tile} :
    t ∈ tilesOf w base cnt ↔ ∃ c, c < cnt ∧ t = { width := w, base := base + c * w } := by
  simp [tilesOf, eq_comm]

@[simp] theorem schedFrom_nil (base rem : Nat) : schedFrom [] base rem = [] := rfl

@[simp] theorem schedFrom_cons (t base rem : Nat) (ts : List Nat) :
    schedFrom (t :: ts) base rem =
      tilesOf t base (rem / t) ++ schedFrom ts (base + rem / t * t) (rem - rem / t * t) := rfl

/-- Every tile lies inside the channels that were left, and its width is one of the widths left. -/
theorem mem_schedFrom {ts : List Nat} {base rem : Nat} {t : Tile} (h : t ∈ schedFrom ts base rem) :
    t.width ∈ ts ∧ base ≤ t.base ∧ t.base + t.width ≤ base + rem := by
  induction ts generalizing base rem with
  | nil => simp at h
  | cons w ts ih =>
    have hle : rem / w * w ≤ rem := Nat.div_mul_le_self rem w
    rw [schedFrom_cons, List.mem_append] at h
    rcases h with h | h
    · obtain ⟨c, hc, rfl⟩ := mem_tilesOf.1 h
      have hcw : (c + 1) * w ≤ rem / w * w := Nat.mul_le_mul_right w hc
      rw [Nat.add_mul, Nat.one_mul] at hcw
      exact ⟨by simp, by simp, by simp only; omega⟩
    · obtain ⟨h1, h2, h3⟩ := ih h
      exact ⟨by simp [h1], by omega, by omega⟩

/-- Every tile of SCHED(N) has a candidate width and lies inside [0, N). -/
theorem mem_sched {cfg : Word} {n : Nat} {t : Tile} (h : t ∈ sched cfg n) :
    t.width ∈ candidates cfg ∧ t.base + t.width ≤ n := by
  obtain ⟨h1, -, h3⟩ := mem_schedFrom h
  exact ⟨h1, by omega⟩

theorem Tile.mem_channels {t : Tile} {o : Nat} : o ∈ t.channels ↔ t.base ≤ o ∧ o < t.base + t.width := by
  simp only [Tile.channels, List.mem_map, List.mem_range]
  constructor
  · rintro ⟨k, hk, rfl⟩; omega
  · rintro ⟨h1, h2⟩; exact ⟨o - t.base, by omega, by omega⟩

/-- A channel of a tile of SCHED(N) is below N. -/
theorem channel_lt {cfg : Word} {n o : Nat} {t : Tile} (ht : t ∈ sched cfg n) (ho : o ∈ t.channels) : o < n := by
  have := (mem_sched ht).2
  have := Tile.mem_channels.1 ho
  omega

/-- What a tiled kernel stores: a channel of a tile, with its value. -/
theorem mem_tiled {tiles : List Tile} {f : Nat → FixedScalar} {e : Nat × FixedScalar} :
    e ∈ tiled tiles f ↔ ∃ t ∈ tiles, e.1 ∈ t.channels ∧ e.2 = f e.1 := by
  obtain ⟨i, v⟩ := e
  simp only [tiled, List.mem_flatMap, List.mem_map, Prod.mk.injEq]
  constructor
  · rintro ⟨t, ht, o, ho, rfl, rfl⟩; exact ⟨t, ht, ho, rfl⟩
  · rintro ⟨t, ht, ho, hv⟩; exact ⟨t, ht, i, ho, rfl, hv.symm⟩

/-- The indices a tiled kernel stores to, in its order: the channels of its tiles. -/
theorem map_fst_tiled (tiles : List Tile) (f : Nat → FixedScalar) :
    (tiled tiles f).map Prod.fst = tiles.flatMap Tile.channels := by
  simp [tiled, List.map_flatMap, Function.comp_def]

theorem tiled_lt {cfg : Word} {n : Nat} {f : Nat → FixedScalar} : ∀ e ∈ tiled (sched cfg n) f, e.1 < n := by
  intro e he
  obtain ⟨t, ht, ho, -⟩ := mem_tiled.1 he
  exact channel_lt ht ho

end Sys2Proof.Machine
end

