-- ==== Sys2Proof/Laws/Kernels.lean ====
section
/-! SUPPORT. What each kernel's run can do to memory: it keeps the canonical form and writes nothing outside the
write set of its footprint (spec/20_memory.md R90). -/

namespace Sys2Proof.Machine

/-- `y` came of `x` by writes inside `ws` alone, which kept memory's canonical form. -/
structure Run.Within (ws : List Range) (x y : Run) : Prop where
  wf : x.mem.wf → y.mem.wf
  read : ∀ p, (∀ r ∈ ws, r.holds p = false) → y.mem.read p = x.mem.read p

theorem Run.Within.refl {ws : List Range} {x : Run} : Run.Within ws x x := ⟨id, fun _ _ => rfl⟩

theorem Run.Within.trans {ws : List Range} {x y z : Run} (h : Run.Within ws x y) (h' : Run.Within ws y z) :
    Run.Within ws x z :=
  ⟨fun hx => h'.wf (h.wf hx), fun p hp => (h'.read p hp).trans (h.read p hp)⟩

theorem Run.Within.mono {ws ws' : List Range} {x y : Run} (h : Run.Within ws x y) (hs : ws ⊆ ws') :
    Run.Within ws' x y :=
  ⟨h.wf, fun p hp => h.read p fun r hr => hp r (hs hr)⟩

/-- A fold of steps that each stay inside `ws` stays inside `ws`. -/
theorem Run.Within.foldl {α : Type} {ws : List Range} {f : Run → α → Run} {l : List α}
    (h : ∀ a ∈ l, ∀ x, Run.Within ws x (f x a)) (x : Run) : Run.Within ws x (l.foldl f x) := by
  induction l generalizing x with
  | nil => exact .refl
  | cons a l ih => exact (h a (by simp) x).trans (ih (fun b hb => h b (by simp [hb])) _)

/-- Freeing ranges of `ws` stays inside `ws`. -/
theorem Run.within_freeRanges {ws rs : List Range} {x : Run} (h : rs ⊆ ws) : Run.Within ws x (x.freeRanges rs) :=
  ⟨Run.wf_freeRanges, fun _ hp => Run.read_freeRanges_other fun r hr => hp r (h hr)⟩

/-- The end of a command's run frees nothing outside its write set (20_memory.md R91). -/
theorem Run.within_freeOverlaps {ws hz : List Range} {x : Run} : Run.Within ws x (x.freeOverlaps ws hz) :=
  Run.within_freeRanges fun _ hr => (List.mem_filter.1 hr).1

/-- It frees nothing where no range of the write set meets a hazard. -/
theorem Run.freeOverlaps_of_apart {ws hz : List Range} {x : Run} (h : ∀ r ∈ ws, r.meets hz = false) :
    x.freeOverlaps ws hz = x := by
  rw [Run.freeOverlaps, List.filter_eq_nil_iff.2 (by simpa using h)]
  rfl

/-- A `put` of elements below `n`, in slot `k` of a tensor of at least `k + n` elements. -/
theorem Run.within_put {ws : List Range} {free : Bool} {t k n len : Nat} {es : List (Nat × FixedScalar)} {x : Run}
    (hes : ∀ e ∈ es, e.1 < n) (hk : k + n ≤ len) (hw : tensorRange t len ∈ ws) :
    Run.Within ws x (x.put free (t + 2 * k) es) := by
  refine ⟨Run.wf_put, fun p hp => Run.read_put_other hes ?_⟩
  have h := hp _ hw
  rw [Bool.eq_false_iff, ne_eq, holds_tensorRange] at h ⊢
  omega

theorem Run.within_put_whole {ws : List Range} {free : Bool} {t n : Nat} {es : List (Nat × FixedScalar)} {x : Run}
    (hes : ∀ e ∈ es, e.1 < n) (hw : tensorRange t n ∈ ws) : Run.Within ws x (x.put free t es) := by
  have := Run.within_put (free := free) (x := x) (k := 0) hes (by omega) hw
  simpa using this

theorem zipElems_lt {m : Memory} {f : FixedScalar → FixedScalar → FixedScalar} {a b n : Nat} :
    ∀ e ∈ zipElems m f a b n, e.1 < n := by
  simp only [zipElems, List.mem_map, List.mem_range]
  rintro e ⟨i, hi, rfl⟩; exact hi

theorem mapElems_lt {m : Memory} {f : FixedScalar → FixedScalar} {src n : Nat} :
    ∀ e ∈ mapElems m f src n, e.1 < n := by
  simp only [mapElems, List.mem_map, List.mem_range]
  rintro e ⟨i, hi, rfl⟩; exact hi

@[simp] theorem map_fst_zipElems (m : Memory) (f : FixedScalar → FixedScalar → FixedScalar) (a b n : Nat) :
    (zipElems m f a b n).map Prod.fst = List.range n := by
  simp [zipElems, Function.comp_def]

@[simp] theorem map_fst_mapElems (m : Memory) (f : FixedScalar → FixedScalar) (src n : Nat) :
    (mapElems m f src n).map Prod.fst = List.range n := by
  simp [mapElems, Function.comp_def]

theorem mem_zipElems {m : Memory} {f : FixedScalar → FixedScalar → FixedScalar} {a b n i : Nat} (h : i < n) :
    (i, f (m.elem a i) (m.elem b i)) ∈ zipElems m f a b n :=
  List.mem_map.2 ⟨i, List.mem_range.2 h, rfl⟩

theorem mem_mapElems {m : Memory} {f : FixedScalar → FixedScalar} {src n i : Nat} (h : i < n) :
    (i, f (m.elem src i)) ∈ mapElems m f src n :=
  List.mem_map.2 ⟨i, List.mem_range.2 h, rfl⟩

/-! ### Tiled kernels -/

theorem convOutputs_lt {cfg : Word} {m : Memory} {a : ConvArgs} :
    ∀ e ∈ convOutputs cfg m a, e.1 < convOutSize a := by
  intro e he
  simp only [convOutputs, List.mem_flatMap, List.mem_map, List.mem_range] at he
  obtain ⟨t, ht, y, hy, x, hx, co, hco, rfl⟩ := he
  have hc := channel_lt ht hco
  have h1 : (co * a.h + y) + 1 ≤ a.cout * a.h := by
    have := Nat.mul_le_mul_right a.h hc
    rw [Nat.succ_mul] at this
    omega
  have h2 := Nat.mul_le_mul_right a.wd h1
  rw [Nat.add_mul, Nat.one_mul] at h2
  show (co * a.h + y) * a.wd + x < a.cout * a.h * a.wd
  omega

/-- LINEAR writes OUT alone (R205). -/
theorem linearRun_within {cfg : Word} {hz : List Range} {a : LinearArgs} {x : Run} :
    Run.Within (linearFootprint a).writes x (linearRun cfg hz a x) :=
  Run.within_put_whole tiled_lt (by simp [linearFootprint])

/-- CONV2D writes OUT alone (R208). -/
theorem convRun_within {cfg : Word} {hz : List Range} {a : ConvArgs} {x : Run} :
    Run.Within (convFootprint a).writes x (convRun cfg hz a x) :=
  Run.within_put_whole convOutputs_lt (by simp [convFootprint])

/-! ### Recurrent sequencers -/

/-- A gate writes its slot of G alone (R292). -/
theorem lstmGate_within {cfg : Word} {lut : Lut} {fused : Bool} {fr : LstmFree} {a : LstmArgs} {t k : Nat} {x : Run}
    (hk : k < 4) : Run.Within [lstmG a] x (lstmGate cfg lut fused fr a t x k) := by
  have hslot : k * a.nHid + a.nHid ≤ 4 * a.nHid := by
    have := Nat.mul_le_mul_right a.nHid (show k + 1 ≤ 4 by omega)
    rwa [Nat.add_mul, Nat.one_mul] at this
  unfold lstmGate
  simp only
  split
  · exact Run.within_put (n := a.nHid) tiled_lt hslot (by simp [lstmG])
  · exact (Run.within_put (n := a.nHid) tiled_lt hslot (by simp [lstmG])).trans
      (Run.within_put (n := a.nHid) mapElems_lt hslot (by simp [lstmG]))

/-- The element-wise part of a time step writes H, C and G alone (R292). -/
theorem lstmCell_within {lut : Lut} {fr : LstmFree} {a : LstmArgs} {x : Run} :
    Run.Within (lstmFootprint a).writes x (lstmCell lut fr a x) := by
  have hg {free : Bool} {y : Run} {es : List (Nat × FixedScalar)} (hes : ∀ e ∈ es, e.1 < a.nHid) :
      Run.Within (lstmFootprint a).writes y (y.put free (a.g + 4 * a.nHid) es) := by
    have := Run.within_put (ws := (lstmFootprint a).writes) (free := free) (x := y) (t := a.g) (k := 2 * a.nHid)
      (len := 4 * a.nHid) hes (by omega) (by simp [lstmFootprint, lstmG])
    rwa [show 2 * (2 * a.nHid) = 4 * a.nHid by omega] at this
  have hc {free : Bool} {y : Run} {es : List (Nat × FixedScalar)} (hes : ∀ e ∈ es, e.1 < a.nHid) :
      Run.Within (lstmFootprint a).writes y (y.put free a.c es) :=
    Run.within_put_whole hes (by simp [lstmFootprint, lstmC])
  exact (((hc zipElems_lt).trans (hg zipElems_lt)).trans (hc zipElems_lt)).trans ((hg mapElems_lt).trans
    (Run.within_put_whole zipElems_lt (by simp [lstmFootprint, lstmH])))

/-- LSTM writes H, C and G alone (R292). -/
theorem lstmRun_within {cfg : Word} {lut : Lut} {fused : Bool} {hz : List Range} {a : LstmArgs} {x : Run} :
    Run.Within (lstmFootprint a).writes x (lstmRun cfg lut fused hz a x) := by
  refine Run.Within.foldl (fun t _ y => ?_) x
  refine Run.Within.trans (Run.Within.foldl (fun k hk z => ?_) y) lstmCell_within
  refine (lstmGate_within ?_).mono (by simp [lstmFootprint])
  simp only [List.mem_cons, List.not_mem_nil, or_false] at hk
  omega

/-- A time step of RNN writes H and T alone (R295). -/
theorem rnnStep_within {cfg : Word} {lut : Lut} {fr : RnnFree} {a : RnnArgs} {t : Nat} {x : Run} :
    Run.Within (rnnFootprint a).writes x (rnnStep cfg lut fr a x t) := by
  have ht1 {free : Bool} {y : Run} {es : List (Nat × FixedScalar)} (hes : ∀ e ∈ es, e.1 < a.nHid) :
      Run.Within (rnnFootprint a).writes y (y.put free a.t es) := by
    have := Run.within_put (ws := (rnnFootprint a).writes) (free := free) (x := y) (t := a.t) (k := 0)
      (len := 2 * a.nHid) hes (by omega) (by simp [rnnFootprint, rnnT])
    simpa using this
  have ht2 {free : Bool} {y : Run} {es : List (Nat × FixedScalar)} (hes : ∀ e ∈ es, e.1 < a.nHid) :
      Run.Within (rnnFootprint a).writes y (y.put free (a.t + 2 * a.nHid) es) :=
    Run.within_put (k := a.nHid) (len := 2 * a.nHid) hes (by omega) (by simp [rnnFootprint, rnnT])
  exact (((ht1 tiled_lt).trans (ht2 tiled_lt)).trans (ht1 zipElems_lt)).trans ((ht1 mapElems_lt).trans
    (Run.within_put_whole mapElems_lt (by simp [rnnFootprint, rnnH])))

/-- RNN writes H and T alone (R295). -/
theorem rnnRun_within {cfg : Word} {lut : Lut} {hz : List Range} {a : RnnArgs} {x : Run} :
    Run.Within (rnnFootprint a).writes x (rnnRun cfg lut hz a x) :=
  Run.Within.foldl (fun _ _ _ => rnnStep_within) x

/-! ### Network driver -/

/-- A layer step writes its own write set alone (R274). -/
theorem stepRun_within {cfg : Word} {lut : Lut} {st : LayerStep} {x : Run} :
    Run.Within (stepFootprint st).writes x (stepRun cfg lut x st) := by
  cases st
  · exact linearRun_within
  · exact convRun_within
  · exact lstmRun_within
  · exact rnnRun_within

/-- The overlapping ranges are ranges that the steps write. -/
theorem overlapsAfter_subset {fixed : List Range} : ∀ {steps before : List LayerStep},
    overlapsAfter fixed before steps ⊆ steps.flatMap fun st => (stepFootprint st).writes
  | [], _ => by simp [overlapsAfter]
  | st :: steps, before => by
    intro r hr
    rcases List.mem_append.1 hr with hr | hr
    · refine List.mem_flatMap.2 ⟨st, by simp, ?_⟩
      simp only [stepOverlaps] at hr
      split at hr
      · exact hr
      · exact (List.mem_filter.1 hr).1
    · obtain ⟨q, hq, hr⟩ := List.mem_flatMap.1 (overlapsAfter_subset hr)
      exact List.mem_flatMap.2 ⟨q, by simp [hq], hr⟩

/-- NET writes its layers' write sets alone (R274). -/
theorem netRun_within {s : State} {o : NetOps} {steps : List LayerStep} :
    Run.Within (netFootprint o steps).writes s.run (netRun s o steps) := by
  have hrun : Run.Within (netFootprint o steps).writes s.run (steps.foldl (stepRun s.tileCfg s.lut) s.run) :=
    Run.Within.foldl (f := stepRun s.tileCfg s.lut)
      (fun st hst _ => stepRun_within.mono fun _ hr => List.mem_flatMap.2 ⟨st, hst, hr⟩) s.run
  exact hrun.trans (Run.within_freeRanges fun _ hr => overlapsAfter_subset (List.mem_filter.1 hr).1)

/-- Where no step has an overlap, the steps run one after another and nothing is freed at the end. -/
theorem netOverlaps_of_apart {fixed : List Range} {steps : List LayerStep} (h : overlapsAfter fixed [] steps = []) :
    netOverlaps fixed steps = [] := by
  simp [netOverlaps, h]

end Sys2Proof.Machine
end

