-- ==== Sys2Proof/Laws/Exec.lean ====
section
/-! SUPPORT. What the shared commands can do: each lemma says once how a command ends, with which run and inside which
write set (spec/60_exceptions.md R311, R316, R320). -/

namespace Sys2Proof.Machine

/-- A command ends with the first error of its checks, or with its body's state, completed. -/
theorem runCommand_next {s t : State} {found : Option ErrCode} {body : State → State} :
    s.runCommand found body = .next t ↔
      (∃ e, found = some e ∧ t = s.raiseError e s.cmdAddr 0) ∨ (found = none ∧ t = (body s).complete) := by
  cases found <;> simp [State.runCommand, eq_comm]

/-- A primitive with a legal index completes. -/
theorem runCommand_index {s : State} {d : Word} {body : State → State} (h : d.toNat ≤ 14) :
    s.runCommand (checkIndex d) body = .next (body s).complete :=
  runCommand_none (checkIndex_eq_none.2 h)

/-! ### Element-wise commands -/

/-- DST is free of overlaps if it shares no byte with the descriptor, and each input is DST itself or shares no byte
with it (20_memory.md R91). -/
theorem elementwiseOverlap_eq_false {desc dst : Range} {inputs : List Range} :
    elementwiseOverlap desc dst inputs = false ↔
      ∀ q, q = desc ∨ (q ∈ inputs ∧ q ≠ dst) → ∀ p, dst.holds p = true → q.holds p = false := by
  rw [elementwiseOverlap, Range.meets_eq_false]
  simp [List.mem_filter]

/-- ADD and HAD, where the checks pass (40_numeric_core.md R175, R176). -/
theorem binaryCommand_none {f : FixedScalar → FixedScalar → FixedScalar} {a b dst n : Word} {s : State}
    (h : binaryChecks s.platform a.toNat b.toNat dst.toNat n.toNat = none) :
    ∃ free,
      free = elementwiseOverlap s.descRange (tensorRange dst.toNat n.toNat)
        [tensorRange a.toNat n.toNat, tensorRange b.toNat n.toNat] ∧
      binaryCommand f a b dst n s =
        .next (s.finishTensor (s.run.put free dst.toNat (zipElems s.mem f a.toNat b.toNat n.toNat)) dst).complete ∧
      Run.Within [tensorRange dst.toNat n.toNat] s.run
        (s.run.put free dst.toNat (zipElems s.mem f a.toNat b.toNat n.toNat)) :=
  ⟨_, rfl, runCommand_none h, Run.within_put_whole zipElems_lt (by simp)⟩

/-- COPY and ACT, where the checks pass (40_numeric_core.md R177, 42_activation.md R248). -/
theorem unaryCommand_none {f : FixedScalar → FixedScalar} {src dst n : Word} {s : State}
    (h : unaryChecks s.platform src.toNat dst.toNat n.toNat = none) :
    ∃ free,
      free = elementwiseOverlap s.descRange (tensorRange dst.toNat n.toNat) [tensorRange src.toNat n.toNat] ∧
      unaryCommand f src dst n s =
        .next (s.finishTensor (s.run.put free dst.toNat (mapElems s.mem f src.toNat n.toNat)) dst).complete ∧
      Run.Within [tensorRange dst.toNat n.toNat] s.run
        (s.run.put free dst.toNat (mapElems s.mem f src.toNat n.toNat)) :=
  ⟨_, rfl, runCommand_none h, Run.within_put_whole mapElems_lt (by simp)⟩

/-! ### Tiled kernels and sequencers -/

/-- LINEAR of either form, where the checks pass (41_tiled_kernels.md R205). -/
theorem linearCommand_none {hasBias : Bool} {o : LinearOps} {s : State}
    (h : linearChecks s.platform (linearArgs hasBias o) = none) :
    linearCommand hasBias o s =
      .next (s.finishTiled (linearRun s.tileCfg [s.descRange] (linearArgs hasBias o) s.run) o.out
        (passes s.tileCfg o.nOut.toNat)).complete :=
  runCommand_none h

/-- GATEFUSION of any form, where the checks pass (41_tiled_kernels.md R210). -/
theorem gateCommand_none {mode : Mode} {o : GateOps} {s : State} (h : gateChecks s.platform (gateArgs o) = none) :
    ∃ x, x = s.run.put
        ((tensorRange o.out.toNat o.nOut.toNat).meets (s.descRange :: (gateFootprint (gateArgs o)).reads)) o.out.toNat
        (gateOutputs s.tileCfg s.lut mode s.mem (gateArgs o)) ∧
      gateCommand mode o s = .next (s.finishTiled x o.out (passes s.tileCfg o.nOut.toNat)).complete ∧
      Run.Within [tensorRange o.out.toNat o.nOut.toNat] s.run x :=
  ⟨_, rfl, runCommand_none h, Run.within_put_whole tiled_lt (by simp [gateArgs])⟩

/-- LSTM of either form, where the checks pass (44_recurrent.md R292). -/
theorem lstmCommand_none {fused : Bool} {o : LstmOps} {s : State} (h : lstmChecks s.platform (lstmArgs o) = none) :
    lstmCommand fused o s =
      .next (s.finishTiled ((lstmRun s.tileCfg s.lut fused [] (lstmArgs o) s.run).freeOverlaps
        (lstmFootprint (lstmArgs o)).writes [s.descRange]) o.h (passes s.tileCfg o.nHid.toNat)).complete :=
  runCommand_none h

/-- A validated layer list has one step for each record (43_network_driver.md R272). -/
theorem planLayers_length {s : State} {l : Nat} {n i : Nat} {c c' : Cursor} {sts : List LayerStep}
    (h : planLayers s l n i c = .ok (sts, c')) : sts.length = n := by
  induction n generalizing i c sts with
  | zero =>
    simp only [planLayers, Except.ok.injEq, Prod.mk.injEq] at h
    simp [← h.1]
  | succ n ih =>
    unfold planLayers at h
    split at h
    · cases h
    · split at h
      · cases h
      · next hr =>
        simp only [Except.ok.injEq, Prod.mk.injEq] at h
        obtain ⟨rfl, rfl⟩ := h
        rw [List.length_cons, ih hr]

end Sys2Proof.Machine
end

