-- ==== Sys2Proof/Laws/Network.lean ====
section
/-! SUPPORT. What routing a NET's layer list can do (spec/43_network_driver.md R271 to R274), and what a footprint in
flight rests on (spec/20_memory.md R90). -/

namespace Sys2Proof

/-- A header is its fields (30_encoding.md R121). -/
theorem header_fields {h : Word} (hr : headerRsv h = 0) : header (headerFlags h) (headerOpc h) = h := by
  apply BitVec.eq_of_getLsbD_eq
  intro i hi
  have hz : ∀ j, (headerRsv h).getLsbD j = false := by simp [hr]
  simp only [headerRsv, BitVec.getLsbD_extractLsb', Bool.and_eq_false_iff, decide_eq_false_iff_not] at hz
  simp only [headerOpc, headerFlags, header, BitVec.getLsbD_extractLsb', BitVec.getLsbD_append]
  by_cases h8 : i < 8
  · simp [h8]
  · by_cases h12 : i < 12
    · simp [h8, show i - 8 < 4 by omega, show 8 + (i - 8) = i by omega]
    · have := hz (i - 12)
      simp only [h8, show ¬(i - 8 < 4) by omega]
      rcases this with h' | h'
      · omega
      · rw [show 12 + (i - 12) = i by omega] at h'
        simp [h']

/-- Fields that decode are those of the command's own header (30_encoding.md R122). -/
theorem decodeFields_header {h : Word} {c f : Nat} {w : Nat → Word} {i : Instr} (hd : decodeFields h c f w = .ok i) :
    encodeHeader i = header (BitVec.ofNat 4 f) (BitVec.ofNat 8 c) := by
  unfold decodeFields at hd
  split at hd <;> simp only [Except.ok.injEq, withIndex_eq_ok, reduceCtorEq] at hd
  all_goals first
    | (subst hd; rfl)
    | (obtain ⟨-, rfl⟩ := hd; rfl)

/-- A descriptor that decodes carries the header of its command (30_encoding.md R122). -/
theorem decodeWords_header {w : Nat → Word} {i : Instr} (h : decodeWords w = .ok i) : w 0 = encodeHeader i := by
  unfold decodeWords at h
  split at h
  · next hr => rw [decodeFields_header h, BitVec.ofNat_toNat, BitVec.ofNat_toNat]; simp [header_fields hr]
  · cases h

/-- The operands of a decoded layer are those of its layout (30_encoding.md R126, R127, R134, R135). -/
theorem decodeWords_layer {w : Nat → Word} {i : Instr} (h : decodeWords w = .ok i) :
    (∀ o, i = .linear o ∨ i = .linearNb o → o = linearOps w) ∧ (∀ o, i = .conv2d o → o = convOps w) ∧
      (∀ o, i = .lstm o ∨ i = .lstmF o → o = lstmOps w) ∧ ∀ o, i = .rnn o → o = rnnOps w := by
  unfold decodeWords at h
  split at h
  · unfold decodeFields at h
    split at h <;> simp only [Except.ok.injEq, withIndex_eq_ok, reduceCtorEq] at h
    all_goals first
      | (subst h; simp)
      | (obtain ⟨-, rfl⟩ := h; simp)
  · cases h

/-- A layer's layout names words below 16 alone (30_encoding.md R120). -/
theorem layouts_congr {w w' : Nat → Word} (h : ∀ j, j < 16 → w j = w' j) :
    linearOps w = linearOps w' ∧ convOps w = convOps w' ∧ lstmOps w = lstmOps w' ∧ rnnOps w = rnnOps w' := by
  simp [linearOps, convOps, lstmOps, rnnOps, h]

namespace Machine

/-- The layer a record that decodes is routed to (43_network_driver.md R271, R274). -/
theorem routeLayer_of_decode {s : State} {p : Nat} {c : Cursor} {i : Instr}
    (h : decode (s.mem.bytes p 64) = .ok i) :
    headerLegal (s.mem.ldw p) = true ∧ routeLayer s p c =
      match i with
      | .linear o => some (.linear { linearArgs true o with inp := c.cur.toNat, out := (s.halfBase c.half).toNat } c.half,
          { len := o.nOut.toNat, cur := s.halfBase c.half, half := !c.half })
      | .linearNb o => some (.linear { linearArgs false o with inp := c.cur.toNat, out := (s.halfBase c.half).toNat } c.half,
          { len := o.nOut.toNat, cur := s.halfBase c.half, half := !c.half })
      | .conv2d o => some (.conv { convArgs o with inp := c.cur.toNat, out := (s.halfBase c.half).toNat } c.half,
          { len := o.cout.toNat * o.h.toNat * o.wd.toNat, cur := s.halfBase c.half, half := !c.half })
      | .lstm o => some (.lstm false { lstmArgs o with x := c.cur.toNat }, { len := o.nHid.toNat, cur := o.h, half := c.half })
      | .lstmF o => some (.lstm true { lstmArgs o with x := c.cur.toNat }, { len := o.nHid.toNat, cur := o.h, half := c.half })
      | .rnn o => some (.rnn { rnnArgs o with x := c.cur.toNat }, { len := o.nHid.toNat, cur := o.h, half := c.half })
      | _ => none := by
  rw [decode_of_length (by simp [Memory.bytes])] at h
  have hw : ∀ j, j < 16 → s.mem.ldw (p + 4 * j) = wordAt (s.mem.bytes p 64) j := fun j hj => (wordAt_bytes (by omega)).symm
  have h0 : s.mem.ldw (p + 4 * 0) = encodeHeader i := (hw 0 (by omega)).trans (decodeWords_header h)
  obtain ⟨hlin, hconv, hlstm, hrnn⟩ := decodeWords_layer h
  obtain ⟨clin, cconv, clstm, crnn⟩ := layouts_congr hw
  refine ⟨by rw [show s.mem.ldw p = encodeHeader i from h0]; cases i <;> (simp only [encodeHeader]; decide), ?_⟩
  unfold routeLayer
  simp only [h0]
  cases i <;> simp only [encodeHeader, headerOpc_header, headerFlags_header]
  case linear => obtain rfl := hlin _ (.inl rfl); rw [clin]; rfl
  case linearNb => obtain rfl := hlin _ (.inr rfl); rw [clin]; rfl
  case conv2d => obtain rfl := hconv _ rfl; rw [cconv]; rfl
  case lstm => obtain rfl := hlstm _ (.inl rfl); rw [clstm]; rfl
  case lstmF => obtain rfl := hlstm _ (.inr rfl); rw [clstm]; rfl
  case rnn => obtain rfl := hrnn _ rfl; rw [crnn]; rfl
  all_goals rfl

/-- Routing the list of a NET that passes gives its planned steps: its footprint in flight is that of its run
(20_memory.md R90, 43_network_driver.md R274). -/
theorem routeLayers_of_planLayers {s : State} {l : Nat} : ∀ {n i : Nat} {c last : Cursor} {sts : List LayerStep},
    (∀ j, j < n → s.platform.memOk (recordAddr l (i + j)) 64 = true) →
    planLayers s l n i c = .ok (sts, last) → routeLayers s l n i c = sts
  | 0, _, _, _, _, _, h => by
    simp only [planLayers, Except.ok.injEq, Prod.mk.injEq] at h
    exact h.1
  | n + 1, i, c, last, sts, hm, h => by
    unfold planLayers at h
    split at h
    · cases h
    · next st c' hp =>
      split at h
      · cases h
      · next hr =>
        simp only [Except.ok.injEq, Prod.mk.injEq] at h
        obtain ⟨rfl, rfl⟩ := h
        have hi : s.platform.memOk (recordAddr l i) 64 = true := hm 0 (by omega)
        have hrest := routeLayers_of_planLayers
          (fun j hj => by rw [show i + 1 + j = i + (j + 1) by omega]; exact hm (j + 1) (by omega)) hr
        simp [routeLayers, hi, (planLayer_ok.1 hp).1, hrest]

/-- Routing rests on memory, the scratch halves and the platform alone. -/
theorem routeLayers_congr {s t : State} (hm : t.mem = s.mem) (ha : t.scratchA = s.scratchA)
    (hb : t.scratchB = s.scratchB) (hp : t.platform = s.platform) {l : Nat} : ∀ {n i : Nat} {c : Cursor},
    routeLayers t l n i c = routeLayers s l n i c
  | 0, _, _ => rfl
  | n + 1, i, c => by
    have hr : ∀ p, routeLayer t p c = routeLayer s p c := fun p => by
      simp only [routeLayer, State.halfBase, hm, ha, hb]
    simp only [routeLayers, hp, hr, routeLayers_congr hm ha hb hp]

/-- The footprint in flight rests on BUSY, CMD_ADDR, memory, the scratch halves and the platform alone; the moves to
come do not matter. -/
theorem inFlight_congr {s t : State} (hbusy : t.busy = s.busy) (hc : t.cmdAddr = s.cmdAddr) (hm : t.mem = s.mem)
    (ha : t.scratchA = s.scratchA) (hb : t.scratchB = s.scratchB) (hp : t.platform = s.platform) :
    t.inFlight = s.inFlight := by
  have hf : ∀ i, commandFootprint i t = commandFootprint i s := fun i => by
    cases i <;> simp only [commandFootprint, routeLayers_congr hm ha hb hp]
  simp only [State.inFlight, State.namedCommand, State.descRange, hbusy, hc, hm, hp, hf]

@[simp] theorem inFlight_agenda (s : State) (a : List Event) : ({ s with agenda := a } : State).inFlight = s.inFlight :=
  inFlight_congr rfl rfl rfl rfl rfl rfl

end Machine

end Sys2Proof
end

