-- ==== Sys2Proof/Laws/PerInstr.lean ====
section
/-! SUPPORT. The family HeaderLegal: every command's header word is one the procedure of spec/30_encoding.md R141
accepts, and its descriptor has 16 words (R120). -/

namespace Sys2Proof.Laws.HeaderLegal

open Sys2Proof

/-- The command's encoding has a legal header, the header stands in word 0, and there are 16 words. -/
def Statement (i : Instr) : Prop :=
  headerLegal (encodeHeader i) = true ∧ (encode i).head? = some (encodeHeader i) ∧ (encode i).length = 16

/-- Every header the encoder writes is legal. -/
theorem legal (i : Instr) : headerLegal (encodeHeader i) = true := by
  cases i <;> simp only [encodeHeader] <;> decide

theorem linear (o : LinearOps) : Statement (.linear o) := ⟨legal _, rfl, rfl⟩
theorem linearNb (o : LinearOps) : Statement (.linearNb o) := ⟨legal _, rfl, rfl⟩
theorem rnn (o : RnnOps) : Statement (.rnn o) := ⟨legal _, rfl, rfl⟩
theorem lstm (o : LstmOps) : Statement (.lstm o) := ⟨legal _, rfl, rfl⟩
theorem lstmF (o : LstmOps) : Statement (.lstmF o) := ⟨legal _, rfl, rfl⟩
theorem conv2d (o : ConvOps) : Statement (.conv2d o) := ⟨legal _, rfl, rfl⟩
theorem gateFusion (o : GateOps) : Statement (.gateFusion o) := ⟨legal _, rfl, rfl⟩
theorem gateFusionTanh (o : GateOps) : Statement (.gateFusionTanh o) := ⟨legal _, rfl, rfl⟩
theorem gateFusionSig (o : GateOps) : Statement (.gateFusionSig o) := ⟨legal _, rfl, rfl⟩
theorem add (a b dst n : Word) : Statement (.add a b dst n) := ⟨legal _, rfl, rfl⟩
theorem had (a b dst n : Word) : Statement (.had a b dst n) := ⟨legal _, rfl, rfl⟩
theorem copy (src dst n : Word) : Statement (.copy src dst n) := ⟨legal _, rfl, rfl⟩
theorem fill (dst n : Word) (v : FixedScalar) : Statement (.fill dst n v) := ⟨legal _, rfl, rfl⟩
theorem actId (src dst n : Word) : Statement (.actId src dst n) := ⟨legal _, rfl, rfl⟩
theorem actTanh (src dst n : Word) : Statement (.actTanh src dst n) := ⟨legal _, rfl, rfl⟩
theorem actSig (src dst n : Word) : Statement (.actSig src dst n) := ⟨legal _, rfl, rfl⟩
theorem net (o : NetOps) : Statement (.net o) := ⟨legal _, rfl, rfl⟩
theorem accSet (d v : Word) : Statement (.accSet d v) := ⟨legal _, rfl, rfl⟩
theorem accB (d : Word) (v : FixedScalar) : Statement (.accB d v) := ⟨legal _, rfl, rfl⟩
theorem mac2 (d : Word) (a b : Pair) : Statement (.mac2 d a b) := ⟨legal _, rfl, rfl⟩
theorem mac1 (d : Word) (a b : FixedScalar) : Statement (.mac1 d a b) := ⟨legal _, rfl, rfl⟩
theorem req (d : Word) : Statement (.req d) := ⟨legal _, rfl, rfl⟩
theorem actsId (x : FixedScalar) : Statement (.actsId x) := ⟨legal _, rfl, rfl⟩
theorem actsTanh (x : FixedScalar) : Statement (.actsTanh x) := ⟨legal _, rfl, rfl⟩
theorem actsSig (x : FixedScalar) : Statement (.actsSig x) := ⟨legal _, rfl, rfl⟩

end Sys2Proof.Laws.HeaderLegal
end

