-- ==== Sys2Proof/Laws/Step.lean ====
section
/-! SUPPORT. What each move can do: one inversion lemma per move of the agenda (spec/20_memory.md R94 to R98). -/

namespace Sys2Proof.Machine

/-- A step is the engine's turn, or the agenda's first move. -/
theorem step_cases {s t : State} (h : step s = .next t) :
    (s.agenda = [] ∧ s.engineTurn = .next t) ∨
      ∃ e rest, s.agenda = e :: rest ∧ takeMove e { s with agenda := rest } = .next t := by
  unfold step nextMove at h
  split at h
  · next ha => exact .inl ⟨ha, h⟩
  · next e rest ha => exact .inr ⟨e, rest, ha, h⟩

theorem step_nil {s : State} (h : s.agenda = []) : step s = s.engineTurn := by
  unfold step nextMove; rw [h]

theorem step_cons {s : State} {e : Event} {rest : List Event} (h : s.agenda = e :: rest) :
    step s = takeMove e { s with agenda := rest } := by
  unfold step nextMove; rw [h]

/-- The engine's turn completes the command in flight, or nothing happens (60_exceptions.md R332). -/
theorem engineTurn_cases {s t : State} (h : s.engineTurn = .next t) :
    (s.busy = true ∧ s.inReset = false ∧ s.completionStep = .next t) ∨
      ((s.busy = false ∨ s.inReset = true) ∧ t = s) := by
  unfold State.engineTurn at h
  split at h
  · next hb => simp only [Bool.and_eq_true, Bool.not_eq_true'] at hb; exact .inl ⟨hb.1, hb.2, h⟩
  · next hb =>
    right
    simp only [Bool.and_eq_true, Bool.not_eq_true', not_and, Bool.not_eq_false] at hb
    refine ⟨?_, by cases h; rfl⟩
    cases hc : s.busy
    · exact .inl rfl
    · exact .inr (hb hc)

/-- The completion step ends with the descriptor's error, or runs the decoded command (60_exceptions.md R312). -/
theorem completionStep_cases {s t : State} (h : s.completionStep = .next t) :
    (∃ e, s.fetch = .error e ∧ t = s.raiseError e s.cmdAddr 0) ∨ ∃ i, s.fetch = .ok i ∧ exec i s = .next t := by
  unfold State.completionStep at h
  split at h
  · next e he => cases h; exact .inl ⟨e, he, rfl⟩
  · next i hi => exact .inr ⟨i, hi, h⟩

/-- The descriptor check: the three errors it can find (60_exceptions.md R312). -/
theorem fetch_error {s : State} {e : ErrCode} (h : s.fetch = .error e) :
    e = .misaligned ∨ e = .busError ∨ e = .illegalCommand := by
  unfold State.fetch at h
  repeat' split at h
  all_goals first
    | (cases h; simp)
    | cases h

/-- A fetched command is the decoding of the 64 bytes at an aligned CMD_ADDR (60_exceptions.md R312). -/
theorem fetch_ok {s : State} {i : Instr} :
    s.fetch = .ok i ↔
      s.cmdAddr.toNat % 4 = 0 ∧ s.platform.memOk s.cmdAddr.toNat 64 = true ∧
        decode (s.mem.bytes s.cmdAddr.toNat 64) = .ok i := by
  unfold State.fetch
  by_cases h1 : s.cmdAddr.toNat % 4 = 0
  · by_cases h2 : s.platform.memOk s.cmdAddr.toNat 64 = true
    · cases h3 : decode (s.mem.bytes s.cmdAddr.toNat 64) <;> simp [h1, h2]
    · simp [h1, h2]
  · simp [h1]

/-! ### The host's moves -/

theorem regAccessRefusal_eq_none {s : State} {off : BitVec 10} {width : AccessWidth} :
    regAccessRefusal s off width = none ↔ s.inReset = false ∧ width = .word ∧ off.toNat % 4 = 0 := by
  unfold regAccessRefusal
  by_cases h1 : s.inReset = true
  · simp [h1]
  · by_cases h2 : width = .word ∧ off.toNat % 4 = 0
    · simp [h1, h2]
    · simp [h1, h2]

/-- What a register write can do: the control and status writes, the plain registers, the LUT, an accumulator, or
nothing (10_state.md R30 to R47). -/
theorem writeReg_cases (s : State) (off : Nat) (v : Word) :
    (off = 0x004 ∧ s.writeReg off v = s.writeCtrl v) ∨ (off = 0x008 ∧ s.writeReg off v = s.acknowledge v) ∨
      (off = 0x00C ∧ s.writeReg off v = { s with cmdAddr := v }) ∨
      (off = 0x024 ∧ s.writeReg off v = { s with tileCfg := tileCfgOf v }) ∨
      (off = 0x028 ∧ s.writeReg off v = { s with scratchA := v }) ∨
      (off = 0x02C ∧ s.writeReg off v = { s with scratchB := v }) ∨
      (off = 0x030 ∧ s.writeReg off v = { s with scratchCap := v }) ∨
      (0x100 ≤ off ∧ off < 0x200 ∧ ∃ l, s.writeReg off v = { s with lut := l }) ∨
      (0x200 ≤ off ∧ off < 0x23C ∧ s.writeReg off v = s.setAcc ((off - 0x200) / 4) v) ∨ s.writeReg off v = s := by
  by_cases h4 : off = 0x004
  · exact .inl ⟨h4, by rw [State.writeReg, if_pos h4]⟩
  refine .inr ?_
  by_cases h8 : off = 0x008
  · exact .inl ⟨h8, by rw [State.writeReg, if_neg h4, if_pos h8]⟩
  refine .inr ?_
  by_cases hc : off = 0x00C
  · exact .inl ⟨hc, by rw [State.writeReg, if_neg h4, if_neg h8, if_pos hc]⟩
  refine .inr ?_
  by_cases h24 : off = 0x024
  · exact .inl ⟨h24, by rw [State.writeReg, if_neg h4, if_neg h8, if_neg hc, if_pos h24]⟩
  refine .inr ?_
  by_cases h28 : off = 0x028
  · exact .inl ⟨h28, by rw [State.writeReg, if_neg h4, if_neg h8, if_neg hc, if_neg h24, if_pos h28]⟩
  refine .inr ?_
  by_cases h2c : off = 0x02C
  · exact .inl ⟨h2c, by rw [State.writeReg, if_neg h4, if_neg h8, if_neg hc, if_neg h24, if_neg h28, if_pos h2c]⟩
  refine .inr ?_
  by_cases h30 : off = 0x030
  · exact .inl ⟨h30, by rw [State.writeReg, if_neg h4, if_neg h8, if_neg hc, if_neg h24, if_neg h28, if_neg h2c, if_pos h30]⟩
  refine .inr ?_
  rw [State.writeReg, if_neg h4, if_neg h8, if_neg hc, if_neg h24, if_neg h28, if_neg h2c, if_neg h30]
  by_cases k1 : off < 0x100
  · exact .inr (.inr (if_pos k1))
  rw [if_neg k1]
  by_cases k2 : off < 0x140
  · exact .inl ⟨by omega, by omega, _, if_pos k2⟩
  rw [if_neg k2]
  by_cases k3 : off < 0x180
  · exact .inl ⟨by omega, by omega, _, if_pos k3⟩
  rw [if_neg k3]
  by_cases k4 : off < 0x1C0
  · exact .inl ⟨by omega, by omega, _, if_pos k4⟩
  rw [if_neg k4]
  by_cases k5 : off < 0x200
  · exact .inl ⟨by omega, by omega, _, if_pos k5⟩
  rw [if_neg k5]
  by_cases k6 : off < 0x23C
  · exact .inr (.inl ⟨by omega, by omega, if_pos k6⟩)
  · exact .inr (.inr (if_neg k6))

/-- A write of CTRL sets IRQ_EN, and starts the command at CMD_ADDR if bit 0 is set (10_state.md R32, R47). -/
theorem writeCtrl_cases (s : State) (v : Word) :
    (v.getLsbD 0 = true ∧ s.writeCtrl v = State.start { s with irqEn := v.getLsbD 1 }) ∨
      (v.getLsbD 0 = false ∧ s.writeCtrl v = { s with irqEn := v.getLsbD 1 }) := by
  cases h : v.getLsbD 0
  · exact .inr ⟨rfl, by rw [State.writeCtrl, h]; rfl⟩
  · exact .inl ⟨rfl, by rw [State.writeCtrl, h]; rfl⟩

/-- A register write does nothing while BUSY, else it writes the register (10_state.md R47). -/
theorem hostRegWrite_cases {s t : State} {off : BitVec 10} {width : AccessWidth} {v : Word}
    (h : hostRegWrite off width v s = .next t) :
    regAccessRefusal s off width = none ∧
      ((s.busy = true ∧ t = s) ∨ (s.busy = false ∧ t = s.writeReg off.toNat v)) := by
  unfold hostRegWrite at h
  split at h
  · cases h
  · next hr =>
    refine ⟨hr, ?_⟩
    split at h
    · next hb => cases h; exact .inl ⟨hb, rfl⟩
    · next hb => cases h; exact .inr ⟨by simpa using hb, rfl⟩

/-- A register read answers the register, or a free value while BUSY (10_state.md R48). -/
theorem hostRegRead_cases {s t : State} {off : BitVec 10} {width : AccessWidth}
    (h : hostRegRead off width s = .next t) :
    regAccessRefusal s off width = none ∧
      ((s.busy = true ∧ hiddenWhileBusy off.toNat = true ∧ t = s.answerFree) ∨ t = s.answer (s.regValue off.toNat)) := by
  unfold hostRegRead at h
  split at h
  · cases h
  · next hr =>
    refine ⟨hr, ?_⟩
    split at h
    · next hb =>
      cases h
      simp only [Bool.and_eq_true] at hb
      exact .inl ⟨hb.1, hb.2, rfl⟩
    · cases h; exact .inr rfl

/-- A memory read answers the byte, or a free one in the write set in flight (20_memory.md R98). -/
theorem hostMemRead_cases {s t : State} {addr : Word} (h : hostMemRead addr s = .next t) :
    s.platform.memOk addr.toNat 1 = true ∧ ∃ v k, t = { s with hostData := v, draws := k } ∧
      ((∀ r ∈ s.inFlight.writes, r.holds addr.toNat = false) → v = (s.mem.read addr.toNat).setWidth 32 ∧ k = s.draws) := by
  unfold hostMemRead at h
  split at h
  · next hm =>
    refine ⟨hm, ?_⟩
    split at h
    · next hw =>
      cases h
      refine ⟨_, _, rfl, fun hn => ?_⟩
      obtain ⟨r, hr, hh⟩ := List.any_eq_true.1 hw
      rw [hn r hr] at hh
      cases hh
    · cases h
      exact ⟨_, _, rfl, fun _ => ⟨rfl, rfl⟩⟩
  · cases h

/-- A memory write goes outside the footprint in flight, and writes its byte (20_memory.md R98). -/
theorem hostMemWrite_cases {s t : State} {addr : Word} {b : Byte} (h : hostMemWrite addr b s = .next t) :
    s.platform.memOk addr.toNat 1 = true ∧
      (∀ r ∈ s.inFlight.reads ++ s.inFlight.writes, r.holds addr.toNat = false) ∧
      t = { s with mem := s.mem.write addr.toNat b } := by
  unfold hostMemWrite at h
  split at h
  · next hm =>
    split at h
    · cases h
    · next hw =>
      cases h
      exact ⟨hm, fun r hr => by simpa using List.any_eq_false.1 (Bool.not_eq_true _ ▸ hw) r hr, rfl⟩
  · cases h

/-- Reset writes memory inside the write set in flight alone, and keeps its canonical form (70_reset_and_hazards.md
R342). -/
theorem enterReset_mem {s : State} :
    (s.mem.wf → s.enterReset.mem.wf) ∧
      ∀ p, (∀ r ∈ s.inFlight.writes, r.holds p = false) → s.enterReset.mem.read p = s.mem.read p :=
  ⟨fun h => Run.wf_freeRanges (x := s.run) h, fun _ hp => Run.read_freeRanges_other (x := s.run) hp⟩

/-! ### Legal values of TILE_CFG (10_state.md R40) -/

/-- Every value a write stores is legal. -/
theorem tileCfgLegal_tileCfgOf (v : Word) : tileCfgLegal (tileCfgOf v) = true := by
  rw [tileCfgLegal, beq_iff_eq]
  apply BitVec.eq_of_getLsbD_eq
  intro i hi
  simp only [tileCfgOf, BitVec.getLsbD_or, BitVec.getLsbD_and]
  cases v.getLsbD i <;> cases (0xFFFE : Word).getLsbD i <;> cases (0x0002 : Word).getLsbD i <;> rfl

/-! ### Where the interface places an instruction (log entry 8) -/

@[simp] theorem withFetchWord_agenda (s : State) (nbits w : Nat) : (s.withFetchWord nbits w).agenda = [] := rfl
@[simp] theorem withFetchWord_busy (s : State) (nbits w : Nat) : (s.withFetchWord nbits w).busy = true := rfl
@[simp] theorem withFetchWord_inReset (s : State) (nbits w : Nat) : (s.withFetchWord nbits w).inReset = false := rfl
@[simp] theorem withFetchWord_cmdAddr (s : State) (nbits w : Nat) : (s.withFetchWord nbits w).cmdAddr = s.cmdAddr := rfl
@[simp] theorem withFetchWord_platform (s : State) (nbits w : Nat) :
    (s.withFetchWord nbits w).platform = s.platform := rfl
@[simp] theorem withFetchWord_mem (s : State) (nbits w : Nat) :
    (s.withFetchWord nbits w).mem = s.mem.storeBytes s.cmdAddr.toNat (tableBytes nbits w) := rfl

@[simp] theorem length_tableBytes (nbits w : Nat) : (tableBytes nbits w).length = 64 := by simp [tableBytes]

end Sys2Proof.Machine
end

