-- ==== Sys2Proof/Tests/Slice0.lean ====
section
/-! SUPPORT. Tests: the well-formedness smoke, one written-out descriptor for every constructor, small vectors of
spec/95_test_vectors.md, and a witness for the hypotheses of every statement. -/

namespace Sys2Proof.Tests

open Sys2Proof Sys2Proof.Machine Sys2Proof.Claims

-- One theorem at a time: the kernel evaluates whole states here, and side by side they need too much memory.
set_option Elab.async false

/-! ### Well-formedness: an index above 14 is refused (30_encoding.md R124) -/

theorem test_wf_accSet_refuses_15 : (Instr.accSet 15 0).wf = false ∧ (Instr.accSet 14 0).wf = true := by decide
theorem test_wf_accB_refuses_15 : (Instr.accB 15 0).wf = false ∧ (Instr.accB 14 0).wf = true := by decide
theorem test_wf_mac2_refuses_16 :
    (Instr.mac2 16 ⟨0, 0⟩ ⟨0, 0⟩).wf = false ∧ (Instr.mac2 0 ⟨0, 0⟩ ⟨0, 0⟩).wf = true := by decide
theorem test_wf_mac1_refuses_top : (Instr.mac1 0xFFFFFFFF 0 0).wf = false := by decide
theorem test_wf_req_refuses_15 : (Instr.req 15).wf = false ∧ (Instr.req 14).wf = true := by decide

/-! ### Descriptors written out from 30_encoding.md R122 and R126 to R138, the words not given 0 -/

/-- The bytes of a descriptor whose first words are `l`. -/
def words (l : List Word) : List Byte := (l ++ List.replicate (16 - l.length) 0).flatMap bytesOfWord

theorem test_decode_linear : decode (words [0x101, 0x1000, 0x1100, 0x2000, 0x2100, 4, 2]) =
    .ok (.linear { inp := 0x1000, out := 0x1100, w := 0x2000, b := 0x2100, nIn := 4, nOut := 2 }) := by decide
/-- The bytes of 30_encoding.md R146. -/
theorem test_decode_linear_bytes : (words [0x101, 0x1000, 0x1100, 0x2000, 0x2100, 4, 2]).take 12 =
    [0x01, 0x01, 0x00, 0x00, 0x00, 0x10, 0x00, 0x00, 0x00, 0x11, 0x00, 0x00] := by decide
theorem test_decode_linearNb : decode (words [0x001, 1, 2, 3, 4, 5, 6]) =
    .ok (.linearNb { inp := 1, out := 2, w := 3, b := 4, nIn := 5, nOut := 6 }) := by decide
theorem test_decode_rnn : decode (words [0x002, 1, 2, 3, 4, 5, 6, 7, 8, 9, 10]) =
    .ok (.rnn { x := 1, wih := 2, whh := 3, bih := 4, bhh := 5, h := 6, t := 7, nIn := 8, nHid := 9, seq := 10 }) := by
  decide
theorem test_decode_lstm : decode (words [0x003, 1, 2, 3, 4, 5, 6, 7, 8, 9, 10, 11]) =
    .ok (.lstm { x := 1, wih := 2, whh := 3, bih := 4, bhh := 5, h := 6, c := 7, g := 8, nIn := 9, nHid := 10,
                 seq := 11 }) := by decide
theorem test_decode_lstmF : decode (words [0x103, 11, 10, 9, 8, 7, 6, 5, 4, 3, 2, 1]) =
    .ok (.lstmF { x := 11, wih := 10, whh := 9, bih := 8, bhh := 7, h := 6, c := 5, g := 4, nIn := 3, nHid := 2,
                  seq := 1 }) := by decide
theorem test_decode_conv2d : decode (words [0x004, 1, 2, 3, 4, 5, 6, 7, 8, 9, 10]) =
    .ok (.conv2d { inp := 1, out := 2, w := 3, b := 4, h := 5, wd := 6, cin := 7, cout := 8, kh := 9, kw := 10 }) := by
  decide
theorem test_decode_gateFusion : decode (words [0x010, 1, 2, 3, 4, 5, 6, 7, 8, 9, 10]) =
    .ok (.gateFusion { x1 := 1, x2 := 2, w1 := 3, w2 := 4, b1 := 5, b2 := 6, out := 7, n1 := 8, n2 := 9,
                       nOut := 10 }) := by decide
theorem test_decode_gateFusionTanh : decode (words [0x110, 1, 2, 3, 4, 5, 6, 7, 8, 9, 10]) =
    .ok (.gateFusionTanh { x1 := 1, x2 := 2, w1 := 3, w2 := 4, b1 := 5, b2 := 6, out := 7, n1 := 8, n2 := 9,
                           nOut := 10 }) := by decide
theorem test_decode_gateFusionSig : decode (words [0x210, 1, 2, 3, 4, 5, 6, 7, 8, 9, 10]) =
    .ok (.gateFusionSig { x1 := 1, x2 := 2, w1 := 3, w2 := 4, b1 := 5, b2 := 6, out := 7, n1 := 8, n2 := 9,
                          nOut := 10 }) := by decide
theorem test_decode_add : decode (words [0x020, 1, 2, 3, 4]) = .ok (.add 1 2 3 4) := by decide
theorem test_decode_had : decode (words [0x021, 1, 2, 3, 4]) = .ok (.had 1 2 3 4) := by decide
theorem test_decode_copy : decode (words [0x022, 1, 2, 3]) = .ok (.copy 1 2 3) := by decide
theorem test_decode_fill : decode (words [0x023, 1, 2, 0xABCD8000]) = .ok (.fill 1 2 0x8000) := by decide
theorem test_decode_actId : decode (words [0x030, 1, 2, 3]) = .ok (.actId 1 2 3) := by decide
theorem test_decode_actTanh : decode (words [0x130, 1, 2, 3]) = .ok (.actTanh 1 2 3) := by decide
theorem test_decode_actSig : decode (words [0x230, 1, 2, 3]) = .ok (.actSig 1 2 3) := by decide
theorem test_decode_net : decode (words [0x040, 1, 2, 3, 4]) =
    .ok (.net { list := 1, count := 2, input := 3, inLen := 4 }) := by decide
theorem test_decode_accSet : decode (words [0x050, 3, 0x80000000]) = .ok (.accSet 3 0x80000000) := by decide
theorem test_decode_accB : decode (words [0x051, 5, 0xFFFF8000]) = .ok (.accB 5 0x8000) := by decide
theorem test_decode_mac2 : decode (words [0x052, 0, 0x20001000, 0x40003000]) =
    .ok (.mac2 0 { lane0 := 0x1000, lane1 := 0x2000 } { lane0 := 0x3000, lane1 := 0x4000 }) := by decide
theorem test_decode_mac1 : decode (words [0x053, 0, 0x12348000, 0xABCD7000]) = .ok (.mac1 0 0x8000 0x7000) := by
  decide
theorem test_decode_req : decode (words [0x054, 14]) = .ok (.req 14) := by decide
theorem test_decode_actsId : decode (words [0x055, 0xFFFF8000]) = .ok (.actsId 0x8000) := by decide
theorem test_decode_actsTanh : decode (words [0x155, 0x4000]) = .ok (.actsTanh 0x4000) := by decide
theorem test_decode_actsSig : decode (words [0x255, 0xC000]) = .ok (.actsSig 0xC000) := by decide

theorem test_decode_refuses :
    decode (words [0x1101]) = .error (.illegalHeader 0x1101) ∧ decode (words [0x301]) = .error (.illegalHeader 0x301) ∧
      decode (words [0x310]) = .error (.illegalHeader 0x310) ∧ decode (words []) = .error (.illegalHeader 0) ∧
      decode (words [0x051, 15]) = .error (.badIndex 15) ∧ decode [] = .error .truncated := by decide

theorem test_decodeTableWord : decodeTableWord 32 0x254 = none ∧ decodeTableWord 32 0x255 = some (.actsSig 0) := by
  decide

/-! ### Vectors (95_test_vectors.md) -/

/-- Memory with the FixedScalars `vs` from `p` on. -/
def putAll (m : Memory) (p : Nat) : List FixedScalar → Memory
  | [] => m
  | v :: vs => putAll (m.st16 p v) (p + 2) vs

/-- The state after reset, CMD_ADDR 0x200, with tensors in memory. -/
def withTensors (ts : List (Nat × List FixedScalar)) : State :=
  { State.reset with cmdAddr := 0x200, mem := ts.foldl (fun m t => putAll m t.1 t.2) { cells := [] } }

/-- What `f` sees of the state a command leaves. -/
def after {α : Type} (i : Instr) (s : State) (f : State → α) : Option α :=
  match exec i s with
  | .next t => some (f t)
  | .fault _ => none
  | .refused _ => none

theorem test_accB : after (.accB 0 0x0800) State.reset (fun t => (t.getAcc 0, t.done)) = some (0x00800000, true) := by
  decide
theorem test_accB_15 : after (.accB 15 0x0800) State.reset (fun t => t.statusWord) = some 0x104 := by decide
theorem test_accSet : after (.accSet 14 0x80000000) State.reset (fun t => t.getAcc 14) = some 0x80000000 := by decide
theorem test_mac2 : after (.mac2 0 ⟨0x1000, 0x2000⟩ ⟨0x1000, 0x1000⟩) (State.reset.setAcc 0 0x00800000)
    (fun t => t.getAcc 0) = some 0x03800000 := by decide
theorem test_mac1 : after (.mac1 0 0xF000 0x1000) (State.reset.setAcc 0 0x03800000) (fun t => t.getAcc 0) =
    some 0x02800000 := by decide
theorem test_req : after (.req 1) (State.reset.setAcc 1 0x08000000) (fun t => t.sres) = some 0xFFFF8000 := by decide

theorem test_add : after (.add 0x1000 0x1010 0x1100 3)
    (withTensors [(0x1000, [0x7FFF, 0x8000, 0x1000]), (0x1010, [0x0001, 0xFFFF, 0xF000])])
    (fun t => (t.mem.tensor 0x1100 3, t.result)) = some ([0x8000, 0x7FFF, 0x0000], 0x1100) := by decide
theorem test_had : after (.had 0x1000 0x1010 0x1100 3)
    (withTensors [(0x1000, [0x7FFF, 0x8000, 0xFFFF]), (0x1010, [0x0001, 0xFFFF, 0x0001])])
    (fun t => t.mem.tensor 0x1100 3) = some [0x0007, 0x0008, 0xFFFF] := by decide
theorem test_had_in_place : after (.had 0x1000 0x1000 0x1000 2) (withTensors [(0x1000, [0x7FFF, 0x8000])])
    (fun t => t.mem.tensor 0x1000 2) = some [0xFFF0, 0x0000] := by decide
theorem test_copy : after (.copy 0x1000 0x1100 3) (withTensors [(0x1000, [1, 2, 3])])
    (fun t => t.mem.tensor 0x1100 4) = some [1, 2, 3, 0] := by decide
theorem test_fill : after (.fill 0x3000 2 0x0800) (withTensors []) (fun t => t.mem.tensor 0x3000 3) =
    some [0x0800, 0x0800, 0] := by decide
theorem test_actTanh : after (.actTanh 0x1000 0x1100 2) (withTensors [(0x1000, [0x5000, 0xB000])])
    (fun t => t.mem.tensor 0x1100 2) = some [0x1000, 0xF000] := by decide
theorem test_actSig : after (.actSig 0x1000 0x1000 2) (withTensors [(0x1000, [0x4000, 0xC000])])
    (fun t => t.mem.tensor 0x1000 2) = some [0x1000, 0] := by decide
theorem test_actId : after (.actId 0x1000 0x1100 2) (withTensors [(0x1000, [0x5000, 0xB000])])
    (fun t => t.mem.tensor 0x1100 2) = some [0x5000, 0xB000] := by decide
theorem test_actsId : after (.actsId 0x8000) State.reset (fun t => t.sres) = some 0xFFFF8000 := by decide
theorem test_actsTanh : after (.actsTanh 0x8000) State.reset (fun t => t.sres) = some 0xFFFFF000 := by decide
theorem test_actsSig : after (.actsSig 0x8000) State.reset (fun t => t.sres) = some 0 := by decide

/-- Bucket 4 of the EXAMPLE LUT. -/
def lutOfBucket4 : Lut :=
  { tanhM := Vector.replicate 16 1420, tanhQ := Vector.replicate 16 6961110, sigM := Vector.replicate 16 758,
    sigQ := Vector.replicate 16 9160360 }

theorem test_actf_bucket4 :
    actf lutOfBucket4 .tanh 0x1000 = 0x0C2F ∧ actf lutOfBucket4 .tanh 0xF000 = 0xF3D0 ∧
      actf lutOfBucket4 .sigmoid 0x1000 = 0x0BB2 ∧ actf lutOfBucket4 .sigmoid 0xF000 = 0x044C := by decide

/-- The identity case of 95_test_vectors.md 1.2. -/
def identityState : State :=
  withTensors [(0x1000, [0x1000, 0x2000, 0x3000, 0x4000]), (0x2000, [0x1000, 0, 0, 0, 0, 0x1000, 0, 0])]

/-- The operands of the identity case. -/
def identityOps : LinearOps := { inp := 0x1000, out := 0x1100, w := 0x2000, b := 0x2100, nIn := 4, nOut := 2 }

theorem test_linear : after (.linear identityOps) identityState
    (fun t => (t.mem.tensor 0x1100 2, t.lastPasses, t.statusWord)) = some ([0x1000, 0x2000], 1, 2) := by decide
theorem test_linear_checks :
    after (.linear { identityOps with inp := 0x1001 }) identityState (fun t => t.statusWord) = some 0x404 ∧
      after (.linear { identityOps with w := 0xFFF2 }) identityState (fun t => t.statusWord) = some 0x504 ∧
      after (.linear { identityOps with nIn := 0, inp := 0x1001 }) identityState (fun t => t.statusWord) = some 0x304 ∧
      after (.linear { identityOps with inp := 0xFFFE, out := 0x1101 }) identityState (fun t => t.statusWord) =
        some 0x504 := by decide
theorem test_linearNb_ignores_b : after (.linearNb { identityOps with b := 0xFFFFF, nIn := 3, nOut := 1 })
    (withTensors [(0x1000, [0x1000, 0xF000, 0x0800]), (0x2000, [0, 0, 0xFFFF])])
    (fun t => (t.mem.tensor 0x1100 1, t.done)) = some ([0xFFFF], true) := by decide
theorem test_passes : passes 0x8116 37 = 5 ∧
    (sched 0x8116 37).map (fun t => (t.width, t.base)) = [(15, 0), (15, 15), (4, 30), (2, 34), (1, 36)] := by decide

theorem test_conv2d_border :
    after (.conv2d { inp := 0x1000, out := 0x1100, w := 0x2000, b := 0x2100, h := 1, wd := 1, cin := 1, cout := 1,
                     kh := 3, kw := 3 })
      (withTensors [(0x1000, [0x2000]), (0x2000, [0x7FFF, 0x7FFF, 0x7FFF, 0x7FFF, 0x0800, 0x7FFF, 0x7FFF, 0x7FFF, 0x7FFF]),
        (0x2100, [0x0400])]) (fun t => t.mem.tensor 0x1100 2) = some [0x1400, 0] := by decide
theorem test_conv2d_even_kernel :
    after (.conv2d { inp := 0x1000, out := 0x1100, w := 0x2000, b := 0x2100, h := 1, wd := 1, cin := 1, cout := 1,
                     kh := 2, kw := 3 }) (withTensors []) (fun t => t.statusWord) = some 0x304 := by decide

/-- The operands of the GATEFUSION cases: 2 outputs of 2 and 1 inputs (95_test_vectors.md 2.9). -/
def gateCase : GateOps :=
  { x1 := 0x1000, x2 := 0x1100, w1 := 0x1200, w2 := 0x1300, b1 := 0x1400, b2 := 0x1500, out := 0x1600, n1 := 2, n2 := 1,
    nOut := 2 }

/-- Its tensors. -/
def gateState : State :=
  withTensors [(0x1000, [0x1000, 0xF800]), (0x1100, [0x0400]), (0x1200, [0x1000, 0x1000, 0x2000, 0]),
    (0x1300, [0x1000, 0xC000]), (0x1400, [0x0100, 0]), (0x1500, [0x0100, 0x0800])]

theorem test_gateFusion : after (.gateFusion gateCase) gateState (fun t => (t.mem.tensor 0x1600 2, t.result)) =
    some ([0x0E00, 0x1800], 0x1600) := by decide
/-- The EXAMPLE LUT at bucket 6, of 1.5. -/
theorem test_gateFusionTanh :
    after (.gateFusionTanh gateCase)
      { gateState with lut := { State.reset.lut with tanhM := Vector.replicate 16 594,
                                                     tanhQ := Vector.replicate 16 11536332 } }
      (fun t => t.mem.elem 0x1600 1) = some 0x0E7B := by decide
theorem test_gateFusionSig :
    after (.gateFusionSig gateCase)
      { gateState with lut := { State.reset.lut with sigM := Vector.replicate 16 563,
                                                     sigQ := Vector.replicate 16 10257552 } }
      (fun t => t.mem.elem 0x1600 1) = some 0x0D14 := by decide

/-- The LUT premises of 44_recurrent.md R294: sigmoid(0) = 2048, tanh(0) = 0. -/
def zeroLut : Lut := { State.reset.lut with sigQ := Vector.replicate 16 0x00800000 }

/-- The operands of the zero-weight step (44_recurrent.md R294). -/
def lstmOne : LstmOps :=
  { x := 0x1000, wih := 0x2000, whh := 0x2100, bih := 0x2200, bhh := 0x2300, h := 0x3000, c := 0x3010, g := 0x3020,
    nIn := 1, nHid := 1, seq := 1 }

/-- With C = 1.0, f ⊙ c is 0.5 and the other products are 0 (44_recurrent.md R292). -/
theorem test_lstm : after (.lstm lstmOne) { withTensors [(0x3010, [0x1000])] with lut := zeroLut }
    (fun t => (t.mem.tensor 0x3020 4, t.mem.elem 0x3000 0, t.mem.elem 0x3010 0)) =
      some ([0x0800, 0x0800, 0, 0x0800], 0, 0x0800) := by decide
theorem test_lstmF : after (.lstmF lstmOne) { withTensors [(0x3010, [0x1000])] with lut := zeroLut }
    (fun t => (t.mem.tensor 0x3020 4, t.mem.elem 0x3000 0, t.mem.elem 0x3010 0)) =
      some ([0x0800, 0x0800, 0, 0x0800], 0, 0x0800) := by decide

/-- The operands of the comparison of 44_recurrent.md R296. -/
def rnnOne : RnnOps :=
  { x := 0x1000, wih := 0x2000, whh := 0x2100, bih := 0x2200, bhh := 0x2300, h := 0x3000, t := 0x3100, nIn := 1,
    nHid := 1, seq := 1 }

theorem test_rnn_requantizes_twice :
    after (.rnn rnnOne) (withTensors [(0x1000, [1]), (0x2000, [0x0800]), (0x2100, [0x0800]), (0x3000, [1])])
      (fun t => (t.mem.elem 0x3000 0, t.mem.tensor 0x3100 2, t.result)) = some (0, [0, 0], 0x3000) := by decide

/-- The records of a two-layer network of one channel each (43_network_driver.md R275). -/
def netRecord0 : LinearOps := { inp := 0, out := 0, w := 0x2000, b := 0x2010, nIn := 1, nOut := 1 }

/-- The second record. -/
def netRecord1 : LinearOps := { inp := 0, out := 0, w := 0x2020, b := 0x2030, nIn := 1, nOut := 1 }

/-- The operands of that network. -/
def netOps2 : NetOps := { list := 0x400, count := 2, input := 0x1000, inLen := 1 }

/-- The state it starts from: its list and tensors in memory, the scratch halves set. -/
def netState : State :=
  let s := withTensors [(0x1000, [0x1000]), (0x2000, [0x2000]), (0x2010, [0x0800]), (0x2020, [0x0800]), (0x2030, [0x0100])]
  { s with
    mem := (s.mem.storeBytes 0x400 (encodeBytes (.linear netRecord0))).storeBytes 0x440 (encodeBytes (.linear netRecord1))
    scratchA := 0x4000, scratchB := 0x4100, scratchCap := 1 }

/-- 2.0 · 1.0 + 0.5 = 2.5 into half A, 0.5 · 2.5 + 0.0625 into half B. -/
theorem test_net : after (.net netOps2) netState
    (fun t => (t.mem.elem 0x4000 0, t.mem.elem 0x4100 0, t.result, t.layerIdx)) =
      some (0x2800, 0x1500, 0x4100, 2) := by decide +kernel
theorem test_net_unsupported :
    after (.net netOps2) { netState with mem := netState.mem.storeBytes 0x440 [0x20, 0, 0, 0] }
      (fun t => (t.statusWord, t.faultAddr, t.layerIdx, t.mem.elem 0x4000 0)) = some (0x204, 0x440, 1, 0) := by decide +kernel

/-! ### One step, and the host's side -/

theorem test_step_runs_placed_word :
    (match step ({ State.reset.setAcc 0 0x00003000 with cmdAddr := 0x200 }.withFetchWord 32 0x54) with
      | .next t => some (t.sres, t.statusWord)
      | _ => none) = some (3, 2) := by decide +kernel
theorem test_step_reports_bad_descriptor :
    (match step { State.reset.start with cmdAddr := 0xFFC4 } with
      | .next t => some (t.statusWord, t.faultAddr)
      | _ => none) = some (0x504, 0xFFC4) := by decide
/-- A LINEAR that will fail (N_IN = 0) in flight, OUT 4 bytes at 0x1100 (20_memory.md R90, R98). -/
def failingInFlight (a : List Event) : State :=
  { State.reset.start with
    cmdAddr := 0x200, agenda := a
    mem := Memory.storeBytes { cells := [] } 0x200 (words [0x101, 0x1000, 0x1100, 0x2000, 0x2100, 0, 2]) }

theorem test_failing_command_keeps_footprint :
    (failingInFlight []).inFlight.writes = [{ base := 0x1100, len := 4 }] ∧
      (match step (failingInFlight [.memWrite 0x1103 7]) with
        | .fault f => some f
        | _ => none) = some (.footprintRace 0x1103) ∧
      (match step (failingInFlight [.assertReset]) with
        | .next t => some (t.draws, t.busy)
        | _ => none) = some (4 + 79, false) := by decide +kernel

/-- A one-input LINEAR layer from `inp` to `out`. -/
def linearStep (inp out nOut : Nat) (half : Bool) : LayerStep :=
  .linear { hasBias := false, inp := inp, out := out, w := 0x2000, b := 0, nIn := 1, nOut := nOut } half

/-- Two records with one H, and two that write one half (20_memory.md R91, D30; log entry 10). -/
theorem test_steps_overlap :
    stepOverlaps [] [.rnn { rnnArgs rnnOne with t := 0x3200 }] (.rnn (rnnArgs rnnOne)) = [tensorRange 0x3000 1] ∧
      stepOverlaps [] [linearStep 0x1000 0x4000 1 false] (linearStep 0x1000 0x4000 2 false) = [] ∧
      stepOverlaps [] [linearStep 0x1000 0x4002 1 true] (linearStep 0x1000 0x4000 2 false) = [tensorRange 0x4000 2] ∧
      stepOverlaps [] [] (.rnn { rnnArgs rnnOne with h := 0x1000 }) = [tensorRange 0x1000 1, tensorRange 0x3100 2] := by
  decide

/-- Layer 0 writes two elements of half A, the second in a fixed range; layer 2 writes the first again. The whole range
of layer 0 is free at the end (20_memory.md R102). A step that overlaps itself is free as it writes. -/
theorem test_overlapped_half_is_free :
    netOverlaps [tensorRange 0x4002 1]
        [linearStep 0x1000 0x4000 2 false, linearStep 0x4000 0x5000 1 true, linearStep 0x5000 0x4000 1 false] =
          [tensorRange 0x4000 2] ∧
      netOverlaps [] [linearStep 0x1000 0x1000 1 false] = [] ∧
      (stepRun 2 State.reset.lut State.reset.run (linearStep 0x1000 0x1000 1 false)).draws = 1 := by decide +kernel

/-- Two RNN records that share the scratch tensor T alone: the steps compute each H by the rule, and of what they wrote
T alone is freed at the end (20_memory.md R91, 44_recurrent.md R295; tanh of 5.0 saturates, 42_activation.md R242). -/
theorem test_shared_scratch_keeps_h :
    let s := withTensors [(0x2200, [0x5000])]
    let steps : List LayerStep := [.rnn (rnnArgs rnnOne), .rnn { rnnArgs rnnOne with h := 0x3010 }]
    let x := steps.foldl (stepRun s.tileCfg s.lut) s.run
    netOverlaps (netFixed s { list := 0x400, count := 2, input := 0x1000, inLen := 1 } steps) steps =
        [tensorRange 0x3100 2, tensorRange 0x3100 2] ∧
      x.mem.elem 0x3000 0 = 0x1000 ∧ x.mem.elem 0x3010 0 = 0x1000 ∧ x.draws = 0 := by decide +kernel

theorem test_tileCfg_write : (State.reset.writeReg 0x24 0xFFFFFFFF).regValue 0x24 = 0xFFFE := by decide

/-! ### Witnesses: the hypotheses of each statement hold together -/

/-- The next state of an outcome. -/
def nextOf : Host.Outcome State Fault Refusal → Option State
  | .next t => some t
  | .fault _ => none
  | .refused _ => none

theorem eq_next_of {o : Host.Outcome State Fault Refusal} {t : State} (h : nextOf o = some t) : o = .next t := by
  cases o <;> simp_all [nextOf]

/-- A range that meets no other is apart from them. -/
theorem apart_of_meets {r : Range} {rs : List Range} (h : r.meets rs = false) : Apart r rs :=
  Range.meets_eq_false.1 h

/-- The state after reset with a descriptor address: memory lists nothing. -/
def idle : State := { State.reset with cmdAddr := 0x200 }

theorem idle_ready : Ready idle := ⟨Memory.wf_nil, by decide⟩

theorem test_witness_DecodeReadsBackEncode : WellFormed (.mac2 14 ⟨0x8000, 0x7FFF⟩ ⟨1, 0xFFFF⟩) ∧
    decode (encodeBytes (.mac2 14 ⟨0x8000, 0x7FFF⟩ ⟨1, 0xFFFF⟩)) = .ok (.mac2 14 ⟨0x8000, 0x7FFF⟩ ⟨1, 0xFFFF⟩) := by
  decide

theorem test_witness_ExactlyTheLegalHeadersDecode :
    64 ≤ (words [0x54, 14]).length ∧ wordAt (words [0x54, 14]) 0 ∈ legalHeaders ∧
      64 ≤ (words [0x54, 15]).length ∧ 14 < (wordAt (words [0x54, 15]) 1).toNat := by decide

/-- The words of a MAC1, and the same with other upper halves and another word behind its layout. -/
def mac1Words (upper : Word) : Nat → Word := fun j =>
  if j = 0 then 0x53 else if j = 1 then 14 else if j = 2 then upper ||| 0x8000 else if j = 3 then upper ||| 7 else upper

theorem test_witness_UnnamedWordsAreIgnored :
    decodeWords (mac1Words 0) = .ok (.mac1 14 0x8000 7) ∧
      ∀ j, j ≤ (encodeOperands (.mac1 14 0x8000 7)).length →
        if j ∈ value16Words (.mac1 14 0x8000 7) then
          (mac1Words 0xABCD0000 j).setWidth 16 = (mac1Words 0 j).setWidth 16
        else mac1Words 0xABCD0000 j = mac1Words 0 j := by
  refine ⟨by decide, fun j hj => ?_⟩
  have : j ≤ 3 := hj
  interval_cases j <;> decide

/-- A state with a command in flight, its descriptor in the last legal place of memory. -/
def inFlightState (a : List Event) : State :=
  { State.reset.start with
    cmdAddr := 0xFFC0, mem := Memory.storeBytes { cells := [] } 0xFFC0 (words [0x51, 0, 0x1000]), agenda := a }

theorem test_witness_StepRunsTheDecodedCommand :
    (inFlightState []).busy = true ∧ (inFlightState []).inReset = false ∧ (inFlightState []).cmdAddr.toNat % 4 = 0 ∧
      (inFlightState []).platform.memOk 0xFFC0 64 = true ∧
      decode ((inFlightState []).mem.bytes 0xFFC0 64) = .ok (.accB 0 0x1000) ∧ (inFlightState []).agenda = [] ∧
      (inFlightState [.engine, .wait]).agenda = .engine :: [.wait] := by decide

/-- The turns in which nothing happens: idle, in reset, and a wait with a command in flight. -/
theorem test_witness_StepRunsTheDecodedCommand_idle :
    idle.busy = false ∧ idle.agenda = [] ∧ ({ idle with agenda := [.engine] } : State).agenda = .engine :: [] ∧
      ({ idle with inReset := true } : State).inReset = true ∧
      (inFlightState [.wait]).agenda = .wait :: [] := by decide

theorem test_witness_BadDescriptorsEndWithTheirError :
    let s (a : Word) (as : List Event) : State := { inFlightState as with cmdAddr := a }
    (s 0xFFC2 []).busy = true ∧ (s 0xFFC2 []).inReset = false ∧ (s 0xFFC2 []).agenda = [] ∧
      (s 0xFFC2 [.engine]).agenda = .engine :: [] ∧ (s 0xFFC2 []).cmdAddr.toNat % 4 ≠ 0 ∧
      (s 0xFFC4 []).cmdAddr.toNat % 4 = 0 ∧ (s 0xFFC4 []).platform.memOk (s 0xFFC4 []).cmdAddr.toNat 64 = false ∧
      (s 0 []).platform.memOk (s 0 []).cmdAddr.toNat 64 = true ∧ (s 0 []).mem.ldw (s 0 []).cmdAddr.toNat ∉ legalHeaders := by
  decide

theorem test_witness_BadDescriptorsEndWithTheirError_index :
    let m := Memory.storeBytes { cells := [] } 0x100 (words [0x54, 15])
    m.ldw 0x100 ∈ ([0x050, 0x051, 0x052, 0x053, 0x054] : List Word) ∧ 14 < (m.ldw 0x104).toNat := by decide

theorem test_witness_FirstFailedCheckIsReported :
    commandError idle (.req 15) = some .illegalCommand ∧
      commandError idle (.add 0x1000 0x1000 0x1000 0) = some .shapeMismatch ∧
      commandError idle (.copy 0xFFFE 0x1001 1) = some .misaligned ∧
      commandError idle (.copy 0xFFFE 0x1001 2) = some .busError := by decide

theorem test_witness_accumulators : (14 : Word).toNat ≤ 14 ∧ (0 : Word).toNat ≤ 14 := by decide

/-- ADD and HAD with DST = A, B apart, up to the last byte of memory. -/
theorem test_witness_binary : Ready idle ∧ commandError idle (.add 0xFFFE 0x1000 0xFFFE 1) = none ∧
    commandError idle (.had 0xFFFE 0x1000 0xFFFE 1) = none ∧ Apart (tensorRange 0xFFFE 1) [idle.descRange] ∧
    InPlaceOrApart 0xFFFE 0xFFFE 1 ∧ InPlaceOrApart 0xFFFE 0x1000 1 ∧ (0 : Nat) < (1 : Word).toNat :=
  ⟨idle_ready, by decide, by decide, apart_of_meets (by decide), .inl rfl, .inr (apart_of_meets (by decide)), by decide⟩

/-- COPY, FILL and ACT, with DST just behind SRC. -/
theorem test_witness_unary : Ready idle ∧ commandError idle (.copy 0x1000 0x1004 2) = none ∧
    commandError idle (.actId 0x1000 0x1004 2) = none ∧ commandError idle (.fill 0x1004 2 7) = none ∧
    Apart (tensorRange 0x1004 2) [idle.descRange] ∧ InPlaceOrApart 0x1004 0x1000 2 :=
  ⟨idle_ready, by decide, by decide, by decide, apart_of_meets (by decide), .inr (apart_of_meets (by decide))⟩

theorem test_witness_LargeMagnitudesSaturate :
    16384 ≤ (0x4000 : FixedScalar).toInt ∧ (0xC000 : FixedScalar).toInt ≤ -16384 ∧ (0x8000 : FixedScalar).toInt ≤ -16384 := by
  decide

theorem test_witness_BucketsInterpolate :
    ((15 : Nat) : Int) * 1024 ≤ (0x3FFF : FixedScalar).toInt ∧ (0x3FFF : FixedScalar).toInt < (((15 : Nat) : Int) + 1) * 1024 ∧
      ((0 : Nat) : Int) * 1024 ≤ (0 : FixedScalar).toInt := by decide

theorem test_witness_mirrors : -16384 < (0xC001 : FixedScalar).toInt ∧ (0xC001 : FixedScalar).toInt < 0 ∧
    -16384 < (0xFFFF : FixedScalar).toInt ∧ (0xFFFF : FixedScalar).toInt < 0 := by decide

theorem test_witness_TilesCoverEachChannelOnce : tileCfgLegal 0x8116 = true ∧ tileCfgLegal 2 = true := by decide

theorem test_witness_ScheduleIsGreedy :
    tileCfgLegal 0x8116 = true ∧ (0x8116 : Word).getLsbD 4 = true ∧ ({ width := 4, base := 30 } : Tile) ∈ sched 0x8116 37 ∧
      30 + 4 ≤ 37 := by decide

/-- LINEAR and LINEAR.NB, and with B below the other ranges. -/
theorem test_witness_linear : Ready idle ∧ commandError idle (.linear identityOps) = none ∧
    commandError idle (.linearNb identityOps) = none ∧
    Apart (tensorRange 0x1100 2) (linearReads idle true identityOps) ∧
    Apart (tensorRange 0x1100 2) (linearReads idle false identityOps) ∧ (1 : Nat) < identityOps.nOut.toNat :=
  ⟨idle_ready, by decide, by decide, apart_of_meets (by decide), apart_of_meets (by decide), by decide⟩

/-- A convolution of three channels over 2 by 2 pixels with a 3 by 1 kernel. -/
def convCase : ConvOps :=
  { inp := 0x1000, out := 0x1100, w := 0x2000, b := 0x2100, h := 2, wd := 2, cin := 3, cout := 2, kh := 3, kw := 1 }

theorem test_witness_ConvolutionResult : Ready idle ∧ commandError idle (.conv2d convCase) = none ∧
    Apart (tensorRange convCase.out.toNat (convCase.cout.toNat * convCase.h.toNat * convCase.wd.toNat))
      (convReads idle convCase) :=
  ⟨idle_ready, by decide, apart_of_meets (by decide)⟩

theorem test_witness_gates : Ready idle ∧ commandError idle (.gateFusion gateCase) = none ∧
    Apart (tensorRange gateCase.out.toNat gateCase.nOut.toNat) (gateReads idle gateCase) ∧ tileCfgLegal 0x1A = true :=
  ⟨idle_ready, by decide, apart_of_meets (by decide), by decide⟩

theorem lstmApart_of_meets {s : State} {o : LstmOps}
    (hw : (lstmWrites o).Pairwise (fun r q => r.meets [q] = false))
    (hr : ∀ r ∈ lstmWrites o, r.meets (lstmReads s o) = false) : LstmApart s o :=
  ⟨hw.imp apart_of_meets, fun r hm => apart_of_meets (hr r hm)⟩

theorem test_witness_lstm : Ready idle ∧ commandError idle (.lstm lstmOne) = none ∧ lstmOne.seq = 1 ∧
    LstmApart idle lstmOne :=
  ⟨idle_ready, by decide, by decide, lstmApart_of_meets (by decide) (by decide)⟩

theorem test_witness_SequencesUnroll_lstm : Ready idle ∧ commandError idle (.lstm { lstmOne with seq := 2 }) = none ∧
    LstmApart idle { lstmOne with seq := 2 } ∧ ({ lstmOne with seq := 2 } : LstmOps).seq.toNat = 1 + 1 :=
  ⟨idle_ready, by decide, lstmApart_of_meets (by decide) (by decide), by decide⟩

theorem rnnApart_of_meets {s : State} {o : RnnOps}
    (hw : (rnnWrites o).Pairwise (fun r q => r.meets [q] = false))
    (hr : ∀ r ∈ rnnWrites o, r.meets (rnnReads s o) = false) : RnnApart s o :=
  ⟨hw.imp apart_of_meets, fun r hm => apart_of_meets (hr r hm)⟩

theorem test_witness_rnn : Ready idle ∧ commandError idle (.rnn rnnOne) = none ∧ rnnOne.seq = 1 ∧ RnnApart idle rnnOne :=
  ⟨idle_ready, by decide, by decide, rnnApart_of_meets (by decide) (by decide)⟩

theorem test_witness_SequencesUnroll_rnn : Ready idle ∧ commandError idle (.rnn { rnnOne with seq := 3 }) = none ∧
    RnnApart idle { rnnOne with seq := 3 } ∧ ({ rnnOne with seq := 3 } : RnnOps).seq.toNat = 2 + 1 :=
  ⟨idle_ready, by decide, rnnApart_of_meets (by decide) (by decide), by decide⟩

theorem netState_ready : Ready netState := ⟨by decide +kernel, by decide +kernel⟩

theorem test_witness_TwoLinearLayersPingPong : Ready netState ∧ TwoLinears netState netOps2 netRecord0 netRecord1 ∧
    HalvesApart netState netOps2 netRecord0 netRecord1 :=
  ⟨netState_ready,
    ⟨by decide, by decide, by decide, by decide +kernel, by decide +kernel, by decide, by decide, by decide,
      by decide +kernel⟩,
    apart_of_meets (by decide +kernel), apart_of_meets (by decide +kernel)⟩

theorem test_witness_ValidatedNetCompletes : ∃ steps last, netPlan netState netOps2 = .ok (steps, last) :=
  ⟨[.linear { linearArgs true netRecord0 with inp := 0x1000, out := 0x4000 } false,
      .linear { linearArgs true netRecord1 with inp := 0x4000, out := 0x4100 } true],
    { len := 1, cur := 0x4100, half := false }, by decide +kernel⟩

theorem test_witness_LayersRunAsTheirCommands_linear : ∃ st c, planLayer netState 0x400 (firstCursor netOps2) = .ok (st, c) :=
  ⟨.linear { linearArgs true netRecord0 with inp := 0x1000, out := 0x4000 } false,
    { len := 1, cur := 0x4000, half := true }, by decide +kernel⟩

/-- `netState` with another record in the place of the first. -/
def netStateWith (i : Instr) : State := { netState with mem := netState.mem.storeBytes 0x400 (encodeBytes i) }

/-- A convolution record of one element. -/
def convRecord : ConvOps :=
  { inp := 0, out := 0, w := 0x2000, b := 0x2010, h := 1, wd := 1, cin := 1, cout := 1, kh := 1, kw := 1 }

theorem test_witness_LayersRunAsTheirCommands_conv :
    ∃ st c, planLayer (netStateWith (.conv2d convRecord)) 0x400 (firstCursor netOps2) = .ok (st, c) :=
  ⟨.conv { convArgs convRecord with inp := 0x1000, out := 0x4000 } false, { len := 1, cur := 0x4000, half := true }, by
    decide +kernel⟩
theorem test_witness_LayersRunAsTheirCommands_lstm :
    ∃ st c, planLayer (netStateWith (.lstmF lstmOne)) 0x400 (firstCursor netOps2) = .ok (st, c) :=
  ⟨.lstm true { lstmArgs lstmOne with x := 0x1000 }, { len := 1, cur := 0x3000, half := false }, by decide +kernel⟩
theorem test_witness_LayersRunAsTheirCommands_rnn :
    ∃ st c, planLayer (netStateWith (.rnn rnnOne)) 0x400 (firstCursor netOps2) = .ok (st, c) :=
  ⟨.rnn { rnnArgs rnnOne with x := 0x1000 }, { len := 1, cur := 0x3000, half := false }, by decide +kernel⟩

/-- `netState` with a third record, and an LSTM in the place of the second: LINEAR, LSTM, LINEAR
(43_network_driver.md R275). -/
def mixedState : State :=
  let s := netStateWith (.linear netRecord0)
  { s with
    mem := (s.mem.storeBytes 0x440 (encodeBytes (.lstm { lstmOne with wih := 0x5000, whh := 0x5100 }))).storeBytes 0x480
      (encodeBytes (.linear netRecord1)) }

/-- The operands of that network. -/
def netOps3 : NetOps := { netOps2 with count := 3 }

/-- The model's own run of that network: half A, then H, then half B. -/
theorem test_net_mixed : after (.net netOps3) mixedState
    (fun t => (t.mem.elem 0x4000 0, t.mem.elem 0x4100 0, t.result, t.layerIdx)) =
      some (0x2800, 0x0100, 0x4100, 3) := by decide +kernel

/-- A network whose layers' outputs meet nothing else keeps its outputs apart. -/
theorem netApart_of_meets {s : State} {o : NetOps}
    (own : ∀ i, i < o.count.toNat →
      (layerWrites (netCommand s o i)).Pairwise (fun r q => r.meets [q] = false) ∧
        ∀ r ∈ layerWrites (netCommand s o i), r.meets (layerReads s (netCommand s o i)) = false)
    (fixed : ∀ i, i < o.count.toNat → ∀ j, j < o.count.toNat → ∀ r ∈ layerWrites (netCommand s o i),
      r.meets ({ base := o.list.toNat, len := 64 * o.count.toNat } :: tensorRange o.input.toNat o.inLen.toNat ::
        (layerReads s (netCommand s o j)).drop 2) = false)
    (others : ∀ j, j < o.count.toNat → ∀ i, i < j →
      (writesHalf (recordWord s o i 0) = true ∧ writesHalf (recordWord s o j 0) = true ∧
          halfBefore s o i = halfBefore s o j) ∨
        ∀ r ∈ layerWrites (netCommand s o i), r.meets (layerWrites (netCommand s o j)) = false) : NetApart s o :=
  ⟨fun i hi => ⟨(own i hi).1.imp apart_of_meets, fun r hr => apart_of_meets ((own i hi).2 r hr)⟩,
    fun i j hi hj r hr => apart_of_meets (fixed i hi j hj r hr),
    fun i j hij hj => (others j hj i hij).imp_right fun h r hr => apart_of_meets (h r hr)⟩

theorem test_witness_LayersRunAsTheirCommands_run : NetPasses mixedState netOps3 ∧ NetApart mixedState netOps3 ∧
    netOps3.count = 3 ∧ decode (mixedState.mem.bytes 0x400 64) = .ok (.linear netRecord0) ∧
    decode (mixedState.mem.bytes 0x440 64) = .ok (.lstm { lstmOne with wih := 0x5000, whh := 0x5100 }) ∧
    decode (mixedState.mem.bytes 0x480 64) = .ok (.linear netRecord1) :=
  ⟨⟨by decide +kernel, by decide +kernel⟩,
    netApart_of_meets (by decide +kernel) (by decide +kernel) (by decide +kernel), by decide, by decide +kernel,
    by decide +kernel, by decide +kernel⟩

/-- Two layers that write the same half, the other disjunct of `NetApart`: three LINEAR records. -/
theorem test_witness_LayersRunAsTheirCommands_sameHalf :
    let s : State := { netState with mem := netState.mem.storeBytes 0x480 (encodeBytes (.linear netRecord1)) }
    writesHalf (recordWord s netOps3 0 0) = true ∧ writesHalf (recordWord s netOps3 2 0) = true ∧
      halfBefore s netOps3 0 = halfBefore s netOps3 2 := by decide +kernel

theorem test_witness_NetReportsItsFirstError_operands :
    netOwnError netState { netOps2 with count := 0 } = some .shapeMismatch ∧
      netOwnError netState { netOps2 with list := 0x402 } = some .misaligned ∧
      netOwnError netState { netOps2 with list := 0xFFC0 } = some .busError := by decide +kernel

/-- Record 1 with another header, a broken chain, a half past the memory's end, an odd weight tensor, a bias past the
memory's end; record 0 passes. -/
theorem test_witness_NetReportsItsFirstError_records :
    let s (p : Nat) (bs : List Byte) : State := { netState with mem := netState.mem.storeBytes (0x440 + p) bs }
    netOwnError netState netOps2 = none ∧ netRecordError (s 0 [0x20]) netOps2 0 = none ∧ 1 < netOps2.count.toNat ∧
      netRecordError (s 0 [0x20]) netOps2 1 = some .unsupportedLayer ∧
      netRecordError (s 1 [0x03]) netOps2 1 = some .illegalCommand ∧
      netRecordError (s 2 [0x01]) netOps2 1 = some .illegalCommand ∧
      netRecordError (s 20 [0x02]) netOps2 1 = some .shapeMismatch ∧
      netRecordError (s 24 [0x02]) netOps2 1 = some .shapeMismatch ∧
      netRecordError (s 12 [0x21]) netOps2 1 = some .misaligned ∧
      netRecordError (s 18 [0x01]) netOps2 1 = some .busError ∧ NetPasses netState netOps2 :=
  ⟨by decide +kernel, by decide +kernel, by decide, by decide +kernel, by decide +kernel, by decide +kernel,
    by decide +kernel, by decide +kernel, by decide +kernel, by decide +kernel, by decide +kernel, by decide +kernel⟩

/-- The model's own answer at record 1: the code, the record's address, its index. -/
theorem test_net_record_errors :
    let go (p : Nat) (bs : List Byte) := after (.net netOps2)
      { netState with mem := netState.mem.storeBytes (0x440 + p) bs } fun t => (t.statusWord, t.faultAddr, t.layerIdx)
    go 1 [0x03] = some (0x104, 0x440, 1) ∧ go 24 [0x02] = some (0x304, 0x440, 1) ∧
      go 12 [0x21] = some (0x404, 0x440, 1) ∧ go 18 [0x01] = some (0x504, 0x440, 1) := by decide +kernel

theorem test_witness_StartTakesEffectOnlyWhenIdle :
    let s (b : Bool) (off : BitVec 10) (v : Word) : State := { idle with busy := b, agenda := [.regWrite off .word v] }
    (s true 0x3FC 3).inReset = false ∧ (s true 0x3FC 3).busy = true ∧ (0x3FC : BitVec 10).toNat % 4 = 0 ∧
      (s false 0x00C 3).busy = false ∧ (s false 4 3).agenda = .regWrite 4 .word 3 :: [] ∧
      (3 : Word).getLsbD 0 = true ∧ (2 : Word).getLsbD 0 = false := by decide

theorem test_witness_PlainRegistersHoldTheirValue :
    (plainOffset 0x00C ∧ plainOffset 0x030 ∧ plainOffset 0x100 ∧ plainOffset 0x1FC ∧ plainOffset 0x238) ∧
      namedOffset 0 ∧ namedOffset 0x030 ∧ namedOffset 0x100 ∧ namedOffset 0x238 := by
  unfold plainOffset namedOffset; decide

theorem test_witness_PlainRegistersHoldTheirValue_arrays : 15 < 16 ∧ 14 < 15 := by decide

theorem test_witness_IdAndReservedOffsets :
    (¬namedOffset 0x034 ∧ ¬namedOffset 0x0FC ∧ ¬namedOffset 0x23C ∧ ¬namedOffset 0x3FC) ∧ 0x3FC % 4 = 0 ∧ 0x3FC < 1024 := by
  unfold namedOffset; decide

theorem test_witness_HostRegisterReads :
    let s (b : Bool) (off : BitVec 10) : State := { idle with busy := b, agenda := [.regRead off .word] }
    (s true 0x23C).inReset = false ∧ (s true 0x23C).busy = true ∧ (0x23C : BitVec 10).toNat % 4 = 0 ∧
      (0x23C : BitVec 10).toNat ∉ [0x010, 0x014, 0x018, 0x01C, 0x020] ∧
      ¬(0x200 ≤ (0x23C : BitVec 10).toNat ∧ (0x23C : BitVec 10).toNat < 0x23C) ∧
      (s true 0x010).agenda = .regRead 0x010 .word :: [] ∧ (s false 0x020).busy = false ∧
      (s false 0x020).agenda = .regRead 0x020 .word :: [] := by decide

theorem test_witness_UndefinedRegisterAccessesAreRefused :
    ({ idle with inReset := true, agenda := [.regRead 0 .word] } : State).inReset = true ∧
      AccessWidth.half ≠ AccessWidth.word ∧ (0x3FD : BitVec 10).toNat % 4 ≠ 0 ∧
      ({ idle with agenda := [.regWrite 0x3FD .word 0] } : State).agenda = .regWrite 0x3FD .word 0 :: [] := by decide

theorem test_witness_MemoryIsPlainAndLittleEndian :
    Memory.wf { cells := [(0xFFFFFFFF, 1)] } ∧ 0xFFFFFFFF < 2 ^ 32 ∧ 0xFFFFFFFE + 1 < 2 ^ 32 := by decide

/-- Host moves at the last byte of a command's write set, the byte behind it, a byte of the read set, and past the
shared memory. -/
theorem test_witness_MemoryIsPlainAndLittleEndian_host :
    let s := failingInFlight [.memRead 0x1103]
    s.platform.memOk 0x1103 1 = true ∧ s.agenda = .memRead 0x1103 :: [] ∧
      (∃ r ∈ s.inFlight.writes, r.holds 0x1103 = true) ∧
      (¬∃ r ∈ s.inFlight.reads ++ s.inFlight.writes, r.holds 0x1104 = true) ∧
      (∃ r ∈ s.inFlight.reads ++ s.inFlight.writes, r.holds 0x200 = true) ∧ s.platform.memOk 0x10000 1 = false := by
  decide +kernel

theorem test_witness_AcceptedRangesAreInMemory :
    Platform.reset.memOk 0 0x10000 = true ∧ Platform.reset.memOk 0 0x10001 = false ∧ 0x10000 + 0 ≤ 0 + 0x10000 := by decide

/-- A busy state whose host writes a byte outside the footprint in flight. -/
def hostWrites : State := inFlightState [.memWrite 0x100 7]

theorem test_witness_FootprintIsStableInFlight : hostWrites.busy = true ∧
    hostWrites.agenda = .memWrite 0x100 7 :: [] ∧ Event.memWrite 0x100 7 ≠ .engine ∧ Event.memWrite 0x100 7 ≠ .assertReset ∧
    hostWrites.descRange ∈ hostWrites.inFlight.reads ++ hostWrites.inFlight.writes ∧
    step hostWrites = .next { hostWrites with mem := hostWrites.mem.write 0x100 7, agenda := [] } :=
  ⟨by decide, by decide, by decide, by decide, by decide +kernel, eq_next_of (by decide +kernel)⟩

theorem test_witness_ResetAbandonsTheCommand :
    ({ idle with inReset := true, agenda := [.releaseReset] } : State).agenda = .releaseReset :: [] ∧
    (inFlightState [.assertReset]).agenda = .assertReset :: [] ∧ (inFlightState [.assertReset]).busy = true ∧
      (∀ r ∈ (inFlightState [.assertReset]).inFlight.writes, r.holds 0 = false) ∧
      ({ idle with agenda := [.assertReset] } : State).busy = false := by decide

theorem test_witness_EveryStepKeepsTheInvariant : (inFlightState []).Sound ∧
    step (inFlightState []) =
      .next { (inFlightState []).setAcc 0 0x01000000 with busy := false, done := true } :=
  ⟨by decide +kernel, eq_next_of (by decide +kernel)⟩

theorem test_witness_OnlyHostWritesChangeTheLut :
    let t : State := { idle with lut := { idle.lut with tanhM := idle.lut.tanhM.set 0 7 } }
    step { idle with agenda := [.regWrite 0x100 .word 7] } = .next t ∧ t.lut ≠ idle.lut :=
  ⟨eq_next_of (by decide +kernel), by decide +kernel⟩

theorem test_witness_DutifulStepsNeverStop : hostWrites.goesOn = true ∧ (inFlightState []).goesOn = true ∧
    (inFlightState [.memWrite 0xFFC0 7]).goesOn = false := by decide

end Sys2Proof.Tests
end

section
/-! PROOF. How a command ends, whatever it is: with an error that is written into STATUS, FAULT_ADDR and LAYER_IDX, or
with success after a body that leaves the registers the host owns alone (spec/60_exceptions.md R311, R316, R320). -/

namespace Sys2Proof.Machine

/-- What the body of every command keeps: the registers only the host writes, the LUT, the platform, the moves to come,
and memory's canonical form (spec/10_state.md R44, R53). -/
structure BodyKeeps (s b : State) : Prop where
  irqEn : b.irqEn = s.irqEn
  cmdAddr : b.cmdAddr = s.cmdAddr
  tileCfg : b.tileCfg = s.tileCfg
  scratchA : b.scratchA = s.scratchA
  scratchB : b.scratchB = s.scratchB
  scratchCap : b.scratchCap = s.scratchCap
  lut : b.lut = s.lut
  wf : s.mem.wf → b.mem.wf
  inReset : b.inReset = s.inReset
  platform : b.platform = s.platform
  agenda : b.agenda = s.agenda
  hostData : b.hostData = s.hostData

/-- A command goes on: it raises an error that has a code, or completes after a body that keeps the host's registers. -/
def CommandEnds (s : State) (o : Host.Outcome State Fault Refusal) : Prop :=
  (∃ e p k, e ≠ .none ∧ o = .next (s.raiseError e p k)) ∨ ∃ b, BodyKeeps s b ∧ o = .next b.complete

theorem bodyKeeps_setAcc {s : State} {d : Nat} {v : Acc} : BodyKeeps s (s.setAcc d v) :=
  ⟨rfl, rfl, rfl, rfl, rfl, rfl, rfl, id, rfl, rfl, rfl, rfl⟩

theorem bodyKeeps_setSres {s : State} {y : FixedScalar} : BodyKeeps s (s.setSres y) :=
  ⟨rfl, rfl, rfl, rfl, rfl, rfl, rfl, id, rfl, rfl, rfl, rfl⟩

theorem bodyKeeps_finishTensor {s : State} {x : Run} {dst : Word} (hx : s.mem.wf → x.mem.wf) :
    BodyKeeps s (s.finishTensor x dst) :=
  ⟨rfl, rfl, rfl, rfl, rfl, rfl, rfl, hx, rfl, rfl, rfl, rfl⟩

theorem bodyKeeps_finishTiled {s : State} {x : Run} {dst : Word} {n : Nat} (hx : s.mem.wf → x.mem.wf) :
    BodyKeeps s (s.finishTiled x dst n) :=
  ⟨rfl, rfl, rfl, rfl, rfl, rfl, rfl, hx, rfl, rfl, rfl, rfl⟩

theorem bodyKeeps_netFinish {s : State} {o : NetOps} {steps : List LayerStep} {last : Cursor} :
    BodyKeeps s (netFinish s o steps last) :=
  ⟨rfl, rfl, rfl, rfl, rfl, rfl, rfl, (netRun_within (s := s)).wf, rfl, rfl, rfl, rfl⟩

/-! ### One lemma per shared command -/

theorem runCommand_ends {s : State} {found : Option ErrCode} {body : State → State} (hf : Reports found)
    (hb : BodyKeeps s (body s)) : CommandEnds s (s.runCommand found body) := by
  cases found with
  | some e => exact .inl ⟨e, s.cmdAddr, 0, fun he => hf (congrArg some he), rfl⟩
  | none => exact .inr ⟨body s, hb, rfl⟩

theorem binaryCommand_ends {s : State} (f : FixedScalar → FixedScalar → FixedScalar) (a b dst n : Word) :
    CommandEnds s (binaryCommand f a b dst n s) :=
  runCommand_ends (reports_binaryChecks _ _ _ _ _) (bodyKeeps_finishTensor (Run.wf_put (x := s.run)))

theorem unaryCommand_ends {s : State} (f : FixedScalar → FixedScalar) (src dst n : Word) :
    CommandEnds s (unaryCommand f src dst n s) :=
  runCommand_ends (reports_unaryChecks _ _ _ _) (bodyKeeps_finishTensor (Run.wf_put (x := s.run)))

theorem execFill_ends {s : State} (dst n : Word) (v : FixedScalar) : CommandEnds s (execFill dst n v s) :=
  runCommand_ends (reports_fillChecks _ _ _) (bodyKeeps_finishTensor (Run.wf_put (x := s.run)))

theorem linearCommand_ends {s : State} (hasBias : Bool) (o : LinearOps) : CommandEnds s (linearCommand hasBias o s) :=
  runCommand_ends (reports_linearChecks _ _) (bodyKeeps_finishTiled (linearRun_within (x := s.run)).wf)

theorem execConv2d_ends {s : State} (o : ConvOps) : CommandEnds s (execConv2d o s) :=
  runCommand_ends (reports_convChecks _ _) (bodyKeeps_finishTiled (convRun_within (x := s.run)).wf)

theorem gateCommand_ends {s : State} (mode : Mode) (o : GateOps) : CommandEnds s (gateCommand mode o s) :=
  runCommand_ends (reports_gateChecks _ _) (bodyKeeps_finishTiled (Run.wf_put (x := s.run)))

theorem lstmCommand_ends {s : State} (fused : Bool) (o : LstmOps) : CommandEnds s (lstmCommand fused o s) :=
  runCommand_ends (reports_lstmChecks _ _)
    (bodyKeeps_finishTiled ((lstmRun_within (x := s.run)).trans Run.within_freeOverlaps).wf)

theorem execRnn_ends {s : State} (o : RnnOps) : CommandEnds s (execRnn o s) :=
  runCommand_ends (reports_rnnChecks _ _)
    (bodyKeeps_finishTiled ((rnnRun_within (x := s.run)).trans Run.within_freeOverlaps).wf)

theorem execNet_ends {s : State} (o : NetOps) : CommandEnds s (execNet o s) := by
  unfold execNet
  split
  · next e he => exact .inl ⟨e.code, e.addr, e.idx, netPlan_error_ne_none he, rfl⟩
  · exact .inr ⟨_, bodyKeeps_netFinish, rfl⟩

/-- ACCSET, ACCB, MAC2 and MAC1 load the accumulator they name. -/
theorem setAccCommand_ends {s : State} (d : Word) (f : State → Acc) :
    CommandEnds s (s.runCommand (checkIndex d) fun s => s.setAcc d.toNat (f s)) :=
  runCommand_ends (reports_checkIndex d) bodyKeeps_setAcc

theorem execReq_ends {s : State} (d : Word) : CommandEnds s (execReq d s) :=
  runCommand_ends (reports_checkIndex d) bodyKeeps_setSres

theorem scalarActivation_ends {s : State} (mode : Mode) (x : FixedScalar) :
    CommandEnds s (scalarActivation mode x s) :=
  runCommand_ends (by simp) bodyKeeps_setSres

/-- Every command ends, with an error that has a code or with success (60_exceptions.md R311, R316, R320). -/
theorem exec_ends (s : State) : ∀ i : Instr, CommandEnds s (exec i s)
  | .linear o => linearCommand_ends true o
  | .linearNb o => linearCommand_ends false o
  | .rnn o => execRnn_ends o
  | .lstm o => lstmCommand_ends false o
  | .lstmF o => lstmCommand_ends true o
  | .conv2d o => execConv2d_ends o
  | .gateFusion o => gateCommand_ends .identity o
  | .gateFusionTanh o => gateCommand_ends .tanh o
  | .gateFusionSig o => gateCommand_ends .sigmoid o
  | .add a b dst n => binaryCommand_ends add16 a b dst n
  | .had a b dst n => binaryCommand_ends had16 a b dst n
  | .copy src dst n => unaryCommand_ends id src dst n
  | .fill dst n v => execFill_ends dst n v
  | .actId src dst n => unaryCommand_ends _ src dst n
  | .actTanh src dst n => unaryCommand_ends _ src dst n
  | .actSig src dst n => unaryCommand_ends _ src dst n
  | .net o => execNet_ends o
  | .accSet d v => setAccCommand_ends d fun _ => v
  | .accB d v => setAccCommand_ends d fun _ => bias12 v
  | .mac2 d a b => setAccCommand_ends d fun s => macPair (s.getAcc d.toNat) a.lane0 a.lane1 b.lane0 b.lane1
  | .mac1 d a b => setAccCommand_ends d fun s => macScalar (s.getAcc d.toNat) a b
  | .req d => execReq_ends d
  | .actsId x => scalarActivation_ends .identity x
  | .actsTanh x => scalarActivation_ends .tanh x
  | .actsSig x => scalarActivation_ends .sigmoid x

/-- The completion step of the command in flight ends as a command does, its descriptor's errors included (R312). -/
theorem completionStep_ends (s : State) : CommandEnds s s.completionStep := by
  unfold State.completionStep
  split
  · next e he =>
    refine .inl ⟨e, s.cmdAddr, 0, ?_, rfl⟩
    rcases fetch_error he with rfl | rfl | rfl <;> simp
  · next i _ => exact exec_ends s i

end Sys2Proof.Machine
end

section
/-! PROOF. The invariant, move by move (spec/10_state.md R33, R37, R40; spec/70_reset_and_hazards.md R340). -/

namespace Sys2Proof.Machine

/-- A command's end leaves a sound state: BUSY is 0 again, and DONE or ERR says how it ended (R311, R320). -/
theorem sound_of_commandEnds {s t : State} (hs : s.Sound) (h : CommandEnds s (.next t)) : t.Sound := by
  obtain ⟨-, hcfg, hmem, -⟩ := hs
  rcases h with ⟨e, p, k, he, ht⟩ | ⟨b, hb, ht⟩ <;> cases ht
  · exact ⟨by simp [State.statusSound, he], hcfg, hmem, fun _ => rfl⟩
  · exact ⟨by simp [State.statusSound], hb.tileCfg ▸ hcfg, hb.wf hmem, fun _ => rfl⟩

theorem engineTurn_sound {s t : State} (hs : s.Sound) (h : s.engineTurn = .next t) : t.Sound := by
  rcases engineTurn_cases h with ⟨-, -, hc⟩ | ⟨-, rfl⟩
  · exact sound_of_commandEnds hs (hc ▸ completionStep_ends s)
  · exact hs

/-- START with reset released: STATUS and LAYER_IDX are as the invariant wants them while BUSY (R47). -/
theorem start_sound {s : State} (hs : s.Sound) (hr : s.inReset = false) : s.start.Sound := by
  obtain ⟨-, hcfg, hmem, -⟩ := hs
  exact ⟨by simp [State.statusSound], hcfg, hmem, by simp [hr]⟩

/-- An acknowledgement clears ERR and ERRCODE together (R33, R322). -/
theorem acknowledge_sound {s : State} (hs : s.Sound) (v : Word) : (s.acknowledge v).Sound := by
  obtain ⟨⟨hboth, hcode, hbusy⟩, hcfg, hmem, hr⟩ := hs
  refine ⟨⟨fun h => hboth ?_, ?_, fun hb => ?_⟩, hcfg, hmem, hr⟩
  · simp only [State.acknowledge_done, State.acknowledge_err, Bool.and_eq_true] at h
    obtain ⟨⟨hd, -⟩, he, -⟩ := h
    exact ⟨hd, he⟩
  · cases hv : v.getLsbD 2 <;> simp only [State.acknowledge_err, State.acknowledge_errCode, hv] <;> simp [hcode]
  · obtain ⟨hd, he, hl⟩ := hbusy hb
    simp [hd, he, hl]

theorem writeCtrl_sound {s : State} (hs : s.Sound) (hr : s.inReset = false) (v : Word) : (s.writeCtrl v).Sound := by
  rcases writeCtrl_cases s v with ⟨-, h⟩ | ⟨-, h⟩ <;> rw [h]
  · exact start_sound (s := { s with irqEn := v.getLsbD 1 }) hs hr
  · exact hs

theorem writeReg_sound {s : State} (hs : s.Sound) (hr : s.inReset = false) (off : Nat) (v : Word) :
    (s.writeReg off v).Sound := by
  rcases writeReg_cases s off v with ⟨-, h⟩ | ⟨-, h⟩ | ⟨-, h⟩ | ⟨-, h⟩ | ⟨-, h⟩ | ⟨-, h⟩ | ⟨-, h⟩ | ⟨-, -, l, h⟩ |
    ⟨-, -, h⟩ | h <;> rw [h]
  · exact writeCtrl_sound hs hr v
  · exact acknowledge_sound hs v
  · exact hs
  · obtain ⟨hst, -, hrest⟩ := hs
    exact ⟨hst, tileCfgLegal_tileCfgOf v, hrest⟩
  all_goals exact hs

theorem tileCfgLegal_reset : tileCfgLegal State.reset.tileCfg = true := by decide

/-- Reset takes every register to its reset value and abandons the command in flight (R340, R342). -/
theorem enterReset_sound {s : State} (hs : s.Sound) : s.enterReset.Sound := by
  obtain ⟨-, -, hmem, -⟩ := hs
  exact ⟨by simp [State.statusSound], tileCfgLegal_reset, enterReset_mem.1 hmem, fun _ => rfl⟩

/-- Every move keeps the invariant. -/
theorem takeMove_sound {s t : State} {e : Event} (hs : s.Sound) (h : takeMove e s = .next t) : t.Sound := by
  cases e with
  | regRead off width =>
    obtain ⟨-, ⟨-, -, rfl⟩ | rfl⟩ := hostRegRead_cases h <;> exact hs
  | regWrite off width v =>
    obtain ⟨hacc, ⟨-, rfl⟩ | ⟨-, rfl⟩⟩ := hostRegWrite_cases h
    · exact hs
    · exact writeReg_sound hs (regAccessRefusal_eq_none.1 hacc).1 _ v
  | memRead addr =>
    obtain ⟨-, v, k, rfl, -⟩ := hostMemRead_cases h
    exact hs
  | memWrite addr b =>
    obtain ⟨-, -, rfl⟩ := hostMemWrite_cases h
    obtain ⟨hst, hcfg, hmem, hr⟩ := hs
    exact ⟨hst, hcfg, Memory.wf_write hmem, hr⟩
  | wait => cases h; exact hs
  | engine => exact engineTurn_sound hs h
  | assertReset => cases h; exact enterReset_sound hs
  | releaseReset =>
    cases h
    obtain ⟨hst, hcfg, hmem, -⟩ := hs
    exact ⟨hst, hcfg, hmem, fun hr => nomatch hr⟩

end Sys2Proof.Machine

namespace Sys2Proof.Proofs

open Sys2Proof Sys2Proof.Machine Sys2Proof.Claims

/-- Settles O58: the step is the engine's turn or one move of the agenda, and each keeps the invariant. -/
theorem everyStepKeepsTheInvariant : Obligations.EveryStepKeepsTheInvariant := by
  intro s t hs h
  rcases step_cases h with ⟨-, hturn⟩ | ⟨e, rest, -, hmove⟩
  · exact engineTurn_sound hs hturn
  · exact takeMove_sound (s := { s with agenda := rest }) hs hmove

/-- Settles O57: nothing is in flight, no error is held, and memory lists nothing. -/
theorem resetIsSound : Obligations.ResetIsSound :=
  ⟨by decide, tileCfgLegal_reset, Memory.wf_reset, fun _ => rfl⟩

end Sys2Proof.Proofs
end

section
/-! PROOF. The register map: the arrays of registers (the LUT and ACC) as banks of words, what a write of a register
leaves in every other, and what the host's accesses answer (spec/10_state.md R30 to R49). -/

namespace Sys2Proof.Machine

/-! ### Arrays of registers -/

theorem vecGet_of_lt {n k : Nat} (u : Vector Word n) (hk : k < n) : vecGet u k = u[k] := dif_pos hk

theorem setIfInBounds_of_lt {n k : Nat} (u : Vector Word n) (v : Word) (hk : k < n) :
    u.setIfInBounds k v = u.set k v := by
  simp [Vector.setIfInBounds, Array.setIfInBounds, Vector.set, hk]

theorem vecGet_setIfInBounds {n k j : Nat} (u : Vector Word n) (v : Word) (hk : k < n) :
    vecGet (u.setIfInBounds k v) j = if j = k then v else vecGet u j := by
  unfold vecGet
  by_cases hj : j < n
  · simp [hj, Vector.getElem_setIfInBounds, eq_comm]
  · simp [hj, show j ≠ k by omega]

/-! ### Banks: the window's 64-byte blocks 4 to 8 are TANH_M, TANH_Q, SIG_M, SIG_Q and ACC (10_state.md R30) -/

/-- Register `k` of bank `b`. -/
def State.bankWord (s : State) (b k : Nat) : Word :=
  match b with
  | 4 => vecGet s.lut.tanhM k
  | 5 => vecGet s.lut.tanhQ k
  | 6 => vecGet s.lut.sigM k
  | 7 => vecGet s.lut.sigQ k
  | 8 => vecGet s.acc k
  | _ => 0

/-- Register `k` of bank `b` set to `v`. -/
def State.setBankWord (s : State) (b k : Nat) (v : Word) : State :=
  match b with
  | 4 => { s with lut := { s.lut with tanhM := s.lut.tanhM.setIfInBounds k v } }
  | 5 => { s with lut := { s.lut with tanhQ := s.lut.tanhQ.setIfInBounds k v } }
  | 6 => { s with lut := { s.lut with sigM := s.lut.sigM.setIfInBounds k v } }
  | 7 => { s with lut := { s.lut with sigQ := s.lut.sigQ.setIfInBounds k v } }
  | 8 => s.setAcc k v
  | _ => s

/-- Bank `b` exists and has a register `k`: 16 in each of the LUT's, 15 in ACC (10_state.md R43, R45). -/
structure BankSlot (b k : Nat) : Prop where
  bank : b = 4 ∨ b = 5 ∨ b = 6 ∨ b = 7 ∨ b = 8
  index : k < 16
  acc : b = 8 → k < 15

/-- The word-aligned offsets of the LUT and of ACC are those of the banks' registers. -/
theorem exists_bankSlot {off : Nat} (ha : off % 4 = 0) (hlo : 0x100 ≤ off) (hhi : off < 0x23C) :
    ∃ b k, BankSlot b k ∧ off = 0x40 * b + 4 * k :=
  ⟨off / 0x40, off % 0x40 / 4, ⟨by omega, by omega, by omega⟩, by omega⟩

theorem regValue_bank (s : State) {b k : Nat} (h : BankSlot b k) : s.regValue (0x40 * b + 4 * k) = s.bankWord b k := by
  obtain ⟨hb, hk, hacc⟩ := h
  unfold State.regValue
  rcases hb with rfl | rfl | rfl | rfl | rfl
  all_goals
    repeat rw [if_neg (by omega)]
    rw [if_pos (by omega)]
  · exact congrArg (vecGet s.lut.tanhM) (by omega)
  · exact congrArg (vecGet s.lut.tanhQ) (by omega)
  · exact congrArg (vecGet s.lut.sigM) (by omega)
  · exact congrArg (vecGet s.lut.sigQ) (by omega)
  · exact congrArg s.getAcc (by omega)

theorem writeReg_bank (s : State) (v : Word) {b k : Nat} (h : BankSlot b k) :
    s.writeReg (0x40 * b + 4 * k) v = s.setBankWord b k v := by
  obtain ⟨hb, hk, hacc⟩ := h
  unfold State.writeReg
  rcases hb with rfl | rfl | rfl | rfl | rfl
  all_goals
    repeat rw [if_neg (by omega)]
    rw [if_pos (by omega)]
  · exact congrArg (s.setBankWord 4 · v) (by omega)
  · exact congrArg (s.setBankWord 5 · v) (by omega)
  · exact congrArg (s.setBankWord 6 · v) (by omega)
  · exact congrArg (s.setBankWord 7 · v) (by omega)
  · exact congrArg (s.setBankWord 8 · v) (by omega)

/-- A write to a bank leaves the other banks alone: they are different fields of the state. -/
theorem bankWord_setBankWord_other (s : State) (v : Word) {b k b' k' : Nat} (h : BankSlot b k) (h' : BankSlot b' k')
    (hne : b' ≠ b) : (s.setBankWord b k v).bankWord b' k' = s.bankWord b' k' := by
  rcases h.bank with rfl | rfl | rfl | rfl | rfl <;> rcases h'.bank with rfl | rfl | rfl | rfl | rfl <;>
    first | rfl | exact absurd rfl hne

/-- A bank's register reads back what is written to it, and no other register of a bank changes. -/
theorem bankWord_setBankWord (s : State) (v : Word) {b k b' k' : Nat} (h : BankSlot b k) (h' : BankSlot b' k') :
    (s.setBankWord b k v).bankWord b' k' = if b' = b ∧ k' = k then v else s.bankWord b' k' := by
  by_cases hbb : b' = b
  · subst hbb
    obtain ⟨hb, hk, hacc⟩ := h
    simp only [true_and]
    rcases hb with rfl | rfl | rfl | rfl | rfl
    · exact vecGet_setIfInBounds s.lut.tanhM v hk
    · exact vecGet_setIfInBounds s.lut.tanhQ v hk
    · exact vecGet_setIfInBounds s.lut.sigM v hk
    · exact vecGet_setIfInBounds s.lut.sigQ v hk
    · exact vecGet_setIfInBounds s.acc v (hacc rfl)
  · rw [if_neg fun hc => hbb hc.1, bankWord_setBankWord_other s v h h' hbb]

/-- A write to a bank leaves the registers below the banks alone. -/
theorem regValue_setBankWord_low (s : State) (v : Word) {b k off : Nat} (h : BankSlot b k) (hoff : off < 0x100) :
    (s.setBankWord b k v).regValue off = s.regValue off := by
  simp only [State.regValue, if_pos hoff]
  rcases h.bank with rfl | rfl | rfl | rfl | rfl <;> rfl

/-! ### The single registers that hold what is written to them -/

theorem regValue_set_cmdAddr (s : State) (v : Word) (off : Nat) :
    State.regValue { s with cmdAddr := v } off = if off = 0x00C then v else s.regValue off := by
  by_cases h : off = 0x00C
  · subst h; rfl
  · simp only [State.regValue, if_neg h]; rfl

theorem regValue_set_scratchA (s : State) (v : Word) (off : Nat) :
    State.regValue { s with scratchA := v } off = if off = 0x028 then v else s.regValue off := by
  by_cases h : off = 0x028
  · subst h; rfl
  · simp only [State.regValue, if_neg h]; rfl

theorem regValue_set_scratchB (s : State) (v : Word) (off : Nat) :
    State.regValue { s with scratchB := v } off = if off = 0x02C then v else s.regValue off := by
  by_cases h : off = 0x02C
  · subst h; rfl
  · simp only [State.regValue, if_neg h]; rfl

theorem regValue_set_scratchCap (s : State) (v : Word) (off : Nat) :
    State.regValue { s with scratchCap := v } off = if off = 0x030 then v else s.regValue off := by
  by_cases h : off = 0x030
  · subst h; rfl
  · simp only [State.regValue, if_neg h]; rfl

/-! ### Offsets without a register, and STATUS -/

/-- An offset not named reads 0 (10_state.md R46). -/
theorem regValue_unnamed (s : State) {off : Nat} (hlo : 0x030 < off) (h : off < 0x100 ∨ 0x23C ≤ off) :
    s.regValue off = 0 := by
  unfold State.regValue
  rcases h with h | h
  · repeat rw [if_neg (by omega)]
    exact if_pos h
  · repeat rw [if_neg (by omega)]

/-- A write acts on the registers the host may write, and on nothing else (10_state.md R30, R46). -/
theorem writeReg_ignored (s : State) (v : Word) {off : Nat}
    (hctl : off ∉ [0x004, 0x008, 0x00C, 0x024, 0x028, 0x02C, 0x030]) (hbank : off < 0x100 ∨ 0x23C ≤ off) :
    s.writeReg off v = s := by
  simp only [List.mem_cons, List.not_mem_nil, or_false, not_or] at hctl
  rcases writeReg_cases s off v with h | h | h | h | h | h | h | h | h | h
  case inr.inr.inr.inr.inr.inr.inr.inr.inr => exact h
  all_goals omega

/-- Above the three flags STATUS holds five zeros, ERRCODE, and zeros (10_state.md R33). -/
theorem extractLsb'_statusWord (s : State) {k n : Nat} (hk : 3 ≤ k) :
    s.statusWord.extractLsb' k n = ((0 : BitVec 20) ++ s.errCode.code ++ (0 : BitVec 5)).extractLsb' (k - 3) n := by
  unfold State.statusWord
  rw [BitVec.extractLsb'_append_eq_of_le (by omega), BitVec.extractLsb'_append_eq_of_le (by omega),
    BitVec.extractLsb'_append_eq_of_le (by omega)]
  rfl

/-- The three flags of STATUS (10_state.md R33). -/
theorem statusWord_flags (s : State) :
    s.statusWord.getLsbD 0 = s.busy ∧ s.statusWord.getLsbD 1 = s.done ∧ s.statusWord.getLsbD 2 = s.err := by
  simp only [State.statusWord, BitVec.getLsbD_append]
  simp

/-! ### Accesses of the host -/

theorem regAccessRefusal_inReset {s : State} {off : BitVec 10} {width : AccessWidth} (h : s.inReset = true) :
    regAccessRefusal s off width = some (.registerAccessInReset off) := if_pos h

theorem regAccessRefusal_bad {s : State} {off : BitVec 10} {width : AccessWidth} (hr : s.inReset = false)
    (h : width ≠ .word ∨ off.toNat % 4 ≠ 0) : regAccessRefusal s off width = some (.badRegisterAccess off) := by
  rw [regAccessRefusal, if_neg (by simp [hr]), if_neg (by tauto)]

theorem hostRegRead_refused {s : State} {off : BitVec 10} {width : AccessWidth} {r : Refusal}
    (h : regAccessRefusal s off width = some r) : hostRegRead off width s = .refused r := by
  simp only [hostRegRead, h]

theorem hostRegWrite_refused {s : State} {off : BitVec 10} {width : AccessWidth} {v : Word} {r : Refusal}
    (h : regAccessRefusal s off width = some r) : hostRegWrite off width v s = .refused r := by
  simp only [hostRegWrite, h]

/-- An aligned 32-bit read of the window with reset released (10_state.md R48). -/
theorem hostRegRead_accepted {s : State} {off : BitVec 10} (hr : s.inReset = false) (ha : off.toNat % 4 = 0) :
    hostRegRead off .word s =
      .next (if s.busy && hiddenWhileBusy off.toNat then s.answerFree else s.answer (s.regValue off.toNat)) := by
  simp only [hostRegRead, regAccessRefusal_eq_none.2 ⟨hr, rfl, ha⟩]
  split <;> rfl

/-- An aligned 32-bit write of the window with reset released (10_state.md R47). -/
theorem hostRegWrite_accepted {s : State} {off : BitVec 10} {v : Word} (hr : s.inReset = false)
    (ha : off.toNat % 4 = 0) :
    hostRegWrite off .word v s = .next (if s.busy then s else s.writeReg off.toNat v) := by
  simp only [hostRegWrite, regAccessRefusal_eq_none.2 ⟨hr, rfl, ha⟩]
  split <;> rfl

/-- The step of an accepted read: the agenda's first move is taken off, and the host has its answer. -/
theorem step_regRead {s : State} {off : BitVec 10} {rest : List Event} (hr : s.inReset = false)
    (ha : off.toNat % 4 = 0) (hag : s.agenda = .regRead off .word :: rest) :
    step s = .next (if s.busy && hiddenWhileBusy off.toNat then State.answerFree { s with agenda := rest }
      else State.answer { s with agenda := rest } (s.regValue off.toNat)) :=
  (step_cons hag).trans (hostRegRead_accepted (s := { s with agenda := rest }) hr ha)

/-- The step of an accepted write, which acts exactly if BUSY is 0. -/
theorem step_regWrite {s : State} {off : BitVec 10} {v : Word} {rest : List Event} (hr : s.inReset = false)
    (ha : off.toNat % 4 = 0) (hag : s.agenda = .regWrite off .word v :: rest) :
    step s = .next (if s.busy then { s with agenda := rest }
      else State.writeReg { s with agenda := rest } off.toNat v) :=
  (step_cons hag).trans (hostRegWrite_accepted (s := { s with agenda := rest }) hr ha)

theorem hiddenWhileBusy_eq_false {off : Nat} (h : off ∉ [0x010, 0x014, 0x018, 0x01C, 0x020])
    (hacc : ¬(0x200 ≤ off ∧ off < 0x23C)) : hiddenWhileBusy off = false := by
  simp only [List.mem_cons, List.not_mem_nil, or_false, not_or] at h
  simp only [hiddenWhileBusy, Bool.or_eq_false_iff, Bool.and_eq_false_iff, beq_eq_false_iff_ne,
    decide_eq_false_iff_not]
  omega

end Sys2Proof.Machine

namespace Sys2Proof.Proofs

open Sys2Proof Sys2Proof.Machine Sys2Proof.Claims

/-- Settles O45: the write is accepted, and acts exactly if BUSY is 0; at CTRL it then sets IRQ_EN and may START. -/
theorem startTakesEffectOnlyWhenIdle : Obligations.StartTakesEffectOnlyWhenIdle := by
  intro s off v rest hr
  refine ⟨fun ha hag => ⟨fun hb => ?_, fun hb => ?_⟩, fun hb hag => ?_⟩
  · rw [step_regWrite hr ha hag, if_pos hb]
  · rw [step_regWrite hr ha hag, hb, if_neg Bool.false_ne_true]
  · have hstep : step s = .next (State.writeCtrl { s with agenda := rest } v) := by
      rw [step_regWrite hr (by decide) hag, hb, if_neg Bool.false_ne_true]
      rfl
    rw [hstep]
    rcases writeCtrl_cases { s with agenda := rest } v with ⟨hv, hw⟩ | ⟨hv, hw⟩ <;> rw [hw, hv]
    · exact ⟨fun _ => rfl, nofun⟩
    · exact ⟨nofun, fun _ => rfl⟩

/-- Settles O46: a plain register is one of the four single ones or a bank's, and each has its read-after-write rule. -/
theorem plainRegistersHoldTheirValue : Obligations.PlainRegistersHoldTheirValue := by
  intro s v
  refine ⟨?_, rfl, rfl, rfl, rfl, fun k hk => ?_, fun d hd => ?_⟩
  · rintro off off' ⟨ha, rfl | rfl | rfl | rfl | ⟨hlo, hhi⟩⟩ ⟨ha', hn⟩
    · exact regValue_set_cmdAddr s v off'
    · exact regValue_set_scratchA s v off'
    · exact regValue_set_scratchB s v off'
    · exact regValue_set_scratchCap s v off'
    obtain ⟨b, k, hs, rfl⟩ := exists_bankSlot ha hlo hhi
    rw [writeReg_bank s v hs]
    rcases hn with hlow | ⟨hlo', hhi'⟩
    · rw [if_neg (by omega), regValue_setBankWord_low s v hs (by omega)]
    · obtain ⟨b', k', hs', rfl⟩ := exists_bankSlot ha' hlo' hhi'
      have hk := hs.index
      have hk' := hs'.index
      rw [regValue_bank _ hs', regValue_bank _ hs', bankWord_setBankWord s v hs hs']
      exact if_congr (by omega) rfl rfl
  · have hw (b : Nat) (hb : b = 4 ∨ b = 5 ∨ b = 6 ∨ b = 7) : s.writeReg (0x40 * b + 4 * k) v = s.setBankWord b k v :=
      writeReg_bank s v ⟨by omega, hk, by omega⟩
    simp only [← setIfInBounds_of_lt _ v hk]
    exact ⟨hw 4 (by simp), hw 5 (by simp), hw 6 (by simp), hw 7 (by simp)⟩
  · rw [← setIfInBounds_of_lt _ v hd]
    exact writeReg_bank s v (b := 8) ⟨by omega, by omega, fun _ => hd⟩

/-- Settles O48: an accepted read answers the register, or a free value where R48 hides it; and the map. -/
theorem hostRegisterReads : Obligations.HostRegisterReads := by
  refine ⟨fun s off rest hr ha hag => ?_, fun s => ?_⟩
  · have hstep := step_regRead hr ha hag
    refine ⟨fun hb => hstep.trans ?_, fun hb => ⟨_, hstep, ?_, fun hlow hacc => ?_⟩⟩
    · rw [if_neg (by simp [hb])]
      rfl
    · split <;> rfl
    · rw [if_neg (by simp [hiddenWhileBusy_eq_false hlow hacc])]
      rfl
  · refine ⟨?_, rfl, rfl, rfl, rfl, rfl, rfl, rfl, rfl, rfl, rfl, rfl, fun k hk => ?_, fun d hd => ?_⟩
    · show s.ctrlWord = _
      unfold State.ctrlWord
      cases s.irqEn <;> rfl
    · have hv (b : Nat) (hb : b = 4 ∨ b = 5 ∨ b = 6 ∨ b = 7) : s.regValue (0x40 * b + 4 * k) = s.bankWord b k :=
        regValue_bank s ⟨by omega, hk, by omega⟩
      simp only [← vecGet_of_lt _ hk]
      exact ⟨hv 4 (by simp), hv 5 (by simp), hv 6 (by simp), hv 7 (by simp)⟩
    · rw [← vecGet_of_lt _ hd]
      exact regValue_bank s (b := 8) ⟨by omega, by omega, fun _ => hd⟩

/-- Settles O47: an offset not named lies between 0x030 and the LUT or past ACC. -/
theorem idAndReservedOffsets : Obligations.IdAndReservedOffsets := by
  intro s v
  refine ⟨rfl, rfl, fun off hoff => ?_, fun off ha _ hn => ?_⟩
  · simp only [List.mem_cons, List.not_mem_nil, or_false] at hoff
    exact writeReg_ignored s v (by simp; omega) (by omega)
  · obtain ⟨hlo, hbank⟩ : 0x030 < off ∧ (off < 0x100 ∨ 0x23C ≤ off) := by
      unfold namedOffset at hn
      omega
    exact ⟨regValue_unnamed s hlo hbank,
      writeReg_ignored s v (by simp; omega) hbank⟩

/-- Settles O49: the three flags are the lowest bits, ERRCODE stands above five zeros, and a write acknowledges. -/
theorem statusFieldsAndClearing : Obligations.StatusFieldsAndClearing := by
  refine ⟨rfl, rfl, rfl, rfl, rfl, rfl, fun s v => ?_⟩
  obtain ⟨hbusy, hdone, herr⟩ := statusWord_flags s
  refine ⟨hbusy, hdone, herr, ?_, ?_, ?_, ?_⟩
  · rw [extractLsb'_statusWord s (by omega), BitVec.extractLsb'_append_eq_of_le (by omega),
      BitVec.extractLsb'_append_eq_of_add_le (by omega)]
    simp
  · rw [extractLsb'_statusWord s (by omega), BitVec.extractLsb'_append_eq_of_add_le (by omega)]
    simp
  · rw [extractLsb'_statusWord s (by omega), BitVec.extractLsb'_append_eq_of_le (by omega),
      BitVec.extractLsb'_append_eq_of_le (by omega)]
    simp
  · show s.acknowledge v = _
    unfold State.acknowledge
    cases v.getLsbD 1 <;> cases v.getLsbD 2 <;> simp

/-- Settles O51: the refusal comes before anything else, for reads and writes alike. -/
theorem undefinedRegisterAccessesAreRefused : Obligations.UndefinedRegisterAccessesAreRefused := by
  intro s off width v rest hag
  have hstep {r : Refusal} (h : regAccessRefusal { s with agenda := rest } off width = some r) :
      step s = .refused r := by
    rcases hag with hag | hag
    · exact (step_cons hag).trans (hostRegRead_refused h)
    · exact (step_cons hag).trans (hostRegWrite_refused h)
  exact ⟨fun hr => hstep (regAccessRefusal_inReset hr), fun hr hbad => hstep (regAccessRefusal_bad hr hbad)⟩

/-- Settles O55: the fields of the state after reset, and the two words assembled from its flags. -/
theorem resetValues : Obligations.ResetValues := by
  exact ⟨by decide, by decide, rfl, rfl, rfl, rfl, rfl, rfl, rfl, rfl, rfl, rfl, rfl, rfl⟩

end Sys2Proof.Proofs
end

section
/-! PROOF. What no move changes: the LUT but for the host's writes and reset (spec/10_state.md R44), and while a command
is in flight everything it reads (spec/10_state.md R53, spec/20_memory.md R95, R98). -/

namespace Sys2Proof.Machine

/-- No command writes the LUT (10_state.md R44). -/
theorem lut_of_commandEnds {s t : State} (h : CommandEnds s (.next t)) : t.lut = s.lut := by
  rcases h with ⟨e, p, k, -, ht⟩ | ⟨b, hb, ht⟩ <;> cases ht
  · rfl
  · exact hb.lut

theorem engineTurn_lut {s t : State} (h : s.engineTurn = .next t) : t.lut = s.lut := by
  rcases engineTurn_cases h with ⟨-, -, hc⟩ | ⟨-, rfl⟩
  · exact lut_of_commandEnds (hc ▸ completionStep_ends s)
  · rfl

@[simp] theorem State.writeCtrl_lut (s : State) (v : Word) : (s.writeCtrl v).lut = s.lut := by
  rcases writeCtrl_cases s v with ⟨-, h⟩ | ⟨-, h⟩ <;> simp [h]

/-- A register write changes the LUT at the LUT's offsets alone. -/
theorem writeReg_lut (s : State) (v : Word) {off : Nat} (h : ¬(0x100 ≤ off ∧ off < 0x200)) :
    (s.writeReg off v).lut = s.lut := by
  rcases writeReg_cases s off v with ⟨-, hw⟩ | ⟨-, hw⟩ | ⟨-, hw⟩ | ⟨-, hw⟩ | ⟨-, hw⟩ | ⟨-, hw⟩ | ⟨-, hw⟩ |
    ⟨hlo, hhi, -⟩ | ⟨-, -, hw⟩ | hw
  case inl => rw [hw, State.writeCtrl_lut]
  case inr.inr.inr.inr.inr.inr.inr.inl => exact absurd ⟨hlo, hhi⟩ h
  all_goals simp [hw]

/-- A move that changes the LUT is a host write to its offsets or a reset. -/
theorem takeMove_lut {s t : State} {e : Event} (h : takeMove e s = .next t) (hne : t.lut ≠ s.lut) :
    (∃ off v, e = .regWrite off .word v ∧ 0x100 ≤ off.toNat ∧ off.toNat < 0x200) ∨ e = .assertReset := by
  cases e with
  | regRead off width => obtain ⟨-, ⟨-, -, rfl⟩ | rfl⟩ := hostRegRead_cases h <;> exact absurd rfl hne
  | regWrite off width v =>
    obtain ⟨hacc, ⟨-, rfl⟩ | ⟨-, rfl⟩⟩ := hostRegWrite_cases h
    · exact absurd rfl hne
    · obtain ⟨-, rfl, -⟩ := regAccessRefusal_eq_none.1 hacc
      by_cases hoff : 0x100 ≤ off.toNat ∧ off.toNat < 0x200
      · exact .inl ⟨off, v, rfl, hoff⟩
      · exact absurd (writeReg_lut s v hoff) hne
  | memRead addr => obtain ⟨-, v, k, rfl, -⟩ := hostMemRead_cases h; exact absurd rfl hne
  | memWrite addr b => obtain ⟨-, -, rfl⟩ := hostMemWrite_cases h; exact absurd rfl hne
  | wait => cases h; exact absurd rfl hne
  | engine => exact absurd (engineTurn_lut h) hne
  | assertReset => exact .inr rfl
  | releaseReset => cases h; exact absurd rfl hne

/-- `t` has the command of `s` in flight with everything it reads: its descriptor's address, the registers its kernels
read, and the bytes `rs` (10_state.md R53, 20_memory.md R95). -/
def KeepsInFlight (rs : List Range) (s t : State) : Prop :=
  t.busy = true ∧ t.cmdAddr = s.cmdAddr ∧ t.tileCfg = s.tileCfg ∧ t.lut = s.lut ∧ t.acc = s.acc ∧
    t.scratchA = s.scratchA ∧ t.scratchB = s.scratchB ∧ t.scratchCap = s.scratchCap ∧
    ∀ r ∈ rs, ∀ p, r.holds p = true → t.mem.read p = s.mem.read p

/-- A state that differs in none of the registers, and in no byte of the ranges. -/
theorem keepsInFlight_of_mem {rs : List Range} {s : State} {m : Memory} {r : Bool} {v : Word} {k : Nat}
    (hb : s.busy = true) (hm : ∀ q ∈ rs, ∀ p, q.holds p = true → m.read p = s.mem.read p) :
    KeepsInFlight rs s { s with mem := m, inReset := r, hostData := v, draws := k } :=
  ⟨hb, rfl, rfl, rfl, rfl, rfl, rfl, rfl, hm⟩

/-- Before the engine's turn no move but reset touches what the command in flight reads: register writes are lost, and
memory writes go outside its footprint (10_state.md R47, 20_memory.md R98). -/
theorem takeMove_keepsInFlight {s t : State} {e : Event} (hb : s.busy = true) (heng : e ≠ .engine)
    (hres : e ≠ .assertReset) (h : takeMove e s = .next t) :
    KeepsInFlight (s.inFlight.reads ++ s.inFlight.writes) s t := by
  have hself : ∀ q ∈ s.inFlight.reads ++ s.inFlight.writes, ∀ p, q.holds p = true → s.mem.read p = s.mem.read p :=
    fun _ _ _ _ => rfl
  cases e with
  | regRead off width =>
    obtain ⟨-, ⟨-, -, rfl⟩ | rfl⟩ := hostRegRead_cases h <;> exact keepsInFlight_of_mem hb hself
  | regWrite off width v =>
    obtain ⟨-, ⟨-, rfl⟩ | ⟨hidle, -⟩⟩ := hostRegWrite_cases h
    · exact keepsInFlight_of_mem hb hself
    · simp [hb] at hidle
  | memRead addr =>
    obtain ⟨-, v, k, rfl, -⟩ := hostMemRead_cases h
    exact keepsInFlight_of_mem hb hself
  | memWrite addr b =>
    obtain ⟨-, hout, rfl⟩ := hostMemWrite_cases h
    refine keepsInFlight_of_mem hb fun q hq p hp => Memory.read_write_other ?_
    rintro rfl
    simp [hout q hq] at hp
  | wait => cases h; exact keepsInFlight_of_mem hb hself
  | engine => exact absurd rfl heng
  | assertReset => exact absurd rfl hres
  | releaseReset => cases h; exact keepsInFlight_of_mem hb hself

end Sys2Proof.Machine

namespace Sys2Proof.Proofs

open Sys2Proof Sys2Proof.Machine Sys2Proof.Claims

/-- Settles O54: the moves to come are not part of the footprint, so the move's rule is the step's. -/
theorem footprintIsStableInFlight : Obligations.FootprintIsStableInFlight := by
  intro s t e rest hb hag heng hres h
  rw [step_cons hag] at h
  have hkeeps := takeMove_keepsInFlight (s := { s with agenda := rest }) hb heng hres h
  rwa [inFlight_agenda] at hkeeps

/-- Settles O59: the engine's turn keeps the LUT, so the step is a move of the agenda. -/
theorem onlyHostWritesChangeTheLut : Obligations.OnlyHostWritesChangeTheLut := by
  intro s t h hne
  rcases step_cases h with ⟨-, hturn⟩ | ⟨e, rest, hag, hmove⟩
  · exact absurd (engineTurn_lut hturn) hne
  · rcases takeMove_lut hmove hne with ⟨off, v, rfl, hoff⟩ | rfl
    · exact ⟨rest, .inl ⟨off, v, hag, hoff⟩⟩
    · exact ⟨rest, .inr hag⟩

end Sys2Proof.Proofs
end

section
/-! PROOF. TILE_CFG and its candidate widths (spec/10_state.md R40, spec/41_tiled_kernels.md R200). -/

namespace Sys2Proof.Machine

/-- Of the bits 1 to 15 a write of TILE_CFG sets bit 1 and keeps the others. -/
theorem getLsbD_tileCfgOf (v : Word) {w : Nat} (h1 : 1 ≤ w) (h15 : w ≤ 15) :
    (tileCfgOf v).getLsbD w = (decide (w = 1) || v.getLsbD w) := by
  have hmask : ∀ i, i < 16 → 1 ≤ i →
      (0xFFFE : Word).getLsbD i = true ∧ (0x0002 : Word).getLsbD i = decide (i = 1) := by decide
  obtain ⟨hkeep, hset⟩ := hmask w (by omega) h1
  rw [tileCfgOf, BitVec.getLsbD_or, BitVec.getLsbD_and, hkeep, hset, Bool.and_true, Bool.or_comm]

/-- The candidate widths descend, whatever TILE_CFG holds. -/
theorem candidates_descend (cfg : Word) : (candidates cfg).Pairwise fun a b => b < a :=
  List.Pairwise.filter _ (by decide)

/-- With bit 1 set the last candidate is the width 1. -/
theorem candidates_getLast? {cfg : Word} (h : cfg.getLsbD 1 = true) : (candidates cfg).getLast? = some 1 := by
  have hsplit : allWidths = allWidths.dropLast ++ [1] := rfl
  rw [candidates, hsplit, List.filter_append, List.filter_cons_of_pos (by simpa using h)]
  simp

end Sys2Proof.Machine

namespace Sys2Proof.Proofs

open Sys2Proof Sys2Proof.Machine Sys2Proof.Claims

/-- Settles O28: the candidates are the widths 15 to 1 filtered by TILE_CFG's bits, and bit 1 is always set. -/
theorem candidatesDescendToOne : Obligations.CandidatesDescendToOne := by
  refine ⟨by decide, fun v => ⟨fun _ => rfl, fun _ => rfl, tileCfgLegal_tileCfgOf v, candidates_descend _,
    candidates_getLast? (by rw [getLsbD_tileCfgOf v (by omega) (by omega)]; rfl), fun w => ?_⟩⟩
  rw [mem_candidates]
  refine and_congr_right fun h1 => and_congr_right fun h15 => ?_
  simp [getLsbD_tileCfgOf v h1 h15]

end Sys2Proof.Proofs
end

section
/-! PROOF. The engine's turn and the host's moves of memory, each as an equation of the step; the bytes of elements and
descriptor words; MEM_OK byte by byte (spec/20_memory.md R81 to R84, R88, R95 to R98). -/

namespace Sys2Proof.Machine

/-! ### The engine's turn -/

/-- The turn completes a command that decodes by running it (20_memory.md R95, 60_exceptions.md R312). -/
theorem engineTurn_of_fetch_ok {s : State} {i : Instr} (hb : s.busy = true) (hr : s.inReset = false)
    (hf : s.fetch = .ok i) : s.engineTurn = exec i s := by
  rw [State.engineTurn, hb, hr, State.completionStep, hf]
  rfl

/-- With nothing in flight, or in reset, the turn changes nothing (60_exceptions.md R332, 70_reset_and_hazards.md
R340). -/
theorem engineTurn_idle {s : State} (h : s.busy = false ∨ s.inReset = true) : s.engineTurn = .next s :=
  if_neg (by rcases h with h | h <;> simp [h])

/-! ### Bytes of elements and words (20_memory.md R81 to R83) -/

/-- The lower address of an element stored holds its low byte. -/
theorem Memory.read_st16_low {m : Memory} {p : Nat} {v : FixedScalar} (hm : m.wf) (hp : p < 2 ^ 32) :
    (m.st16 p v).read p = byteOfHalf v 0 := by
  rw [Memory.st16, Memory.read_write_other (by omega), Memory.read_write_same hm hp]

/-- The higher address of an element stored holds its high byte. -/
theorem Memory.read_st16_high {m : Memory} {p : Nat} {v : FixedScalar} (hm : m.wf) (hp : p + 1 < 2 ^ 32) :
    (m.st16 p v).read (p + 1) = byteOfHalf v 1 :=
  Memory.read_write_same (Memory.wf_write hm) hp

/-- Byte `k` of a word put together from its bytes, the first one lowest. -/
theorem byteOfWord_wordOfBytes (b : Nat → Byte) {k : Nat} (hk : k < 4) :
    byteOfWord (wordOfBytes (b 0) (b 1) (b 2) (b 3)) k = b k := by
  apply BitVec.eq_of_getLsbD_eq
  intro i hi
  simp only [byteOfWord, wordOfBytes, BitVec.getLsbD_extractLsb', BitVec.getLsbD_append, hi, decide_true, Bool.true_and]
  obtain rfl | rfl | rfl | rfl : k = 0 ∨ k = 1 ∨ k = 2 ∨ k = 3 := by omega
  all_goals
    repeat rw [if_neg (by omega)]
    repeat rw [if_pos (by omega)]
    exact congrArg (b _).getLsbD (by omega)

/-- Byte `k` of a descriptor word is the byte `k` addresses up. -/
theorem Memory.byteOfWord_ldw {m : Memory} {p k : Nat} (hk : k < 4) : byteOfWord (m.ldw p) k = m.read (p + k) :=
  byteOfWord_wordOfBytes (fun j => m.read (p + j)) hk

/-! ### The host's moves of memory (20_memory.md R97, R98) -/

theorem hostMemRead_outside {s : State} {addr : Word} (hm : s.platform.memOk addr.toNat 1 = true)
    (h : ¬∃ r ∈ s.inFlight.writes, r.holds addr.toNat = true) :
    hostMemRead addr s = .next (s.answer ((s.mem.read addr.toNat).setWidth 32)) := by
  rw [← List.any_eq_true] at h
  rw [hostMemRead, if_pos hm, if_neg h]

theorem hostMemRead_inFlight {s : State} {addr : Word} (hm : s.platform.memOk addr.toNat 1 = true)
    (h : ∃ r ∈ s.inFlight.writes, r.holds addr.toNat = true) :
    hostMemRead addr s = .next { s with hostData := (freeByte s.draws).setWidth 32, draws := s.draws + 1 } := by
  rw [← List.any_eq_true] at h
  rw [hostMemRead, if_pos hm, if_pos h]

theorem hostMemRead_notShared {s : State} {addr : Word} (hm : s.platform.memOk addr.toNat 1 = false) :
    hostMemRead addr s = .fault (.notSharedMemory addr) :=
  if_neg (by simp [hm])

theorem hostMemWrite_outside {s : State} {addr : Word} {b : Byte} (hm : s.platform.memOk addr.toNat 1 = true)
    (h : ¬∃ r ∈ s.inFlight.reads ++ s.inFlight.writes, r.holds addr.toNat = true) :
    hostMemWrite addr b s = .next { s with mem := s.mem.write addr.toNat b } := by
  rw [← List.any_eq_true] at h
  rw [hostMemWrite, if_pos hm, if_neg h]

theorem hostMemWrite_inFlight {s : State} {addr : Word} {b : Byte} (hm : s.platform.memOk addr.toNat 1 = true)
    (h : ∃ r ∈ s.inFlight.reads ++ s.inFlight.writes, r.holds addr.toNat = true) :
    hostMemWrite addr b s = .fault (.footprintRace addr) := by
  rw [← List.any_eq_true] at h
  rw [hostMemWrite, if_pos hm, if_pos h]

theorem hostMemWrite_notShared {s : State} {addr : Word} {b : Byte} (hm : s.platform.memOk addr.toNat 1 = false) :
    hostMemWrite addr b s = .fault (.notSharedMemory addr) :=
  if_neg (by simp [hm])

/-! ### MEM_OK byte by byte (20_memory.md R84) -/

theorem Range.overlaps_eq_false_iff {r q : Range} :
    r.overlaps q = false ↔ ∀ p, r.base ≤ p → p < r.base + r.len → q.holds p = false := by
  simp [← Bool.not_eq_true, Range.overlaps_iff, Range.holds_iff (r := r)]

/-- The byte at `p` lies off the window and off the holes. -/
def Platform.Accessible (pl : Platform) (p : Nat) : Prop :=
  pl.window.holds p = false ∧ ∀ h ∈ pl.holes, h.holds p = false

/-- MEM_OK accepts exactly the ranges inside the address space whose bytes are all accessible. -/
theorem Platform.memOk_iff_bytes {pl : Platform} {a n : Nat} :
    pl.memOk a n = true ↔ a + n ≤ 2 ^ 32 ∧ ∀ p, a ≤ p → p < a + n → pl.Accessible p := by
  simp only [Platform.memOk_iff, Range.overlaps_eq_false_iff, Platform.Accessible]
  refine and_congr_right fun _ => ⟨fun ⟨hwindow, hholes⟩ p hlo hhi => ?_, fun hbytes => ⟨?_, ?_⟩⟩
  · exact ⟨hwindow p hlo hhi, fun h hh => hholes h hh p hlo hhi⟩
  · exact fun p hlo hhi => (hbytes p hlo hhi).1
  · exact fun h hh p hlo hhi => (hbytes p hlo hhi).2 h hh

/-- Every part of an accepted range is accepted. -/
theorem Platform.memOk_part {pl : Platform} {a n b k : Nat} (h : pl.memOk a n = true) (hlo : a ≤ b)
    (hhi : b + k ≤ a + n) : pl.memOk b k = true := by
  rw [Platform.memOk_iff_bytes] at h ⊢
  obtain ⟨hle, hbytes⟩ := h
  exact ⟨by omega, fun p h1 h2 => hbytes p (by omega) (by omega)⟩

end Sys2Proof.Machine

namespace Sys2Proof.Proofs

open Sys2Proof Sys2Proof.Machine Sys2Proof.Claims

/-- Settles O52: the laws of memory, then the host's two moves by where the byte lies. -/
theorem memoryIsPlainAndLittleEndian : Obligations.MemoryIsPlainAndLittleEndian := by
  refine ⟨fun m p hm => ⟨fun b hp q => ?_, fun v hp => ?_⟩, fun m p k hk => Memory.byteOfWord_ldw hk,
    fun s addr b rest => ⟨fun hok => ⟨fun hag => ?_, fun hag => ?_⟩, fun hok hag => ?_⟩⟩
  · split
    · next h => rw [h, Memory.read_write_same hm hp]
    · next h => exact Memory.read_write_other h
  · exact ⟨Memory.ld16_st16_same hm hp, Memory.read_st16_low hm (by omega), Memory.read_st16_high hm hp⟩
  · rw [step_cons hag, ← inFlight_agenda s rest]
    exact ⟨fun hout => hostMemRead_outside (s := { s with agenda := rest }) hok hout,
      fun hin => ⟨_, hostMemRead_inFlight (s := { s with agenda := rest }) hok hin, rfl⟩⟩
  · rw [step_cons hag, ← inFlight_agenda s rest]
    exact ⟨hostMemWrite_outside (s := { s with agenda := rest }) hok,
      hostMemWrite_inFlight (s := { s with agenda := rest }) hok⟩
  · rcases hag with hag | hag <;> rw [step_cons hag]
    · exact hostMemRead_notShared (s := { s with agenda := rest }) hok
    · exact hostMemWrite_notShared (s := { s with agenda := rest }) hok

/-- Settles O53: MEM_OK speaks of each byte by itself, so it accepts the parts of what it accepts. -/
theorem acceptedRangesAreInMemory : Obligations.AcceptedRangesAreInMemory := by
  intro pl a n h
  obtain ⟨hle, hbytes⟩ := Platform.memOk_iff_bytes.1 h
  refine ⟨hle, fun p hlo hhi => ?_, fun b k hlo hhi => Platform.memOk_part h hlo hhi⟩
  obtain ⟨hwindow, hholes⟩ := hbytes p hlo hhi
  exact ⟨hwindow, hholes, Platform.memOk_part h hlo hhi⟩

/-- Settles O5: with no move first, and at an `.engine` move, the step is the engine's turn, which reads none of the
moves to come. -/
theorem stepRunsTheDecodedCommand : Obligations.StepRunsTheDecodedCommand := by
  intro s rest
  refine ⟨fun i hb hr ha hm hd => ?_, fun hidle => ?_, fun hag => step_cons hag⟩
  · have hf : s.fetch = .ok i := fetch_ok.2 ⟨ha, hm, hd⟩
    exact ⟨fun hag => (step_nil hag).trans (engineTurn_of_fetch_ok hb hr hf),
      fun hag => (step_cons hag).trans (engineTurn_of_fetch_ok (s := { s with agenda := rest }) hb hr hf)⟩
  · exact ⟨fun hag => (step_nil hag).trans (engineTurn_idle hidle),
      fun hag => (step_cons hag).trans (engineTurn_idle (s := { s with agenda := rest }) hidle)⟩

end Sys2Proof.Proofs
end

section
/-! PROOF. The decoder as an inverse of the encoder: the command a header names with its operands read anew
(`Instr.readAs`), and the 25 header words (spec/30_encoding.md R120 to R141). -/

namespace Sys2Proof

open Sys2Proof.Claims

/-! ### A command's operands read anew -/

/-- The command with the header of `i` whose operands stand in the words `w` (30_encoding.md R124, R126 to R138). -/
def Instr.readAs (w : Nat → Word) : Instr → Instr
  | .linear _ => .linear (linearOps w)
  | .linearNb _ => .linearNb (linearOps w)
  | .rnn _ => .rnn (rnnOps w)
  | .lstm _ => .lstm (lstmOps w)
  | .lstmF _ => .lstmF (lstmOps w)
  | .conv2d _ => .conv2d (convOps w)
  | .gateFusion _ => .gateFusion (gateOps w)
  | .gateFusionTanh _ => .gateFusionTanh (gateOps w)
  | .gateFusionSig _ => .gateFusionSig (gateOps w)
  | .add _ _ _ _ => .add (w 1) (w 2) (w 3) (w 4)
  | .had _ _ _ _ => .had (w 1) (w 2) (w 3) (w 4)
  | .copy _ _ _ => .copy (w 1) (w 2) (w 3)
  | .fill _ _ _ => .fill (w 1) (w 2) (value16 (w 3))
  | .actId _ _ _ => .actId (w 1) (w 2) (w 3)
  | .actTanh _ _ _ => .actTanh (w 1) (w 2) (w 3)
  | .actSig _ _ _ => .actSig (w 1) (w 2) (w 3)
  | .net _ => .net (netOps w)
  | .accSet _ _ => .accSet (w 1) (w 2)
  | .accB _ _ => .accB (w 1) (value16 (w 2))
  | .mac2 _ _ _ => .mac2 (w 1) (pairOf (w 2)) (pairOf (w 3))
  | .mac1 _ _ _ => .mac1 (w 1) (value16 (w 2)) (value16 (w 3))
  | .req _ => .req (w 1)
  | .actsId _ => .actsId (value16 (w 1))
  | .actsTanh _ => .actsTanh (value16 (w 1))
  | .actsSig _ => .actsSig (value16 (w 1))

@[simp] theorem encodeHeader_readAs (w : Nat → Word) (i : Instr) : encodeHeader (i.readAs w) = encodeHeader i := by
  cases i <;> rfl

/-- The operands a primitive reads are legal where its accumulator number, in word 1, is (30_encoding.md R124). -/
theorem wf_readAs_iff {w : Nat → Word} {i : Instr} : (i.readAs w).wf = true ↔
    (encodeHeader i ∈ [0x050, 0x051, 0x052, 0x053, 0x054] → (w 1).toNat ≤ 14) := by
  cases i <;> simp [Instr.readAs, Instr.wf, indexLegal, encodeHeader, header]

/-- Under a command's header the decoder reads its operands, and checks them (30_encoding.md R122, R124). -/
theorem decodeWords_of_header {w : Nat → Word} {i : Instr} (h : w 0 = encodeHeader i) :
    decodeWords w = if (i.readAs w).wf then .ok (i.readAs w) else .error (.badIndex (w 1)) := by
  unfold decodeWords
  rw [h]
  cases i <;> simp only [encodeHeader, headerRsv_header, headerOpc_header, headerFlags_header] <;> rfl

theorem decodeWords_eq_ok_iff {w : Nat → Word} {i : Instr} :
    decodeWords w = .ok i ↔ w 0 = encodeHeader i ∧ i.wf = true ∧ i.readAs w = i := by
  refine ⟨fun h => ?_, fun ⟨hh, hwf, hr⟩ => by rw [decodeWords_of_header hh, hr, if_pos hwf]⟩
  have hh := decodeWords_header h
  rw [decodeWords_of_header hh] at h
  split at h
  · next hwf =>
    have hr : i.readAs w = i := Except.ok.inj h
    exact ⟨hh, hr ▸ hwf, hr⟩
  · cases h

/-- The encoder puts each operand where the decoder reads it (30_encoding.md R126 to R138). -/
theorem readAs_encodeBytes (i : Instr) : i.readAs (wordAt (encodeBytes i)) = i := by
  cases i <;>
    simp [Instr.readAs, linearOps, rnnOps, lstmOps, convOps, gateOps, netOps, wordAt_encodeBytes,
      encode, encodeOperands]

/-! ### The words a layout names -/

/-- The low half of a word is all that its value16 is read from (30_encoding.md R124). -/
theorem value16_congr {v v' : Word} (h : v'.setWidth 16 = v.setWidth 16) : value16 v' = value16 v := by
  rwa [BitVec.setWidth_eq_extractLsb' (by decide), BitVec.setWidth_eq_extractLsb' (by decide)] at h

/-- The words that `UnnamedWordsAreIgnored` asks two descriptors of the command `i` to share (30_encoding.md R124,
R125). -/
def SameNamedWords (i : Instr) (w w' : Nat → Word) : Prop :=
  ∀ j, j ≤ (encodeOperands i).length →
    if j ∈ value16Words i then (w' j).setWidth 16 = (w j).setWidth 16 else w' j = w j

theorem SameNamedWords.word_eq {i : Instr} {w w' : Nat → Word} (h : SameNamedWords i w w') {j : Nat}
    (hj : j ≤ (encodeOperands i).length) (hv : j ∉ value16Words i) : w' j = w j := by
  simpa [hv] using h j hj

/-- Two such descriptors share the low half of every named word. -/
theorem SameNamedWords.value16_eq {i : Instr} {w w' : Nat → Word} (h : SameNamedWords i w w') {j : Nat}
    (hj : j ≤ (encodeOperands i).length) : value16 (w' j) = value16 (w j) := by
  by_cases hv : j ∈ value16Words i
  · exact value16_congr (by simpa [hv] using h j hj)
  · rw [h.word_eq hj hv]

/-- The header is no value16 word. -/
theorem SameNamedWords.header_eq {i : Instr} {w w' : Nat → Word} (h : SameNamedWords i w w') : w' 0 = w 0 :=
  h.word_eq (Nat.zero_le _) (by cases i <;> simp [value16Words])

/-- A command's operands are read from the words its layout names alone (30_encoding.md R125). -/
theorem SameNamedWords.readAs_eq {i : Instr} {w w' : Nat → Word} (h : SameNamedWords i w w') :
    i.readAs w' = i.readAs w := by
  cases i <;>
    simp [Instr.readAs, linearOps, rnnOps, lstmOps, convOps, gateOps, netOps, h.word_eq, h.value16_eq, encodeOperands,
      value16Words]

/-! ### The 25 header words -/

/-- One command of each header, in the order of 30_encoding.md R122, every operand 0. -/
def oneOfEach : List Instr :=
  let w : Nat → Word := fun _ => 0
  [.linear (linearOps w), .linearNb (linearOps w), .rnn (rnnOps w), .lstm (lstmOps w), .lstmF (lstmOps w),
    .conv2d (convOps w), .gateFusion (gateOps w), .gateFusionTanh (gateOps w), .gateFusionSig (gateOps w),
    .add 0 0 0 0, .had 0 0 0 0, .copy 0 0 0, .fill 0 0 0, .actId 0 0 0, .actTanh 0 0 0, .actSig 0 0 0,
    .net (netOps w), .accSet 0 0, .accB 0 0, .mac2 0 (pairOf 0) (pairOf 0), .mac1 0 0 0, .req 0, .actsId 0,
    .actsTanh 0, .actsSig 0]

theorem map_encodeHeader_oneOfEach : oneOfEach.map encodeHeader = legalHeaders := by decide

/-! The three rules of 30_encoding.md R141 for the FLAGS of an OPC, each over all the FLAGS it allows. -/

theorem header_mem_of_oneFlag : ∀ c ∈ [(0x01 : BitVec 8), 0x03], ∀ f : BitVec 4, f.extractLsb' 1 3 = 0 →
    header f c ∈ legalHeaders := by
  decide

theorem header_mem_of_twoFlags : ∀ c ∈ [(0x10 : BitVec 8), 0x30, 0x55], ∀ f : BitVec 4, f.extractLsb' 2 2 = 0 →
    f.extractLsb' 0 2 ≠ 3 → header f c ∈ legalHeaders := by
  decide

theorem header_mem_of_noFlag :
    ∀ c ∈ [(0x02 : BitVec 8), 0x04, 0x20, 0x21, 0x22, 0x23, 0x40, 0x50, 0x51, 0x52, 0x53, 0x54],
      header 0 c ∈ legalHeaders := by
  decide

/-- R141's procedure accepts no other word than those of R122's table. -/
theorem mem_legalHeaders_of_headerLegal {h : Word} (hl : headerLegal h = true) : h ∈ legalHeaders := by
  simp only [headerLegal, Bool.and_eq_true, beq_iff_eq] at hl
  obtain ⟨hrsv, hl⟩ := hl
  rw [← header_fields hrsv]
  split at hl
  · next hc =>
    exact header_mem_of_oneFlag _ (by simpa [BitVec.toNat_eq] using hc) _ (beq_iff_eq.1 hl)
  · split at hl
    · next hc =>
      simp only [Bool.and_eq_true, beq_iff_eq, bne_iff_ne] at hl
      obtain ⟨hhigh, hlow⟩ := hl
      exact header_mem_of_twoFlags _ (by simpa [BitVec.toNat_eq] using hc) _ hhigh hlow
    · split at hl
      · next hc =>
        rw [beq_iff_eq.1 hl]
        exact header_mem_of_noFlag _ (by simpa [BitVec.toNat_eq] using hc)
      · cases hl

/-- The legal header words are those of the commands (30_encoding.md R122). -/
theorem mem_legalHeaders_iff {h : Word} : h ∈ legalHeaders ↔ ∃ i : Instr, encodeHeader i = h := by
  refine ⟨fun hm => ?_, ?_⟩
  · rw [← map_encodeHeader_oneOfEach] at hm
    obtain ⟨i, -, hi⟩ := List.mem_map.1 hm
    exact ⟨i, hi⟩
  · rintro ⟨i, rfl⟩
    exact mem_legalHeaders_of_headerLegal (Laws.HeaderLegal.legal i)

/-- R141's procedure accepts the words of R122's table. -/
theorem headerLegal_iff {h : Word} : headerLegal h = true ↔ h ∈ legalHeaders := by
  refine ⟨mem_legalHeaders_of_headerLegal, fun hm => ?_⟩
  obtain ⟨i, rfl⟩ := mem_legalHeaders_iff.1 hm
  exact Laws.HeaderLegal.legal i

/-- The words that decode: a command's header, and for a primitive an accumulator number (30_encoding.md R124). -/
theorem decodeWords_isOk_iff {w : Nat → Word} : (∃ i, decodeWords w = .ok i) ↔
    w 0 ∈ legalHeaders ∧ (w 0 ∈ [0x050, 0x051, 0x052, 0x053, 0x054] → (w 1).toNat ≤ 14) := by
  refine ⟨fun ⟨i, hd⟩ => ?_, fun ⟨hm, hindex⟩ => ?_⟩
  · obtain ⟨hh, hwf, hr⟩ := decodeWords_eq_ok_iff.1 hd
    rw [hh]
    exact ⟨mem_legalHeaders_iff.2 ⟨i, rfl⟩, wf_readAs_iff.1 (hr.symm ▸ hwf)⟩
  · obtain ⟨i, hi⟩ := mem_legalHeaders_iff.1 hm
    exact ⟨i.readAs w, by rw [decodeWords_of_header hi.symm, if_pos (wf_readAs_iff.2 (hi.symm ▸ hindex))]⟩

end Sys2Proof

namespace Sys2Proof.Proofs

open Sys2Proof Sys2Proof.Machine Sys2Proof.Claims

/-- Settles O1: the encoder writes the command's header, and its operands where the decoder reads them. -/
theorem decodeReadsBackEncode : Obligations.DecodeReadsBackEncode := by
  intro i hwf
  rw [decode_of_length (length_encodeBytes i).ge]
  exact decodeWords_eq_ok_iff.2 ⟨wordAt_encodeBytes (by decide), hwf, readAs_encodeBytes i⟩

/-- Settles O2: the legal headers are the headers of the commands, and under one of them only an index can be
refused. -/
theorem exactlyTheLegalHeadersDecode : Obligations.ExactlyTheLegalHeadersDecode :=
  ⟨fun _ => headerLegal_iff, fun bs hlen => by rw [decode_of_length hlen]; exact decodeWords_isOk_iff⟩

/-- Settles O3: the header and every operand are read from named words, and a value16 from its low half. -/
theorem unnamedWordsAreIgnored : Obligations.UnnamedWordsAreIgnored := by
  intro w w' i hd hsame
  have hnamed : SameNamedWords i w w' := hsame
  obtain ⟨hh, hwf, hr⟩ := decodeWords_eq_ok_iff.1 hd
  exact decodeWords_eq_ok_iff.2 ⟨hnamed.header_eq.trans hh, hwf, hnamed.readAs_eq.trans hr⟩

/-- Settles O4: the decoder runs on each of the six descriptors. -/
theorem writtenDescriptorsDecode : Obligations.WrittenDescriptorsDecode := by
  refine ⟨?_, ?_, ?_, ?_, ?_, ?_⟩ <;> decide

end Sys2Proof.Proofs
end

section
/-! PROOF. The shared arithmetic on integers: what each narrowing keeps, where the bias pre-shift and the 2-lane MAC are
exact, and the dot-product sweep as one sum (spec/40_numeric_core.md R161 to R167). -/

namespace Sys2Proof.Machine

/-! ### The narrowings -/

/-- A 32-bit wrap is exact on the integers a signed word holds (00_scope.md R14). -/
theorem toInt_wrap32_of_fits {v : Int} (hlo : -2 ^ 31 ≤ v) (hhi : v < 2 ^ 31) : (wrap32 v).toInt = v :=
  BitVec.toInt_ofInt_eq_self (by decide) hlo hhi

/-- A wrap on the way to a later wrap does not show (40_numeric_core.md R165). -/
theorem wrap32_toInt_wrap32_add (v u : Int) : wrap32 ((wrap32 v).toInt + u) = wrap32 (v + u) := by
  simp only [wrap32, BitVec.ofInt_add, BitVec.ofInt_toInt]

/-- The bounds of a FixedScalar (00_scope.md R12). -/
theorem FixedScalar.bounds (x : FixedScalar) : -32768 ≤ x.toInt ∧ x.toInt ≤ 32767 :=
  ⟨x.le_toInt, BitVec.toInt_le⟩

/-- Only the most negative FixedScalar reaches the lower bound. -/
theorem FixedScalar.toInt_eq_min_iff {x : FixedScalar} : x.toInt = -32768 ↔ x = 0x8000 :=
  BitVec.toInt_inj (y := (0x8000 : FixedScalar))

/-! ### The requantizer and the bias pre-shift -/

/-- RQ floors the 4096th part and keeps 16 bits of it (40_numeric_core.md R161). -/
theorem requantize_eq_ofInt (acc : Acc) : requantize acc = BitVec.ofInt 16 (acc.toInt / 4096) := rfl

/-- RQ on the bits: the arithmetic shift right by 12, cut to its low half (40_numeric_core.md R161). -/
theorem requantize_eq_sshiftRight (acc : Acc) : requantize acc = (acc.sshiftRight 12).setWidth 16 := by
  have hshift : (acc.sshiftRight 12).toInt = acc.toInt / 4096 := by
    rw [BitVec.toInt_sshiftRight, Int.shiftRight_eq_div_pow]; rfl
  rw [requantize_eq_ofInt, ← hshift, ← BitVec.signExtend_eq_setWidth_of_le _ (by decide)]
  rfl

/-- The requantizer of the closed forms is the model's, on a value wrapped to 32 bits. -/
theorem requantize_wrap32 (v : Int) : requantize (wrap32 v) = Claims.rq v := rfl

/-- On a 32-bit value the closed forms' requantizer is RQ itself. -/
theorem rq_toInt (acc : Acc) : Claims.rq acc.toInt = requantize acc := by
  rw [← requantize_wrap32, wrap32, BitVec.ofInt_toInt]

/-- The pre-shift of a bias is exact (40_numeric_core.md R162). -/
theorem toInt_bias12 (b : FixedScalar) : (bias12 b).toInt = b.toInt * 4096 := by
  obtain ⟨hlo, hhi⟩ := FixedScalar.bounds b
  exact toInt_wrap32_of_fits (by omega) (by omega)

/-- The pre-shift of two biases is exact (40_numeric_core.md R162). -/
theorem toInt_bias12Sum (b1 b2 : FixedScalar) : (bias12Sum b1 b2).toInt = (b1.toInt + b2.toInt) * 4096 := by
  obtain ⟨hlo1, hhi1⟩ := FixedScalar.bounds b1
  obtain ⟨hlo2, hhi2⟩ := FixedScalar.bounds b2
  exact toInt_wrap32_of_fits (by omega) (by omega)

/-- RQ undoes the pre-shift (40_numeric_core.md R162). -/
theorem requantize_bias12 (b : FixedScalar) : requantize (bias12 b) = b := by
  rw [requantize_eq_ofInt, toInt_bias12, Int.mul_ediv_cancel _ (by decide), BitVec.ofInt_toInt]

/-! ### Products of two FixedScalars -/

/-- The products of two FixedScalars lie between those at the ends of their range (40_numeric_core.md R163). -/
theorem FixedScalar.mul_bounds (a b : FixedScalar) :
    -2 ^ 30 + 2 ^ 15 ≤ a.toInt * b.toInt ∧ a.toInt * b.toInt ≤ 2 ^ 30 := by
  obtain ⟨halo, hahi⟩ := FixedScalar.bounds a
  obtain ⟨hblo, hbhi⟩ := FixedScalar.bounds b
  constructor <;> nlinarith

/-- A product reaches 2^30 for the two most negative factors alone (40_numeric_core.md R163). -/
theorem FixedScalar.mul_eq_max_iff {a b : FixedScalar} : a.toInt * b.toInt = 2 ^ 30 ↔ a = 0x8000 ∧ b = 0x8000 := by
  rw [← FixedScalar.toInt_eq_min_iff, ← FixedScalar.toInt_eq_min_iff]
  obtain ⟨halo, hahi⟩ := FixedScalar.bounds a
  obtain ⟨hblo, hbhi⟩ := FixedScalar.bounds b
  refine ⟨fun h => ?_, fun ⟨ha, hb⟩ => by rw [ha, hb]; rfl⟩
  constructor <;> nlinarith

/-! ### The multiply-accumulates -/

/-- From 0 the 2-lane MAC is exact unless both products reach 2^30 (40_numeric_core.md R163). -/
theorem toInt_macPair_zero_iff {a0 a1 b0 b1 : FixedScalar} :
    (macPair 0 a0 a1 b0 b1).toInt = a0.toInt * b0.toInt + a1.toInt * b1.toInt ↔
      ¬(a0.toInt * b0.toInt = 2 ^ 30 ∧ a1.toInt * b1.toInt = 2 ^ 30) := by
  obtain ⟨hlo0, hhi0⟩ := FixedScalar.mul_bounds a0 b0
  obtain ⟨hlo1, hhi1⟩ := FixedScalar.mul_bounds a1 b1
  have hwrap : macPair 0 a0 a1 b0 b1 = wrap32 (a0.toInt * b0.toInt + a1.toInt * b1.toInt) := by
    simp [macPair]
  rw [hwrap]
  refine ⟨fun hexact ⟨h0, h1⟩ => ?_, fun hfits => toInt_wrap32_of_fits (by omega) (by omega)⟩
  have hlt : (wrap32 (a0.toInt * b0.toInt + a1.toInt * b1.toInt)).toInt < 2 ^ 31 := BitVec.toInt_lt
  omega

/-- Two lists of one length that do not both have a head are both empty. -/
theorem eq_nil_of_length_eq {α β : Type} {xs : List α} {ws : List β} (hlen : xs.length = ws.length)
    (hcons : ∀ x xs' w ws', xs = x :: xs' → ws = w :: ws' → False) : xs = [] ∧ ws = [] := by
  cases xs with
  | nil => exact ⟨rfl, List.length_eq_zero_iff.1 hlen.symm⟩
  | cons x xs' =>
    cases ws with
    | nil => cases hlen
    | cons w ws' => exact (hcons x xs' w ws' rfl rfl).elim

/-- The sweep over equally many elements is the sum of all their products, wrapped once (40_numeric_core.md R165). -/
theorem dot_eq_wrap32_sum {xs ws : List FixedScalar} {acc : Acc} (h : xs.length = ws.length) :
    dot acc xs ws = wrap32 (acc.toInt + (List.zipWith (fun x w => x.toInt * w.toInt) xs ws).sum) := by
  induction acc, xs, ws using dot.induct with
  | case1 acc x0 x1 xs w0 w1 ws ih =>
    rw [dot, ih (by simpa using h), macPair, wrap32_toInt_wrap32_add]
    simp only [List.zipWith_cons_cons, List.sum_cons, Int.add_assoc]
  | case2 acc x0 xs w0 ws hpair =>
    obtain ⟨rfl, rfl⟩ := eq_nil_of_length_eq (by simpa using h) hpair
    simp [dot, macScalar]
  | case3 xs acc ws hpair hone =>
    obtain ⟨rfl, rfl⟩ := eq_nil_of_length_eq h hone
    simp [dot, wrap32]

/-- The 16-bit addition of two elements is the wrapped sum (40_numeric_core.md R166). -/
theorem add16_eq_ofInt (a b : FixedScalar) : add16 a b = BitVec.ofInt 16 (a.toInt + b.toInt) := rfl

/-- The Hadamard product of two elements floors the 4096th part (40_numeric_core.md R167). -/
theorem had16_eq_ofInt (a b : FixedScalar) : had16 a b = BitVec.ofInt 16 (a.toInt * b.toInt / 4096) := rfl

end Sys2Proof.Machine

namespace Sys2Proof.Proofs

open Sys2Proof Sys2Proof.Machine Sys2Proof.Claims

/-- Settles O9: the two forms of RQ, then the rule's examples evaluated. -/
theorem requantizeFloorsAndWraps : Obligations.RequantizeFloorsAndWraps :=
  ⟨fun acc => ⟨requantize_eq_sshiftRight acc, requantize_eq_ofInt acc⟩, by decide⟩

/-- Settles O10: the sums of biases times 4096 fit 32 bits. -/
theorem biasPreShiftIsExact : Obligations.BiasPreShiftIsExact := by
  refine ⟨fun b => ?_, fun b1 b2 => ?_⟩
  · obtain ⟨hlo, hhi⟩ := FixedScalar.bounds b
    exact ⟨toInt_bias12 b, by omega, by omega, requantize_bias12 b⟩
  · obtain ⟨hlo1, hhi1⟩ := FixedScalar.bounds b1
    obtain ⟨hlo2, hhi2⟩ := FixedScalar.bounds b2
    exact ⟨toInt_bias12Sum b1 b2, by omega, by omega⟩

/-- Settles O11: two products sum to at most 2^31, and to 2^31 for the four lanes -32768 alone. -/
theorem oneLanePairWraps : Obligations.OneLanePairWraps := by
  intro acc a0 a1 b0 b1
  obtain ⟨hlo, hhi⟩ := FixedScalar.mul_bounds a0 b0
  refine ⟨rfl, hlo, hhi, ?_, by decide⟩
  rw [toInt_macPair_zero_iff, FixedScalar.mul_eq_max_iff, FixedScalar.mul_eq_max_iff]
  tauto

/-- Settles O12, by the recursion of the sweep. -/
theorem dotIsTheWrappedSum : Obligations.DotIsTheWrappedSum :=
  fun _ _ _ h => dot_eq_wrap32_sum h

end Sys2Proof.Proofs
end

section
/-! PROOF. The accumulator primitives: what a load of one accumulator leaves in the bank, and what a primitive with a
legal index does (spec/40_numeric_core.md R170 to R174). -/

namespace Sys2Proof.Machine

open Sys2Proof.Claims

@[simp] theorem State.complete_getAcc (s : State) (k : Nat) : s.complete.getAcc k = s.getAcc k := rfl

/-- A load of acc[d] shows in acc[d] alone (10_state.md R45). -/
theorem State.getAcc_setAcc (s : State) (v : Acc) {d : Nat} (hd : d ≤ 14) (k : Nat) :
    (s.setAcc d v).getAcc k = if k = d then v else s.getAcc k :=
  vecGet_setIfInBounds s.acc v (by omega)

/-- A primitive that loads the accumulator it names completes, and only that accumulator changes. -/
theorem setAccCommand_does {s : State} {d : Word} (f : State → Acc) (hd : d.toNat ≤ 14) :
    ∃ t, (s.runCommand (checkIndex d) fun s => s.setAcc d.toNat (f s)) = .next t ∧ OnlyAcc s t d.toNat ∧
      t.getAcc d.toNat = f s := by
  refine ⟨_, runCommand_index hd, ⟨rfl, fun k hk => ?_⟩, ?_⟩
  · rw [State.complete_getAcc, State.getAcc_setAcc s _ hd, if_neg hk]
  · rw [State.complete_getAcc, State.getAcc_setAcc s _ hd, if_pos rfl]

/-- REQ with a legal index (40_numeric_core.md R174). -/
theorem exec_req_of_index {s : State} {d : Word} (hd : d.toNat ≤ 14) :
    exec (.req d) s = .next (s.setSres (requantize (s.getAcc d.toNat))).complete := by
  rw [exec, execReq, runCommand_index hd]

end Sys2Proof.Machine

namespace Sys2Proof.Proofs

open Sys2Proof Sys2Proof.Machine Sys2Proof.Claims

/-- Settles O13: both load the accumulator they name, ACCB with the exact pre-shift. -/
theorem accumulatorLoads : Obligations.AccumulatorLoads := by
  intro s d hd
  refine ⟨fun v => ?_, fun b => ?_⟩
  · exact setAccCommand_does (fun _ => v) hd
  · obtain ⟨t, hrun, honly, hget⟩ := setAccCommand_does (s := s) (fun _ => bias12 b) hd
    exact ⟨t, hrun, honly, by rw [hget, toInt_bias12]⟩

/-- Settles O14: both load the accumulator they name with a sum wrapped to 32 bits. -/
theorem multiplyAccumulates : Obligations.MultiplyAccumulates := by
  intro s d hd
  refine ⟨fun a b => ?_, fun a b => ?_⟩
  · obtain ⟨t, hrun, honly, hget⟩ := setAccCommand_does (s := s)
      (fun s => macPair (s.getAcc d.toNat) a.lane0 a.lane1 b.lane0 b.lane1) hd
    exact ⟨t, hrun, honly, by rw [hget]; exact BitVec.toInt_ofInt _⟩
  · obtain ⟨t, hrun, honly, hget⟩ := setAccCommand_does (s := s) (fun s => macScalar (s.getAcc d.toNat) a b) hd
    exact ⟨t, hrun, honly, by rw [hget]; exact BitVec.toInt_ofInt _⟩

/-- Settles O15: SRES takes the requantized accumulator, whose value the sign extension keeps. -/
theorem requantizeIntoSres : Obligations.RequantizeIntoSres := by
  intro s d hd
  refine ⟨_, exec_req_of_index hd, rfl, ?_⟩
  rw [State.complete_sres, State.setSres_sres, BitVec.toInt_signExtend_of_le (by decide), rq_toInt]

end Sys2Proof.Proofs
end

section
/-! PROOF. The element-wise commands: the statements' checks as the model's, what a run of stores leaves in the tensor
written, and the two shapes ADD, HAD and COPY, ACT have (spec/40_numeric_core.md R175 to R178). -/

namespace Sys2Proof.Machine

open Sys2Proof.Claims

/-! ### The statements' checks (60_exceptions.md R313 to R317) -/

theorem tensorError_eq_firstError (s : State) (ts : List (Nat × Nat)) :
    tensorError s ts = firstError (ts.map fun x => checkTensor s.platform x.1 x.2) := by
  induction ts with
  | nil => rfl
  | cons x ts ih =>
    by_cases hodd : x.1 % 2 = 1
    · simp [tensorError, checkTensor, hodd]
    · cases hmem : s.platform.memOk x.1 (2 * x.2) <;> simp [tensorError, checkTensor, hodd, hmem, ih]

theorem shapedError_eq_firstError (s : State) (shape : Prop) [Decidable shape] (ts : List (Nat × Nat)) :
    shapedError s shape ts =
      firstError (checkShape (decide shape) :: ts.map fun x => checkTensor s.platform x.1 x.2) := by
  by_cases h : shape <;> simp [shapedError, h, tensorError_eq_firstError, checkShape]

theorem elementError_eq_firstError (s : State) (n : Word) (ts : List Word) :
    elementError s n ts =
      firstError (checkShape (positive [n.toNat]) :: ts.map fun t => checkTensor s.platform t.toNat n.toNat) := by
  rw [elementError, shapedError_eq_firstError, List.map_map]
  simp [positive, Function.comp_def, Nat.lt_iff_add_one_le]

theorem elementError_binary (s : State) (a b dst n : Word) :
    elementError s n [a, b, dst] = binaryChecks s.platform a.toNat b.toNat dst.toNat n.toNat :=
  elementError_eq_firstError s n [a, b, dst]

theorem elementError_unary (s : State) (src dst n : Word) :
    elementError s n [src, dst] = unaryChecks s.platform src.toNat dst.toNat n.toNat :=
  elementError_eq_firstError s n [src, dst]

theorem elementError_fill (s : State) (dst n : Word) :
    elementError s n [dst] = fillChecks s.platform dst.toNat n.toNat :=
  elementError_eq_firstError s n [dst]

/-- Every tensor of an element-wise command that passes its checks lies in the address space (20_memory.md R84). -/
theorem le_of_elementError {s : State} {n t : Word} {ts : List Word} (h : elementError s n ts = none) (ht : t ∈ ts) :
    t.toNat + 2 * n.toNat ≤ 2 ^ 32 := by
  rw [elementError_eq_firstError, firstError_eq_none] at h
  obtain ⟨-, hmem⟩ := checkTensor_eq_none.1 (h _ (List.mem_cons_of_mem _ (List.mem_map_of_mem ht)))
  exact Platform.le_of_memOk hmem

/-! ### The tensor written -/

/-- Stores of one value for each index below `n` leave that value in each element. -/
theorem Run.elem_put_range {x : Run} {base n i : Nat} {g : Nat → FixedScalar} (hx : x.mem.wf)
    (hb : base + 2 * n ≤ 2 ^ 32) (hi : i < n) :
    (x.put false base ((List.range n).map fun k => (k, g k))).mem.elem base i = g i := by
  refine Run.elem_put hx ?_ (by omega) (List.mem_map.2 ⟨i, List.mem_range.2 hi, rfl⟩)
  simpa [Function.comp_def] using List.nodup_range

/-- In the forms that are defined, nothing DST overlaps makes its bytes free (20_memory.md R91). -/
theorem elementwiseOverlap_of_apart {desc dst : Range} {inputs : List Range} (hdesc : Apart dst [desc])
    (hin : ∀ q ∈ inputs, q = dst ∨ Apart dst [q]) : elementwiseOverlap desc dst inputs = false := by
  refine elementwiseOverlap_eq_false.2 fun q hq => ?_
  rcases hq with rfl | ⟨hmem, hne⟩
  · exact hdesc q (by simp)
  · exact (hin q hmem).resolve_left hne q (by simp)

theorem tensorRange_of_inPlaceOrApart {dst src n : Nat} (h : InPlaceOrApart dst src n) :
    tensorRange src n = tensorRange dst n ∨ Apart (tensorRange dst n) [tensorRange src n] :=
  h.imp_left (congrArg (tensorRange · n))

/-- A run that stays inside `ws` shows in memory there, in RESULT and in the completion alone (10_state.md R35). -/
theorem onlyTensor_finishTensor {s : State} {x : Run} {dst : Word} {ws : List Range} (h : Run.Within ws s.run x) :
    OnlyTensor s (s.finishTensor x dst).complete dst ws :=
  ⟨rfl, h.read⟩

/-! ### The commands, where the checks pass -/

/-- ADD and HAD store `f` of the two elements, whose value is that of the function `g` on the integers. -/
theorem binaryCommand_does {f : FixedScalar → FixedScalar → FixedScalar} {g : Int → Int → Int} {s : State}
    {a b dst n : Word} (hf : ∀ x y, f x y = BitVec.ofInt 16 (g x.toInt y.toInt)) (hwf : s.mem.wf)
    (h : elementError s n [a, b, dst] = none) : BinaryDoes g (binaryCommand f a b dst n) s a b dst n := by
  have hchecks := (elementError_binary s a b dst n).symm.trans h
  obtain ⟨free, hfree, hrun, hwithin⟩ := binaryCommand_none (f := f) hchecks
  refine ⟨_, hrun, onlyTensor_finishTensor hwithin, fun hdesc ha hb i hi => ?_⟩
  obtain rfl : free = false := hfree.trans (elementwiseOverlap_of_apart hdesc
    (by simp [tensorRange_of_inPlaceOrApart ha, tensorRange_of_inPlaceOrApart hb]))
  exact (Run.elem_put_range (x := s.run) hwf (le_of_elementError h (by simp)) hi).trans (hf _ _)

/-- COPY and ACT store `f` of the element. -/
theorem unaryCommand_does {f : FixedScalar → FixedScalar} {s : State} {src dst n : Word} (hwf : s.mem.wf)
    (h : elementError s n [src, dst] = none) : UnaryDoes f (unaryCommand f src dst n) s src dst n := by
  have hchecks := (elementError_unary s src dst n).symm.trans h
  obtain ⟨free, hfree, hrun, hwithin⟩ := unaryCommand_none (f := f) hchecks
  refine ⟨_, hrun, onlyTensor_finishTensor hwithin, fun hdesc hsrc i hi => ?_⟩
  obtain rfl : free = false := hfree.trans (elementwiseOverlap_of_apart hdesc
    (by simp [tensorRange_of_inPlaceOrApart hsrc]))
  exact Run.elem_put_range (x := s.run) hwf (le_of_elementError h (by simp)) hi

/-- FILL, where the checks pass (40_numeric_core.md R178). -/
theorem execFill_none {dst n : Word} {v : FixedScalar} {s : State}
    (h : fillChecks s.platform dst.toNat n.toNat = none) :
    ∃ free,
      free = elementwiseOverlap s.descRange (tensorRange dst.toNat n.toNat) [] ∧
      execFill dst n v s =
        .next (s.finishTensor (s.run.put free dst.toNat ((List.range n.toNat).map fun i => (i, v))) dst).complete ∧
      Run.Within [tensorRange dst.toNat n.toNat] s.run
        (s.run.put free dst.toNat ((List.range n.toNat).map fun i => (i, v))) :=
  ⟨_, rfl, runCommand_none h, Run.within_put_whole (n := n.toNat) (by simp) (by simp)⟩

end Sys2Proof.Machine

namespace Sys2Proof.Proofs

open Sys2Proof Sys2Proof.Machine Sys2Proof.Claims

/-- Settles O16: ADD is the binary command of the wrapped sum. -/
theorem addResult : Obligations.AddResult :=
  fun _ _ _ _ _ ⟨hwf, _⟩ hok => binaryCommand_does add16_eq_ofInt hwf hok

/-- Settles O17: HAD is the binary command of the floored product. -/
theorem hadamardResult : Obligations.HadamardResult :=
  fun _ _ _ _ _ ⟨hwf, _⟩ hok => binaryCommand_does had16_eq_ofInt hwf hok

/-- Settles O18: COPY is the unary command of the identity. -/
theorem copyResult : Obligations.CopyResult :=
  fun _ _ _ _ ⟨hwf, _⟩ hok => unaryCommand_does (f := id) hwf hok

/-- Settles O19: FILL stores one value at every index, and reads nothing that DST could overlap but its descriptor. -/
theorem fillResult : Obligations.FillResult := by
  intro s dst n v ⟨hwf, _⟩ hok
  have hchecks := (elementError_fill s dst n).symm.trans hok
  obtain ⟨free, hfree, hrun, hwithin⟩ := execFill_none (v := v) hchecks
  refine ⟨_, hrun, onlyTensor_finishTensor hwithin, fun hdesc i hi => ?_⟩
  obtain rfl : free = false := hfree.trans (elementwiseOverlap_of_apart hdesc (by simp))
  exact Run.elem_put_range (x := s.run) (g := fun _ => v) hwf (le_of_elementError hok (by simp)) hi

end Sys2Proof.Proofs
end

section
/-! PROOF. The tile scheduler: its tiles laid side by side are an interval of channels, and the greedy choice
(spec/41_tiled_kernels.md R200 to R202). -/

namespace Sys2Proof.Machine

/-- Width 1 is a candidate of every legal TILE_CFG (10_state.md R40). -/
theorem getLsbD_one_of_tileCfgLegal {cfg : Word} (h : tileCfgLegal cfg = true) : cfg.getLsbD 1 = true := by
  rw [← eq_of_beq (a := tileCfgOf cfg) h, getLsbD_tileCfgOf cfg (by omega) (by omega)]
  rfl

/-- The channels of a tile are an interval. -/
theorem Tile.channels_eq_range' (t : Tile) : t.channels = List.range' t.base t.width :=
  (List.range'_eq_map_range ..).symm

/-- Tiles of one width laid side by side are one interval. -/
theorem flatMap_channels_tilesOf (w base cnt : Nat) :
    (tilesOf w base cnt).flatMap Tile.channels = List.range' base (cnt * w) := by
  induction cnt with
  | zero => simp [tilesOf]
  | succ cnt ih =>
    have hsnoc : tilesOf w base (cnt + 1) = tilesOf w base cnt ++ [{ width := w, base := base + cnt * w }] := by
      simp [tilesOf, List.range_succ]
    rw [hsnoc, List.flatMap_append, ih, List.flatMap_singleton, Tile.channels_eq_range', List.range'_append_1,
      Nat.succ_mul]

/-- With width 1 as the last one left, the scan leaves no channel out and takes none twice (R202). -/
theorem flatMap_channels_schedFrom {ts : List Nat} (h : ts.getLast? = some 1) (base rem : Nat) :
    (schedFrom ts base rem).flatMap Tile.channels = List.range' base rem := by
  induction ts generalizing base rem with
  | nil => cases h
  | cons w ts ih =>
    rw [schedFrom_cons, List.flatMap_append, flatMap_channels_tilesOf]
    cases ts with
    | nil =>
      obtain rfl : w = 1 := by simpa using h
      simp
    | cons w' ts =>
      rw [ih (by simpa using h), List.range'_append_1, Nat.add_sub_cancel' (Nat.div_mul_le_self rem w)]

/-- SCHED(N) lists the channels below N in increasing order (R202). -/
theorem flatMap_channels_sched {cfg : Word} (h : tileCfgLegal cfg = true) (n : Nat) :
    (sched cfg n).flatMap Tile.channels = List.range n := by
  rw [sched, flatMap_channels_schedFrom (candidates_getLast? (getLsbD_one_of_tileCfgLegal h)), List.range_eq_range']

/-- The widths of tiles sum to the number of their channels. -/
theorem sum_map_width (tiles : List Tile) : (tiles.map Tile.width).sum = (tiles.flatMap Tile.channels).length := by
  simp [List.length_flatMap, Tile.channels]

/-- The scan takes a width it still has while that many channels are left (R201). -/
theorem le_width_of_mem_schedFrom {ts : List Nat} {base rem w : Nat} {t : Tile} (hdesc : ts.Pairwise fun a b => b < a)
    (hw : w ∈ ts) (hpos : 1 ≤ w) (ht : t ∈ schedFrom ts base rem) (hleft : t.base + w ≤ base + rem) :
    w ≤ t.width := by
  induction ts generalizing base rem with
  | nil => cases hw
  | cons a ts ih =>
    obtain ⟨hbelow, hdesc⟩ := List.pairwise_cons.1 hdesc
    have hsplit : rem / a * a + rem % a = rem := Nat.div_add_mod' rem a
    rw [schedFrom_cons, List.mem_append] at ht
    rcases List.mem_cons.1 hw with rfl | hw
    · rcases ht with ht | ht
      · obtain ⟨c, -, rfl⟩ := mem_tilesOf.1 ht
        exact le_rfl
      · have hstart := (mem_schedFrom ht).2.1
        have hmod : rem % w < w := Nat.mod_lt _ hpos
        omega
    · rcases ht with ht | ht
      · obtain ⟨c, -, rfl⟩ := mem_tilesOf.1 ht
        exact (hbelow w hw).le
      · exact ih hdesc hw ht (by omega)

end Sys2Proof.Machine

namespace Sys2Proof.Proofs

open Sys2Proof Sys2Proof.Machine Sys2Proof.Claims

/-- Settles O26: the scan ends with width 1, so its tiles make up the whole interval of channels. -/
theorem tilesCoverEachChannelOnce : Obligations.TilesCoverEachChannelOnce := by
  intro cfg n h
  refine ⟨rfl, flatMap_channels_sched h n, ?_, fun t ht => mem_candidates.1 (mem_sched ht).1⟩
  rw [sum_map_width, flatMap_channels_sched h, List.length_range]

/-- Settles O27: the candidates descend, so a tile narrower than `w` is taken after all tiles of width `w`. -/
theorem scheduleIsGreedy : Obligations.ScheduleIsGreedy := by
  intro cfg n w _ h1 h15 hbit t ht hleft
  exact le_width_of_mem_schedFrom (candidates_descend cfg) (mem_candidates.2 ⟨h1, h15, hbit⟩) h1 ht (by omega)

end Sys2Proof.Proofs
end

section
/-! PROOF. The closed forms of the tiled kernels' channels: every sweep and every tap adds its products modulo 2^32, so
a channel is one requantization of one sum (spec/40_numeric_core.md R165, spec/41_tiled_kernels.md R205 to R210). -/

namespace Sys2Proof.Machine

open Sys2Proof.Claims

/-! ### Sums -/

/-- A condition on a whole sum is a condition on each of its terms. -/
theorem ite_sumTo (p : Bool) (q : Nat → Bool) (n : Nat) (f : Nat → Int) :
    (if p then sumTo n fun i => if q i then f i else 0 else 0) = sumTo n fun i => if p && q i then f i else 0 := by
  cases p <;> simp [sumTo]

/-- The sum over the indices that pass a test, the others counted as 0. -/
theorem sum_map_filter_range (n : Nat) (p : Nat → Bool) (f : Nat → Int) :
    (((List.range n).filter p).map f).sum = sumTo n fun i => if p i then f i else 0 := by
  simp [sumTo, List.sum_map_ite]

/-- Steps that each add a term and wrap add up to the whole sum, wrapped once (40_numeric_core.md R165). -/
theorem foldl_wrap32_add (g : Nat → Int) (l : List Nat) (acc : Acc) :
    l.foldl (fun acc k => wrap32 (acc.toInt + g k)) acc = wrap32 (acc.toInt + (l.map g).sum) := by
  induction l generalizing acc with
  | nil => simp [wrap32]
  | cons k l ih => rw [List.foldl_cons, ih, wrap32_toInt_wrap32_add, List.map_cons, List.sum_cons, Int.add_assoc]

/-! ### The sweep over two tensors -/

/-- An element of a tensor that starts at element `k` of another. -/
theorem Memory.elem_add_two_mul (m : Memory) (t k i : Nat) : m.elem (t + 2 * k) i = m.elem t (k + i) := by
  rw [Memory.elem, Memory.elem, Nat.mul_add, Nat.add_assoc]

/-- The sweep over `n` elements from element `j` of `x` and from element `k` of `w` on. -/
theorem dot_tensor (m : Memory) (acc : Acc) (x w j k n : Nat) :
    dot acc (m.tensor (x + 2 * j) n) (m.tensor (w + 2 * k) n) =
      wrap32 (acc.toInt + sumTo n fun i => val m x (j + i) * val m w (k + i)) := by
  rw [dot_eq_wrap32_sum (by simp)]
  simp only [Memory.tensor, List.zipWith_map, List.zipWith_self, Memory.elem_add_two_mul]
  rfl

/-- The sweep over all of an input tensor. -/
theorem dot_tensor_dotSum (m : Memory) (acc : Acc) (x w k n : Nat) :
    dot acc (m.tensor x n) (m.tensor (w + 2 * k) n) = wrap32 (acc.toInt + dotSum m x w k n) := by
  simpa [dotSum] using dot_tensor m acc x w 0 k n

/-! ### LINEAR and GATEFUSION -/

/-- A channel of LINEAR (41_tiled_kernels.md R205). -/
theorem linearChannel_bias (m : Memory) (o : LinearOps) (c : Nat) :
    linearChannel m (linearArgs true o) c =
      linearClosed m (val m o.b.toNat c) o.inp.toNat o.w.toNat o.nIn.toNat c := by
  simp only [linearChannel, linearArgs, if_true]
  rw [dot_tensor_dotSum, requantize_wrap32, toInt_bias12]
  rfl

/-- A channel of LINEAR.NB (41_tiled_kernels.md R206). -/
theorem linearChannel_noBias (m : Memory) (o : LinearOps) (c : Nat) :
    linearChannel m (linearArgs false o) c = linearClosed m 0 o.inp.toNat o.w.toNat o.nIn.toNat c := by
  simp only [linearChannel, linearArgs, Bool.false_eq_true, if_false]
  rw [dot_tensor_dotSum, requantize_wrap32]
  rfl

/-- A channel of GATEFUSION: the wrap between the two sweeps does not show (41_tiled_kernels.md R210). -/
theorem gateChannel_eq_gateClosed (s : State) (mode : Mode) (o : GateOps) (c : Nat) :
    gateChannel s.lut mode s.mem (gateArgs o) c = gateClosed s mode o c := by
  simp only [gateChannel, gateArgs]
  rw [dot_tensor_dotSum, dot_tensor_dotSum, wrap32_toInt_wrap32_add, requantize_wrap32, toInt_bias12Sum]
  rfl

/-! ### CONV2D -/

/-- The taps the model walks are those the rule calls valid (41_tiled_kernels.md R207). -/
theorem validTaps_perm {k n y : Nat} (hy : y < n) :
    (validTaps k n y).Perm ((List.range k).filter (tapValid n k y)) := by
  have hspan (lo hi : Nat) : span lo hi = List.range' lo (hi - lo) := (List.range'_eq_map_range ..).symm
  refine (List.perm_ext_iff_of_nodup ?_ (List.nodup_range.filter _)).2 fun i => ?_
  · rw [validTaps, hspan]
    exact List.nodup_range'
  · simp only [validTaps, hspan, List.mem_range'_1, List.mem_filter, List.mem_range, tapValid, Bool.and_eq_true,
      decide_eq_true_eq]
    omega

/-- The sum over the taps the model walks. -/
theorem sum_map_validTaps {k n y : Nat} (hy : y < n) (f : Nat → Int) :
    ((validTaps k n y).map f).sum = sumTo k fun i => if tapValid n k y i then f i else 0 := by
  rw [((validTaps_perm hy).map f).sum_eq, sum_map_filter_range]

/-- What the tap (kh, kw) adds to output (co, y, x) of a CONV2D (41_tiled_kernels.md R208). -/
def convTap (m : Memory) (a : ConvArgs) (co y x kh kw : Nat) : Int :=
  sumTo a.cin fun ci =>
    val m a.inp (((y + kh - (a.kh - 1) / 2) * a.wd + (x + kw - (a.kw - 1) / 2)) * a.cin + ci) *
      val m a.w (((co * a.kh + kh) * a.kw + kw) * a.cin + ci)

/-- The accumulator of an output is its bias and its valid taps, wrapped once. -/
theorem convAcc_eq_wrap32 (m : Memory) (a : ConvArgs) {co y x : Nat} (hy : y < a.h) (hx : x < a.wd) :
    convAcc m a co y x =
      wrap32 (val m a.b co * 4096 +
        sumTo a.kh fun kh => sumTo a.kw fun kw =>
          if tapValid a.h a.kh y kh && tapValid a.wd a.kw x kw then convTap m a co y x kh kw else 0) := by
  simp only [convAcc, dot_tensor, foldl_wrap32_add, sum_map_validTaps hx, sum_map_validTaps hy, ite_sumTo,
    toInt_bias12, val, convTap]

/-- An output of CONV2D (41_tiled_kernels.md R208). -/
theorem requantize_convAcc (m : Memory) (o : ConvOps) {co y x : Nat} (hy : y < o.h.toNat) (hx : x < o.wd.toNat) :
    requantize (convAcc m (convArgs o) co y x) = convClosed m o co y x := by
  have hacc := convAcc_eq_wrap32 m (convArgs o) (co := co) hy hx
  simp only [convArgs] at hacc ⊢
  rw [hacc, requantize_wrap32]
  rfl

end Sys2Proof.Machine
end

section
/-! PROOF. The tiled kernels as commands: what each stores is the table of its channels' values whatever the tiling is,
so OUT holds the table and the rest of memory is left (spec/41_tiled_kernels.md R203 to R211). -/

namespace Sys2Proof.Machine

open Sys2Proof.Claims

/-! ### Tables of values -/

/-- The stores `es` are those of the values `g i` at every index `i` below `n`, in any order. -/
def Tabulates (es : List (Nat × FixedScalar)) (n : Nat) (g : Nat → FixedScalar) : Prop :=
  ∀ e, e ∈ es ↔ e.1 < n ∧ e.2 = g e.1

/-- An element whose stores all have one value holds it, if it is stored at all. -/
theorem Run.elem_put_agree {base i : Nat} {v : FixedScalar} {es : List (Nat × FixedScalar)} {x : Run} (hx : x.mem.wf)
    (hb : base + 2 * i + 1 < 2 ^ 32) (hval : ∀ e ∈ es, e.1 = i → e.2 = v)
    (hv : (i, v) ∈ es ∨ x.mem.elem base i = v) : (x.put false base es).mem.elem base i = v := by
  induction es generalizing x with
  | nil => exact hv.resolve_left List.not_mem_nil
  | cons e es ih =>
    obtain ⟨j, w⟩ := e
    simp only [Run.put, Bool.false_eq_true, if_false]
    refine ih (Memory.wf_st16 hx) (fun e he => hval e (List.mem_cons_of_mem _ he)) ?_
    by_cases hj : j = i
    · subst hj
      obtain rfl : w = v := hval _ List.mem_cons_self rfl
      exact .inr (Memory.ld16_st16_same hx hb)
    · refine hv.imp (fun h => (List.mem_cons.1 h).resolve_left fun heq => hj (Prod.mk.inj heq).1.symm) fun h => ?_
      exact (Memory.ld16_st16_disjoint (by omega)).trans h

/-- Where nothing overlaps, the tensor holds the table stored. -/
theorem Tabulates.elem_put {es : List (Nat × FixedScalar)} {n base i : Nat} {g : Nat → FixedScalar} {x : Run}
    (hes : Tabulates es n g) (hx : x.mem.wf) (hb : base + 2 * n ≤ 2 ^ 32) (hi : i < n) :
    (x.put false base es).mem.elem base i = g i :=
  Run.elem_put_agree hx (by omega) (fun e he heq => heq ▸ ((hes e).1 he).2) (.inl ((hes (i, g i)).2 ⟨hi, rfl⟩))

/-- Equal elements make equal bytes, so memories that agree outside a tensor and on its elements are the same. -/
theorem Memory.read_eq_of_elem_eq {m m' : Memory} {t n : Nat} (helem : ∀ i, i < n → m.elem t i = m'.elem t i)
    (hout : ∀ p, (tensorRange t n).holds p = false → m.read p = m'.read p) (p : Nat) : m.read p = m'.read p := by
  by_cases hp : (tensorRange t n).holds p = true
  · obtain ⟨hlo, hhi⟩ := holds_tensorRange.1 hp
    have heq := helem ((p - t) / 2) (by omega)
    rcases (by omega : p = t + 2 * ((p - t) / 2) ∨ p = t + 2 * ((p - t) / 2) + 1) with h | h <;> rw [h]
    · simpa [Memory.elem, Memory.ld16] using congrArg (byteOfHalf · 0) heq
    · simpa [Memory.elem, Memory.ld16] using congrArg (byteOfHalf · 1) heq
  · exact hout p (by simpa using hp)

/-- A kernel that runs its channels tile by tile stores each channel's value (R202, R203). -/
theorem tabulates_tiled {cfg : Word} (hcfg : tileCfgLegal cfg = true) (n : Nat) (f : Nat → FixedScalar) :
    Tabulates (tiled (sched cfg n) f) n f := fun e => by
  rw [mem_tiled, ← List.mem_range, ← flatMap_channels_sched hcfg n, List.mem_flatMap]
  tauto

/-- The value CONV2D stores at index `i` of OUT, the index of channel, row and column. -/
def convValue (m : Memory) (a : ConvArgs) (i : Nat) : FixedScalar :=
  requantize (convAcc m a (i / a.wd / a.h) (i / a.wd % a.h) (i % a.wd))

/-- The digits of an index of OUT. -/
theorem convValue_index (m : Memory) (a : ConvArgs) (co : Nat) {y x : Nat} (hy : y < a.h) (hx : x < a.wd) :
    convValue m a ((co * a.h + y) * a.wd + x) = requantize (convAcc m a co y x) := by
  have hrow : ((co * a.h + y) * a.wd + x) / a.wd = co * a.h + y := by
    rw [Nat.mul_comm, Nat.mul_add_div (by omega), Nat.div_eq_of_lt hx, Nat.add_zero]
  have hchannel : (co * a.h + y) / a.h = co := by
    rw [Nat.mul_comm, Nat.mul_add_div (by omega), Nat.div_eq_of_lt hy, Nat.add_zero]
  rw [convValue, hrow, hchannel, Nat.mul_add_mod', Nat.mul_add_mod', Nat.mod_eq_of_lt hx,
    Nat.mod_eq_of_lt hy]

/-- A number of two digits, the lower one below `b`. -/
theorem digit_lt {a b i j : Nat} (hi : i < a) (hj : j < b) : i * b + j < a * b := by
  have hle := Nat.mul_le_mul_right b (Nat.succ_le_of_lt hi)
  rw [Nat.succ_mul] at hle
  omega

/-- The index of an output lies in OUT. -/
theorem convIndex_lt {co y x cout h wd : Nat} (hco : co < cout) (hy : y < h) (hx : x < wd) :
    (co * h + y) * wd + x < cout * h * wd :=
  digit_lt (digit_lt hco hy) hx

/-- CONV2D stores every output's value (R203, R208). -/
theorem tabulates_convOutputs {cfg : Word} (hcfg : tileCfgLegal cfg = true) (m : Memory) (a : ConvArgs) :
    Tabulates (convOutputs cfg m a) (convOutSize a) (convValue m a) := fun e => by
  refine ⟨fun he => ⟨convOutputs_lt e he, ?_⟩, fun ⟨hlt, hval⟩ => ?_⟩
  · simp only [convOutputs, List.mem_flatMap, List.mem_map, List.mem_range] at he
    obtain ⟨t, -, y, hy, x, hx, co, -, rfl⟩ := he
    exact (convValue_index m a co hy hx).symm
  · obtain ⟨i, v⟩ := e
    obtain rfl : v = convValue m a i := hval
    have hlt : i < a.cout * a.h * a.wd := hlt
    have hwd : 0 < a.wd := Nat.pos_of_lt_mul_left hlt
    have hrow : i / a.wd < a.cout * a.h := Nat.div_lt_of_lt_mul (by rwa [Nat.mul_comm])
    have hh : 0 < a.h := Nat.pos_of_lt_mul_left hrow
    have hco : i / a.wd / a.h < a.cout := Nat.div_lt_of_lt_mul (by rwa [Nat.mul_comm])
    rw [← List.mem_range, ← flatMap_channels_sched hcfg, List.mem_flatMap] at hco
    obtain ⟨t, ht, hco⟩ := hco
    simp only [convOutputs, List.mem_flatMap, List.mem_map, List.mem_range]
    exact ⟨t, ht, _, Nat.mod_lt _ hh, _, Nat.mod_lt _ hwd, _, hco, by rw [Nat.div_add_mod', Nat.div_add_mod']; rfl⟩

/-! ### Tiled commands -/

/-- What a tiled command, run as `run`, does from `s`: it leaves OUT, `n` elements at `dst`, with the table `g` unless
OUT shares a byte with one of `reads`, and LAST_PASSES with PASSES(cnt). -/
def TiledDoes (run : State → Host.Outcome State Fault Refusal) (s : State) (dst : Word) (cnt n : Nat)
    (reads : List Range) (g : Nat → FixedScalar) : Prop :=
  ∃ t, run s = .next t ∧ t.mem.wf ∧ OnlyTiled s t dst cnt [tensorRange dst.toNat n] ∧
    (Apart (tensorRange dst.toNat n) reads → ∀ i, i < n → t.mem.elem dst.toNat i = g i)

/-- A command that ends with one run of stores of a table does so. -/
theorem tiledDoes_of_put {run : State → Host.Outcome State Fault Refusal} {s : State} {dst : Word} {cnt n : Nat}
    {reads : List Range} {g : Nat → FixedScalar} {es : List (Nat × FixedScalar)} (hwf : s.mem.wf)
    (hb : dst.toNat + 2 * n ≤ 2 ^ 32) (hes : Tabulates es n g)
    (hrun : run s = .next (s.finishTiled (s.run.put ((tensorRange dst.toNat n).meets reads) dst.toNat es) dst
      (passes s.tileCfg cnt)).complete) :
    TiledDoes run s dst cnt n reads g := by
  have hwithin : Run.Within [tensorRange dst.toNat n] s.run
      (s.run.put ((tensorRange dst.toNat n).meets reads) dst.toNat es) :=
    Run.within_put_whole (fun e he => ((hes e).1 he).1) List.mem_cons_self
  refine ⟨_, hrun, hwithin.wf hwf, ⟨rfl, hwithin.read⟩, fun hap i hi => ?_⟩
  rw [Range.meets_eq_false.2 hap]
  exact hes.elem_put (x := s.run) hwf hb hi

/-- A tiled command keeps the LUT, the platform and the place of the descriptor. -/
theorem keeps_of_onlyTiled {s t : State} {dst : Word} {cnt : Nat} {ws : List Range} (h : OnlyTiled s t dst cnt ws) :
    t.lut = s.lut ∧ t.platform = s.platform ∧ t.descRange = s.descRange := by
  rw [h.1]
  exact ⟨rfl, rfl, rfl⟩

/-- A command that leaves the same table under two values of TILE_CFG leaves the same memory (R204). -/
theorem TiledDoes.same_memory {run : State → Host.Outcome State Fault Refusal} {s : State} {cfg dst : Word}
    {cnt n : Nat} {reads : List Range} {g : Nat → FixedScalar} (h : TiledDoes run s dst cnt n reads g)
    (h' : TiledDoes run { s with tileCfg := cfg } dst cnt n reads g) (hap : Apart (tensorRange dst.toNat n) reads) :
    ∃ t u, run s = .next t ∧ run { s with tileCfg := cfg } = .next u ∧ ∀ p, u.mem.read p = t.mem.read p := by
  obtain ⟨t, hrun, -, htiled, helem⟩ := h
  obtain ⟨u, hrun', -, htiled', helem'⟩ := h'
  refine ⟨t, u, hrun, hrun', Memory.read_eq_of_elem_eq (t := dst.toNat) (n := n) (fun i hi => ?_) fun p hp => ?_⟩
  · exact (helem' hap i hi).trans (helem hap i hi).symm
  · exact (htiled'.2 p (by simpa using hp)).trans (htiled.2 p (by simpa using hp)).symm

/-! ### The statements' checks (R205, R208, R210) -/

/-- A tensor whose check passes lies in the address space (20_memory.md R84). -/
theorem le_of_firstError {p : Platform} {cs : List (Option ErrCode)} {t n : Nat} (h : firstError cs = none)
    (hmem : checkTensor p t n ∈ cs) : t + 2 * n ≤ 2 ^ 32 :=
  Platform.le_of_memOk (checkTensor_eq_none.1 (firstError_eq_none.1 h _ hmem)).2

theorem linearError_eq_linearChecks (s : State) (hasBias : Bool) (o : LinearOps) :
    linearError s hasBias o = linearChecks s.platform (linearArgs hasBias o) := by
  rw [linearError, shapedError_eq_firstError]
  cases hasBias <;>
    simp [linearTensors, linearChecks, linearArgs, linearShape, linearParamChecks, positive, Nat.lt_iff_add_one_le]

theorem convError_eq_convChecks (s : State) (o : ConvOps) : convError s o = convChecks s.platform (convArgs o) := by
  have hshape : decide (1 ≤ o.h.toNat ∧ 1 ≤ o.wd.toNat ∧ 1 ≤ o.cin.toNat ∧ 1 ≤ o.cout.toNat ∧
        o.kh.toNat % 2 = 1 ∧ o.kw.toNat % 2 = 1) =
      (positive [o.h.toNat, o.wd.toNat, o.cin.toNat, o.cout.toNat, o.kh.toNat, o.kw.toNat] && o.kh.toNat % 2 == 1 &&
        o.kw.toNat % 2 == 1) := by
    rw [Bool.eq_iff_iff]
    simp only [decide_eq_true_eq, Bool.and_eq_true, beq_iff_eq, positive_iff, List.forall_mem_cons]
    simp only [List.not_mem_nil, false_imp_iff, implies_true, and_true]
    omega
  rw [convError, shapedError_eq_firstError, hshape]
  rfl

theorem gateError_eq_gateChecks (s : State) (o : GateOps) : gateError s o = gateChecks s.platform (gateArgs o) := by
  rw [gateError, shapedError_eq_firstError]
  simp [gateChecks, gateArgs, positive, Nat.lt_iff_add_one_le]

/-! ### The kernels, where the checks pass -/

/-- LINEAR of either form (R205, R206). -/
theorem linearCommand_does {s : State} {hasBias : Bool} {o : LinearOps} (hs : Ready s)
    (h : linearChecks s.platform (linearArgs hasBias o) = none) :
    TiledDoes (linearCommand hasBias o) s o.out o.nOut.toNat o.nOut.toNat (linearReads s hasBias o)
      (linearChannel s.mem (linearArgs hasBias o)) :=
  tiledDoes_of_put hs.1 (le_of_firstError (p := s.platform) h (by simp [linearArgs])) (tabulates_tiled hs.2 _ _)
    (linearCommand_none h)

/-- CONV2D (R208). -/
theorem execConv2d_does {s : State} {o : ConvOps} (hs : Ready s) (h : convChecks s.platform (convArgs o) = none) :
    TiledDoes (execConv2d o) s o.out o.cout.toNat (o.cout.toNat * o.h.toNat * o.wd.toNat) (convReads s o)
      (convValue s.mem (convArgs o)) :=
  tiledDoes_of_put hs.1 (le_of_firstError (p := s.platform) h (by simp [convArgs, convOutSize]))
    (tabulates_convOutputs hs.2 s.mem (convArgs o)) (runCommand_none h)

/-- GATEFUSION of any form (R210). -/
theorem gateCommand_does {s : State} {mode : Mode} {o : GateOps} (hs : Ready s)
    (h : gateChecks s.platform (gateArgs o) = none) :
    TiledDoes (gateCommand mode o) s o.out o.nOut.toNat o.nOut.toNat (gateReads s o) (gateClosed s mode o) := by
  refine tiledDoes_of_put hs.1 (le_of_firstError (p := s.platform) h (by simp [gateArgs])) ?_ (runCommand_none h)
  exact funext (gateChannel_eq_gateClosed s mode o) ▸ tabulates_tiled hs.2 _ _

/-- LINEAR of either form from the closed form of its channels. -/
theorem linearDoes_of_channel {s : State} {hasBias : Bool} {o : LinearOps} {bias : Nat → Int} (hs : Ready s)
    (h : linearError s hasBias o = none)
    (hchannel : ∀ c, linearChannel s.mem (linearArgs hasBias o) c =
      linearClosed s.mem (bias c) o.inp.toNat o.w.toNat o.nIn.toNat c) :
    LinearDoes (linearCommand hasBias o) s o (linearReads s hasBias o) bias := by
  rw [linearError_eq_linearChecks] at h
  obtain ⟨t, hrun, -, htiled, helem⟩ := linearCommand_does hs h
  exact ⟨t, hrun, htiled, fun hap c hc => (helem hap c hc).trans (hchannel c)⟩

theorem gateDoes_of_gateError {s : State} {o : GateOps} (mode : Mode) (hs : Ready s) (h : gateError s o = none) :
    GateDoes mode (gateCommand mode o) s o := by
  rw [gateError_eq_gateChecks] at h
  obtain ⟨t, hrun, -, htiled, helem⟩ := gateCommand_does (mode := mode) hs h
  exact ⟨t, hrun, htiled, helem⟩

/-- An accepted GATEFUSION leaves an OUT that ACT in place accepts (42_activation.md R248). -/
theorem elementError_of_gateChecks {s t : State} {o : GateOps} (hplatform : t.platform = s.platform)
    (h : gateChecks s.platform (gateArgs o) = none) : elementError t o.nOut [o.out, o.out] = none := by
  rw [elementError_unary, hplatform]
  simp only [gateChecks, gateArgs, unaryChecks, firstError_eq_none, List.forall_mem_cons, checkShape_eq_none,
    positive_iff] at h ⊢
  obtain ⟨⟨-, -, hpos⟩, -, -, -, -, -, -, hout, -⟩ := h
  exact ⟨hpos, hout, hout, by simp⟩

/-- A fused activation and the separate one leave the same elements in OUT, hence the same memory (R211). -/
theorem fused_eq_separate {s t : State} {o : GateOps} (mode : Mode) (hs : Ready s)
    (h : gateChecks s.platform (gateArgs o) = none)
    (hap : Apart (tensorRange o.out.toNat o.nOut.toNat) (gateReads s o)) (ht : gateCommand .identity o s = .next t) :
    ∃ f a, gateCommand mode o s = .next f ∧ unaryCommand (actf t.lut mode) o.out o.out o.nOut t = .next a ∧
      ∀ p, a.mem.read p = f.mem.read p := by
  obtain ⟨t', hrun, hwf, htiled, helem⟩ := gateCommand_does (mode := .identity) hs h
  cases ht.symm.trans hrun
  obtain ⟨f, hrunf, -, htiledf, helemf⟩ := gateCommand_does (mode := mode) hs h
  obtain ⟨hlut, hplatform, hdesc⟩ := keeps_of_onlyTiled htiled
  obtain ⟨a, hruna, ⟨-, houta⟩, helema⟩ := unaryCommand_does (f := actf t.lut mode) hwf
    (elementError_of_gateChecks hplatform h)
  refine ⟨f, a, hrunf, hruna,
    Memory.read_eq_of_elem_eq (t := o.out.toNat) (n := o.nOut.toNat) (fun i hi => ?_) fun p hp => ?_⟩
  · have hapart : Apart (tensorRange o.out.toNat o.nOut.toNat) [t.descRange] := fun q hq => by
      rw [hdesc] at hq
      exact hap q (List.mem_cons.2 (.inl (List.mem_singleton.1 hq)))
    calc a.mem.elem o.out.toNat i
        = actf t.lut mode (t.mem.elem o.out.toNat i) := helema hapart (.inl rfl) i hi
      _ = actf s.lut mode (gateClosed s .identity o i) := by rw [hlut, helem hap i hi]
      _ = f.mem.elem o.out.toNat i := (helemf hap i hi).symm
  · rw [houta p (by simpa using hp), htiled.2 p (by simpa using hp), htiledf.2 p (by simpa using hp)]

end Sys2Proof.Machine

namespace Sys2Proof.Proofs

open Sys2Proof Sys2Proof.Machine Sys2Proof.Claims

/-- Settles O29: LINEAR stores each channel's value, whose closed form starts at the channel's bias. -/
theorem linearResult : Obligations.LinearResult :=
  fun s o hs h => linearDoes_of_channel hs h (linearChannel_bias s.mem o)

/-- Settles O30: LINEAR.NB stores each channel's value, whose closed form starts at 0. -/
theorem linearWithoutBiasResult : Obligations.LinearWithoutBiasResult :=
  fun s o hs h => linearDoes_of_channel hs h (linearChannel_noBias s.mem o)

/-- Settles O31: CONV2D stores each output at its index, whose digits are channel, row and column. -/
theorem convolutionResult : Obligations.ConvolutionResult := by
  intro s o hs h
  obtain ⟨t, hrun, -, htiled, helem⟩ := execConv2d_does hs ((convError_eq_convChecks s o).symm.trans h)
  refine ⟨t, hrun, htiled, fun hap co y x hco hy hx => ?_⟩
  rw [helem hap _ (convIndex_lt hco hy hx), ← requantize_convAcc s.mem o hy hx]
  exact convValue_index s.mem (convArgs o) co hy hx

/-- Settles O32: the three forms are one command, with the activation its last step. -/
theorem gateFusionResult : Obligations.GateFusionResult :=
  fun _ _ hs h => ⟨gateDoes_of_gateError .identity hs h, gateDoes_of_gateError .tanh hs h,
    gateDoes_of_gateError .sigmoid hs h⟩

/-- Settles O33: ACT in place applies to OUT the activation that the fused form applies before it stores. -/
theorem fusedActivationEqualsSeparate : Obligations.FusedActivationEqualsSeparate := by
  intro s o hs h hap
  have hchecks := (gateError_eq_gateChecks s o).symm.trans h
  obtain ⟨t, hrun, -⟩ := gateCommand_does (mode := .identity) hs hchecks
  exact ⟨t, hrun, fused_eq_separate .tanh hs hchecks hap hrun, fused_eq_separate .sigmoid hs hchecks hap hrun⟩

/-- Settles O34: under any two legal tilings a kernel stores one and the same table. -/
theorem outputsDoNotDependOnTiling : Obligations.OutputsDoNotDependOnTiling := by
  intro s cfg hs hcfg
  have hs' : Ready { s with tileCfg := cfg } := ⟨hs.1, hcfg⟩
  have hlinear {hasBias : Bool} {o : LinearOps} (h : linearError s hasBias o = none) :=
    have hchecks := (linearError_eq_linearChecks s hasBias o).symm.trans h
    (linearCommand_does hs hchecks).same_memory (cfg := cfg) (linearCommand_does hs' hchecks)
  refine ⟨fun o h hap => hlinear h hap, fun o h hap => hlinear h hap, fun o h hap => ?_, fun o h hap => ?_⟩
  · have hchecks := (convError_eq_convChecks s o).symm.trans h
    exact (execConv2d_does hs hchecks).same_memory (execConv2d_does hs' hchecks) hap
  · have hchecks := (gateError_eq_gateChecks s o).symm.trans h
    have hgate (mode : Mode) := (gateCommand_does (mode := mode) hs hchecks).same_memory (cfg := cfg)
      (gateCommand_does hs' hchecks) hap
    exact ⟨hgate .identity, hgate .tanh, hgate .sigmoid⟩

end Sys2Proof.Proofs
end

section
/-! PROOF. The activation engine: the shape tanh and sigmoid share, with one lemma per branch of it, then the commands
ACTS and ACT (spec/42_activation.md R241 to R248). -/

namespace Sys2Proof.Machine

open Sys2Proof.Claims

/-! ### The shape of ACTF (R243) -/

/-- What tanh and sigmoid share: `low` is the saturation value of negative inputs, 1.0 that of the others, and `mirror`
makes the value of a negative input from that of its magnitude (R242, R243). -/
def lutActivation (m q : Vector Word 16) (low : FixedScalar) (mirror : FixedScalar → FixedScalar) (x : FixedScalar) :
    FixedScalar :=
  let a := x.toInt.natAbs
  if 16 ≤ bucket a then (if x.toInt < 0 then low else 0x1000)
  else if x.toInt < 0 then mirror (lutEval m q (bucket a) a) else lutEval m q (bucket a) a

/-- The sigmoid's mirror: one-minus-epsilon plus the complement (R245). -/
def sigmoidMirror (r : FixedScalar) : FixedScalar := wrap16 (4095 + (~~~r).toInt)

/-- tanh saturates at -1.0 and mirrors by the complement (R242, R244). -/
theorem actf_tanh (lut : Lut) (x : FixedScalar) :
    actf lut .tanh x = lutActivation lut.tanhM lut.tanhQ 0xF000 (~~~·) x := rfl

/-- sigmoid saturates at 0 and mirrors from one-minus-epsilon (R242, R245). -/
theorem actf_sigmoid (lut : Lut) (x : FixedScalar) :
    actf lut .sigmoid x = lutActivation lut.sigM lut.sigQ 0 sigmoidMirror x := rfl

/-- The inputs that saturate are those of magnitude 4.0 or more (R241). -/
theorem sixteen_le_bucket_iff {v : Int} : 16 ≤ bucket v.natAbs ↔ 16384 ≤ v ∨ v ≤ -16384 := by
  unfold bucket
  omega

/-- The bucket of a nonnegative value (R241). -/
theorem bucket_natAbs_eq {v : Int} {k : Nat} (hlo : (k : Int) * 1024 ≤ v) (hhi : v < (k + 1) * 1024) :
    bucket v.natAbs = k := by
  unfold bucket
  omega

/-- Inside the LUT, the positive branch is slope times magnitude plus intercept, requantized (R243). -/
theorem lutEval_of_lt (m q : Vector Word 16) {k : Nat} (hk : k < 16) (a : Nat) :
    lutEval m q k a = rq (m[k].toInt * a + q[k].toInt) := by
  rw [lutEval, lutEntry, lutEntry, dif_pos hk, dif_pos hk, requantize_wrap32]

section Branches

variable {m q : Vector Word 16} {low : FixedScalar} {mirror : FixedScalar → FixedScalar} {x : FixedScalar}

theorem lutActivation_of_large (h : 16384 ≤ x.toInt) : lutActivation m q low mirror x = 0x1000 := by
  have hsat : 16 ≤ bucket x.toInt.natAbs := sixteen_le_bucket_iff.2 (.inl h)
  rw [lutActivation, if_pos hsat, if_neg (by omega)]

theorem lutActivation_of_small (h : x.toInt ≤ -16384) : lutActivation m q low mirror x = low := by
  have hsat : 16 ≤ bucket x.toInt.natAbs := sixteen_le_bucket_iff.2 (.inr h)
  rw [lutActivation, if_pos hsat, if_pos (by omega)]

/-- From 0 up to 4.0 the LUT is evaluated as it is (R243). -/
theorem lutActivation_of_nonneg (hlo : 0 ≤ x.toInt) (hhi : x.toInt < 16384) :
    lutActivation m q low mirror x = lutEval m q (bucket x.toInt.natAbs) x.toInt.natAbs := by
  have hlut : ¬16 ≤ bucket x.toInt.natAbs := by rw [sixteen_le_bucket_iff]; omega
  rw [lutActivation, if_neg hlut, if_neg (by omega)]

/-- Below 0 the mirror is applied to the evaluation at the magnitude (R243). -/
theorem lutActivation_of_neg (hlo : -16384 < x.toInt) (hhi : x.toInt < 0) :
    lutActivation m q low mirror x = mirror (lutEval m q (bucket x.toInt.natAbs) x.toInt.natAbs) := by
  have hlut : ¬16 ≤ bucket x.toInt.natAbs := by rw [sixteen_le_bucket_iff]; omega
  rw [lutActivation, if_neg hlut, if_pos hhi]

/-- In bucket `k` an activation interpolates with the bucket's slope and intercept (R243). -/
theorem lutActivation_of_bucket {k : Nat} (hk : k < 16) (hlo : (k : Int) * 1024 ≤ x.toInt)
    (hhi : x.toInt < (k + 1) * 1024) :
    lutActivation m q low mirror x = rq (m[k].toInt * x.toInt + q[k].toInt) := by
  have habs : (x.toInt.natAbs : Int) = x.toInt := Int.natAbs_of_nonneg (by omega)
  rw [lutActivation_of_nonneg (x := x) (by omega) (by omega), bucket_natAbs_eq hlo hhi, lutEval_of_lt m q hk, habs]

/-- An input above -4.0 and its negation have one magnitude, so the mirror applies to the activation of the negation
(R244, R245). -/
theorem lutActivation_eq_mirror_neg (hlo : -16384 < x.toInt) (hhi : x.toInt < 0) :
    lutActivation m q low mirror x = mirror (lutActivation m q low mirror (-x)) := by
  have hneg : (-x).toInt = -x.toInt := BitVec.toInt_neg_of_ne_intMin (by rintro rfl; revert hlo; decide)
  rw [lutActivation_of_neg hlo hhi, lutActivation_of_nonneg (x := -x) (by omega) (by omega), hneg, Int.natAbs_neg]

end Branches

/-! ### The mirrors -/

/-- The complement of a FixedScalar is one code below its negation (R244). -/
theorem FixedScalar.toInt_not (r : FixedScalar) : (~~~r).toInt = -r.toInt - 1 := by
  have hnat : (~~~r).toNat = 65535 - r.toNat := BitVec.toNat_not
  have hlt : r.toNat < 65536 := r.isLt
  rw [BitVec.toInt_eq_toNat_cond, BitVec.toInt_eq_toNat_cond, hnat]
  split <;> split <;> omega

/-- The sigmoid's mirror is the wrapped difference from 4094 (R245). -/
theorem sigmoidMirror_eq_ofInt (r : FixedScalar) : sigmoidMirror r = BitVec.ofInt 16 (4094 - r.toInt) := by
  rw [sigmoidMirror, FixedScalar.toInt_not, wrap16]
  congr 1
  omega

/-! ### The commands (R247, R248) -/

/-- ACTS of any mode changes SRES and completes (R247). -/
theorem scalarActivation_eq (mode : Mode) (x : FixedScalar) (s : State) :
    scalarActivation mode x s = .next (succeeded { s with sres := (actf s.lut mode x).signExtend 32 }) :=
  runCommand_none rfl

/-- ACT of any mode, run as `run`, stores the activation of each element (R248). -/
theorem unaryDoes_actf {s : State} {src dst n : Word} {run : State → Host.Outcome State Fault Refusal} (mode : Mode)
    (hs : Ready s) (hok : elementError s n [src, dst] = none)
    (hrun : run s = unaryCommand (actf s.lut mode) src dst n s) : UnaryDoes (actf s.lut mode) run s src dst n := by
  obtain ⟨hwf, -⟩ := hs
  unfold UnaryDoes
  rw [hrun]
  exact unaryCommand_does hwf hok

end Sys2Proof.Machine

namespace Sys2Proof.Proofs

open Sys2Proof Sys2Proof.Machine Sys2Proof.Claims

/-- Settles O20: both activations take their saturation values, and the LUT is not read. -/
theorem largeMagnitudesSaturate : Obligations.LargeMagnitudesSaturate := by
  intro lut x
  rw [actf_tanh, actf_sigmoid]
  refine ⟨fun hlarge => ⟨?_, ?_⟩, fun hsmall => ⟨?_, ?_⟩⟩
  · exact lutActivation_of_large hlarge
  · exact lutActivation_of_large hlarge
  · exact lutActivation_of_small hsmall
  · exact lutActivation_of_small hsmall

/-- Settles O21: both activations interpolate in the bucket of the input. -/
theorem bucketsInterpolate : Obligations.BucketsInterpolate := by
  intro lut x k hk hlo hhi
  rw [actf_tanh, actf_sigmoid]
  exact ⟨lutActivation_of_bucket hk hlo hhi, lutActivation_of_bucket hk hlo hhi⟩

/-- Settles O22: the mirror of tanh is the complement. -/
theorem tanhMirrorsByComplement : Obligations.TanhMirrorsByComplement := by
  intro lut x hlo hhi
  have hmirror : actf lut .tanh x = ~~~(actf lut .tanh (-x)) := lutActivation_eq_mirror_neg hlo hhi
  exact ⟨hmirror, by rw [hmirror, FixedScalar.toInt_not]⟩

/-- Settles O23: the mirror of sigmoid is the wrapped difference from 4094. -/
theorem sigmoidMirrorsFromOne : Obligations.SigmoidMirrorsFromOne := by
  intro lut x hlo hhi
  rw [actf_sigmoid, lutActivation_eq_mirror_neg hlo hhi, sigmoidMirror_eq_ofInt, actf_sigmoid]

/-- Settles O24: the three forms are one command with three modes. -/
theorem scalarActivationResult : Obligations.ScalarActivationResult :=
  fun s x => ⟨scalarActivation_eq .identity x s, scalarActivation_eq .tanh x s, scalarActivation_eq .sigmoid x s⟩

/-- Settles O25: the three forms are the unary command of the mode's activation. -/
theorem tensorActivationResult : Obligations.TensorActivationResult :=
  fun _ _ _ _ hs hok =>
    ⟨unaryDoes_actf .identity hs hok rfl, unaryDoes_actf .tanh hs hok rfl, unaryDoes_actf .sigmoid hs hok rfl⟩

end Sys2Proof.Proofs
end

section
/-! PROOF. A network's records: the layer each names with its buffers routed, the check of a record as the statements
write it, and so the validation of the whole list (spec/43_network_driver.md R270 to R273). -/

namespace Sys2Proof.Machine

open Sys2Proof.Claims

/-! ### Layers -/

/-- A layer of a network: its kernel, its flag and its operands (43_network_driver.md R270). -/
inductive Layer where
  | linear (hasBias : Bool) (o : LinearOps)
  | conv (o : ConvOps)
  | lstm (fused : Bool) (o : LstmOps)
  | rnn (o : RnnOps)

namespace Layer

/-- The stand-alone command of a layer (30_encoding.md R140). -/
def command : Layer → Instr
  | .linear true o => .linear o
  | .linear false o => .linearNb o
  | .conv o => .conv2d o
  | .lstm false o => .lstm o
  | .lstm true o => .lstmF o
  | .rnn o => .rnn o

/-- The layer with IN or X `cur`, and OUT, where it has one, `out` (43_network_driver.md R271). -/
def route (cur out : Word) : Layer → Layer
  | .linear hasBias o => .linear hasBias { o with inp := cur, out := out }
  | .conv o => .conv { o with inp := cur, out := out }
  | .lstm fused o => .lstm fused { o with x := cur }
  | .rnn o => .rnn { o with x := cur }

/-- The driver's step of a layer, `half` the selector before it. -/
def step (half : Bool) : Layer → LayerStep
  | .linear hasBias o => .linear (linearArgs hasBias o) half
  | .conv o => .conv (convArgs o) half
  | .lstm fused o => .lstm fused (lstmArgs o)
  | .rnn o => .rnn (rnnArgs o)

/-- Does the layer write a half (43_network_driver.md R271)? -/
def usesHalf : Layer → Bool
  | .linear _ _ => true
  | .conv _ => true
  | .lstm _ _ => false
  | .rnn _ => false

/-- The tensor a layer makes current (43_network_driver.md R271). -/
def out : Layer → Word
  | .linear _ o => o.out
  | .conv o => o.out
  | .lstm _ o => o.h
  | .rnn o => o.h

/-- How many elements that tensor has (43_network_driver.md R270). -/
def outLen : Layer → Nat
  | .linear _ o => o.nOut.toNat
  | .conv o => o.cout.toNat * o.h.toNat * o.wd.toNat
  | .lstm _ o => o.nHid.toNat
  | .rnn o => o.nHid.toNat

/-- The cursor after a layer, `half` the selector before it (43_network_driver.md R271, R273 step 5.7). -/
def after (half : Bool) (L : Layer) : Cursor :=
  { len := L.outLen, cur := L.out, half := if L.usesHalf then !half else half }

end Layer

/-! ### Records -/

/-- The descriptor words from `p` on (20_memory.md R83). -/
def Memory.words (m : Memory) (p j : Nat) : Word := m.ldw (p + 4 * j)

theorem headerOpc_toNat (h : Word) : (headerOpc h).toNat = h.toNat % 256 := by
  simp [headerOpc, BitVec.extractLsb'_toNat]

/-- The header words of the layers (30_encoding.md R122, 43_network_driver.md R270). -/
def layerHeaders : List Word := [0x101, 0x001, 0x002, 0x003, 0x103, 0x004]

/-- Among the words that name a layer by their OPC, the legal headers are those of the layers. -/
theorem headerLegal_iff_of_opc {h : Word} (hopc : h.toNat % 256 ∈ [1, 2, 3, 4]) :
    headerLegal h = true ↔ h ∈ layerHeaders := by
  have hlegal : ∀ x ∈ legalHeaders, x.toNat % 256 ∈ [1, 2, 3, 4] → x ∈ layerHeaders := by
    simp [legalHeaders, layerHeaders]
  have hlayer : ∀ x ∈ layerHeaders, x ∈ legalHeaders := by simp [legalHeaders, layerHeaders]
  rw [headerLegal_iff]
  exact ⟨fun hm => hlegal h hm hopc, hlayer h⟩

/-- The layer that the record of words `w` names by its OPC and its FLAGS bit 0 (43_network_driver.md R270). -/
def recordLayer (w : Nat → Word) : Layer :=
  let flag := (headerFlags (w 0)).getLsbD 0
  if (w 0).toNat % 256 = 1 then .linear flag (linearOps w)
  else if (w 0).toNat % 256 = 4 then .conv (convOps w)
  else if (w 0).toNat % 256 = 3 then .lstm flag (lstmOps w)
  else .rnn (rnnOps w)

/-- The layer of the record at `p` as it is run from the cursor `c` (43_network_driver.md R271). -/
def routedLayer (s : State) (p : Nat) (c : Cursor) : Layer :=
  (recordLayer (s.mem.words p)).route c.cur (s.halfBase c.half)

theorem routeLayer_eq_none {s : State} {p : Nat} {c : Cursor} (h : (s.mem.words p 0).toNat % 256 ∉ [1, 2, 3, 4]) :
    routeLayer s p c = none := by
  have hw : (headerOpc (s.mem.ldw (p + 4 * 0))).toNat ∉ [1, 2, 3, 4] := by rwa [headerOpc_toNat]
  unfold routeLayer
  simp only
  split <;> simp_all

/-- Routing runs the record's layer (43_network_driver.md R271, R274). -/
theorem routeLayer_eq_some {s : State} {p : Nat} {c : Cursor} (h : (s.mem.words p 0).toNat % 256 ∈ [1, 2, 3, 4]) :
    routeLayer s p c = some ((routedLayer s p c).step c.half, (routedLayer s p c).after c.half) := by
  have hopc : (headerOpc (s.mem.ldw (p + 4 * 0))).toNat = (s.mem.words p 0).toNat % 256 := headerOpc_toNat _
  unfold routeLayer routedLayer recordLayer
  simp only [hopc]
  simp only [List.mem_cons, List.not_mem_nil, or_false] at h
  rcases h with h | h | h | h <;> simp only [h] <;> rfl

/-- A record that is routed is its layer, routed. -/
theorem routeLayer_inv {s : State} {p : Nat} {c c' : Cursor} {st : LayerStep}
    (h : routeLayer s p c = some (st, c')) :
    (s.mem.words p 0).toNat % 256 ∈ [1, 2, 3, 4] ∧ st = (routedLayer s p c).step c.half ∧
      c' = (routedLayer s p c).after c.half := by
  by_cases hopc : (s.mem.words p 0).toNat % 256 ∈ [1, 2, 3, 4]
  · rw [routeLayer_eq_some hopc] at h
    obtain ⟨rfl, rfl⟩ := Prod.mk.inj (Option.some.inj h)
    exact ⟨hopc, rfl, rfl⟩
  · rw [routeLayer_eq_none hopc] at h
    cases h

/-- A layer's header says which layer the record names (30_encoding.md R122, R140). -/
theorem recordLayer_cases {w : Nat → Word} (h : w 0 ∈ layerHeaders) :
    (w 0 = 0x101 ∧ recordLayer w = .linear true (linearOps w)) ∨
      (w 0 = 0x001 ∧ recordLayer w = .linear false (linearOps w)) ∨
      (w 0 = 0x002 ∧ recordLayer w = .rnn (rnnOps w)) ∨
      (w 0 = 0x003 ∧ recordLayer w = .lstm false (lstmOps w)) ∨
      (w 0 = 0x103 ∧ recordLayer w = .lstm true (lstmOps w)) ∨
      (w 0 = 0x004 ∧ recordLayer w = .conv (convOps w)) := by
  simp only [layerHeaders, List.mem_cons, List.not_mem_nil, or_false] at h
  rcases h with h | h | h | h | h | h <;> simp [recordLayer, headerFlags, h]

/-! ### The check of a record (43_network_driver.md R273 step 5) -/

theorem recordError_of_opc {s : State} {len : Nat} {nh : Bool} {w : Nat → Word} (h : (w 0).toNat % 256 ∉ [1, 2, 3, 4]) :
    recordError s len nh w = some .unsupportedLayer :=
  if_pos h

theorem recordError_of_header {s : State} {len : Nat} {nh : Bool} {w : Nat → Word}
    (hopc : (w 0).toNat % 256 ∈ [1, 2, 3, 4]) (h : w 0 ∉ layerHeaders) :
    recordError s len nh w = some .illegalCommand :=
  (if_neg (not_not.2 hopc)).trans (if_pos h)

/-- Shape checks in a row are one shape check. -/
theorem firstError_checkShape_cons (a b : Bool) (cs : List (Option ErrCode)) :
    firstError (checkShape a :: checkShape b :: cs) = firstError (checkShape (a && b) :: cs) := by
  cases a <;> cases b <;> rfl

/-- Every count is at least 1 (60_exceptions.md R315). -/
theorem positive_eq_decide (ns : List Nat) : positive ns = decide (∀ n ∈ ns, 1 ≤ n) := by
  rw [Bool.eq_iff_iff, positive_iff, decide_eq_true_eq]
  rfl

/-- The shape check of CONV2D as the statements write it: an odd count is at least 1 (41_tiled_kernels.md R208). -/
theorem convShape_eq (o : ConvOps) : convShape (convArgs o) =
    checkShape (decide (1 ≤ o.h.toNat ∧ 1 ≤ o.wd.toNat ∧ 1 ≤ o.cin.toNat ∧ 1 ≤ o.cout.toNat ∧ o.kh.toNat % 2 = 1 ∧
      o.kw.toNat % 2 = 1)) := by
  refine congrArg checkShape (Bool.eq_iff_iff.2 ?_)
  simp only [decide_eq_true_eq, Bool.and_eq_true, beq_iff_eq, positive_iff, List.forall_mem_cons, convArgs,
    List.not_mem_nil, false_imp_iff, implies_true, and_true]
  omega

section LayerChecks

variable (s : State) (c : Cursor)

theorem layerChecks_linear (hasBias : Bool) (o : LinearOps) (half : Bool) :
    firstError (layerChecks s c (.linear (linearArgs hasBias o) half)) =
      shapedError s
        ((1 ≤ o.nIn.toNat ∧ 1 ≤ o.nOut.toNat) ∧ o.nIn.toNat = c.len ∧ o.nOut.toNat ≤ s.scratchCap.toNat)
        ([((selectedHalf s c.half).toNat, s.scratchCap.toNat), (o.w.toNat, o.nOut.toNat * o.nIn.toNat)] ++
          if hasBias then [(o.b.toNat, o.nOut.toNat)] else []) := by
  rw [shapedError_eq_firstError]
  cases hasBias <;>
    simp [layerChecks, linearShape, linearArgs, linearParamChecks, firstError_checkShape_cons, positive_eq_decide,
      Bool.and_assoc, beq_eq_decide] <;> rfl

theorem layerChecks_conv (o : ConvOps) (half : Bool) :
    firstError (layerChecks s c (.conv (convArgs o) half)) =
      shapedError s
        ((1 ≤ o.h.toNat ∧ 1 ≤ o.wd.toNat ∧ 1 ≤ o.cin.toNat ∧ 1 ≤ o.cout.toNat ∧ o.kh.toNat % 2 = 1 ∧
          o.kw.toNat % 2 = 1) ∧ o.h.toNat * o.wd.toNat * o.cin.toNat = c.len ∧
            o.cout.toNat * o.h.toNat * o.wd.toNat ≤ s.scratchCap.toNat)
        [((selectedHalf s c.half).toNat, s.scratchCap.toNat),
          (o.w.toNat, o.cout.toNat * o.kh.toNat * o.kw.toNat * o.cin.toNat), (o.b.toNat, o.cout.toNat)] := by
  rw [shapedError_eq_firstError, layerChecks, convShape_eq]
  simp [convArgs, convParamChecks, firstError_checkShape_cons, Bool.and_assoc, beq_eq_decide,
    convInSize, convOutSize, convWeightSize]
  rfl

theorem layerChecks_lstm (fused : Bool) (o : LstmOps) :
    firstError (layerChecks s c (.lstm fused (lstmArgs o))) =
      shapedError s ((1 ≤ o.nIn.toNat ∧ 1 ≤ o.nHid.toNat ∧ 1 ≤ o.seq.toNat) ∧ o.seq.toNat * o.nIn.toNat = c.len)
        [(o.wih.toNat, 4 * o.nHid.toNat * o.nIn.toNat), (o.whh.toNat, 4 * o.nHid.toNat * o.nHid.toNat),
          (o.bih.toNat, 4 * o.nHid.toNat), (o.bhh.toNat, 4 * o.nHid.toNat), (o.h.toNat, o.nHid.toNat),
          (o.c.toNat, o.nHid.toNat), (o.g.toNat, 4 * o.nHid.toNat)] := by
  rw [shapedError_eq_firstError]
  simp [layerChecks, lstmShape, lstmArgs, lstmTensorChecks, firstError_checkShape_cons, positive_eq_decide,
      Bool.and_assoc, beq_eq_decide]

theorem layerChecks_rnn (o : RnnOps) :
    firstError (layerChecks s c (.rnn (rnnArgs o))) =
      shapedError s ((1 ≤ o.nIn.toNat ∧ 1 ≤ o.nHid.toNat ∧ 1 ≤ o.seq.toNat) ∧ o.seq.toNat * o.nIn.toNat = c.len)
        [(o.wih.toNat, o.nHid.toNat * o.nIn.toNat), (o.whh.toNat, o.nHid.toNat * o.nHid.toNat),
          (o.bih.toNat, o.nHid.toNat), (o.bhh.toNat, o.nHid.toNat), (o.h.toNat, o.nHid.toNat),
          (o.t.toNat, 2 * o.nHid.toNat)] := by
  rw [shapedError_eq_firstError]
  simp [layerChecks, rnnShape, rnnArgs, rnnTensorChecks, firstError_checkShape_cons, positive_eq_decide,
      Bool.and_assoc, beq_eq_decide]

end LayerChecks

/-- Under a layer's header the statements' check of a record is the model's check of the layer it names. -/
theorem recordError_of_layerHeader {s : State} {c : Cursor} {w : Nat → Word} (cur out : Word)
    (h : w 0 ∈ layerHeaders) :
    recordError s c.len c.half w = firstError (layerChecks s c (((recordLayer w).route cur out).step c.half)) := by
  rcases recordLayer_cases h with ⟨hw, hL⟩ | ⟨hw, hL⟩ | ⟨hw, hL⟩ | ⟨hw, hL⟩ | ⟨hw, hL⟩ | ⟨hw, hL⟩ <;>
    rw [hL, Layer.route, Layer.step]
  · rw [layerChecks_linear]; simp only [recordError, hw]; rfl
  · rw [layerChecks_linear]; simp only [recordError, hw]; rfl
  · rw [layerChecks_rnn]; simp only [recordError, hw]; rfl
  · rw [layerChecks_lstm]; simp only [recordError, hw]; rfl
  · rw [layerChecks_lstm]; simp only [recordError, hw]; rfl
  · rw [layerChecks_conv]; simp only [recordError, hw]; rfl

/-- A record's validation finds what the statements' check finds, and plans the layer routed (43_network_driver.md R273
step 5). -/
theorem planLayer_eq (s : State) (p : Nat) (c : Cursor) :
    planLayer s p c = (recordError s c.len c.half (s.mem.words p)).elim
      (.ok ((routedLayer s p c).step c.half, (routedLayer s p c).after c.half)) .error := by
  rcases planLayer_cases s p c with ⟨hroute, hplan⟩ | ⟨st, c', hroute, hcases⟩
  · have hopc : (s.mem.words p 0).toNat % 256 ∉ [1, 2, 3, 4] := fun hopc => by
      rw [routeLayer_eq_some hopc] at hroute
      cases hroute
    rw [hplan, recordError_of_opc hopc]
    rfl
  · obtain ⟨hopc, rfl, rfl⟩ := routeLayer_inv hroute
    rcases hcases with ⟨hl, hplan⟩ | ⟨hl, hcases⟩
    · have hm : s.mem.words p 0 ∉ layerHeaders := fun hm =>
        Bool.false_ne_true (hl.symm.trans ((headerLegal_iff_of_opc hopc).2 hm))
      rw [hplan, recordError_of_header hopc hm]
      rfl
    · have hm : s.mem.words p 0 ∈ layerHeaders := (headerLegal_iff_of_opc hopc).1 hl
      have hrecord : recordError s c.len c.half (s.mem.words p) =
          firstError (layerChecks s c ((routedLayer s p c).step c.half)) := recordError_of_layerHeader _ _ hm
      rcases hcases with ⟨e, he, hplan⟩ | ⟨hok, hplan⟩
      · rw [hplan, hrecord, he]
        rfl
      · rw [hplan, hrecord, hok]
        rfl

theorem layerHeader_of_recordError {s : State} {len : Nat} {nh : Bool} {w : Nat → Word}
    (h : recordError s len nh w = none) : w 0 ∈ layerHeaders := by
  by_contra hm
  by_cases hopc : (w 0).toNat % 256 ∈ [1, 2, 3, 4]
  · rw [recordError_of_header hopc hm] at h
    cases h
  · rw [recordError_of_opc hopc] at h
    cases h

/-- The cursor after a record, as the statements give it (43_network_driver.md R270, R271). -/
theorem after_recordLayer {w : Nat → Word} (h : w 0 ∈ layerHeaders) (cur out : Word) (half : Bool) :
    ((recordLayer w).route cur out).after half =
      { len := outputSize w, cur := if writesHalf (w 0) then out else w 6
        half := if writesHalf (w 0) then !half else half } := by
  rcases recordLayer_cases h with ⟨hw, hL⟩ | ⟨hw, hL⟩ | ⟨hw, hL⟩ | ⟨hw, hL⟩ | ⟨hw, hL⟩ | ⟨hw, hL⟩ <;>
    (rw [hL]; simp only [outputSize, writesHalf, hw]; rfl)

/-! ### The list (43_network_driver.md R272, R273) -/

/-- The cursor before record `i`, as the statements give it. -/
def cursorBefore (s : State) (o : NetOps) (i : Nat) : Cursor :=
  { len := lenBefore s o i, cur := currentBefore s o i, half := halfBefore s o i }

/-- The layer of record `i`, its buffers routed. -/
def netLayer (s : State) (o : NetOps) (i : Nat) : Layer :=
  (recordLayer (recordWord s o i)).route (currentBefore s o i) (selectedHalf s (halfBefore s o i))

/-- The step of record `i`. -/
def netStep (s : State) (o : NetOps) (i : Nat) : LayerStep := (netLayer s o i).step (halfBefore s o i)

/-- A layer takes the cursor from before its record to before the next. -/
theorem after_netLayer {s : State} {o : NetOps} {i : Nat} (h : recordWord s o i 0 ∈ layerHeaders) :
    (netLayer s o i).after (halfBefore s o i) = cursorBefore s o (i + 1) :=
  after_recordLayer h _ _ _

theorem planLayer_record (s : State) (o : NetOps) (i : Nat) :
    planLayer s (recordAddr o.list.toNat i) (cursorBefore s o i) =
      (netRecordError s o i).elim (.ok (netStep s o i, (netLayer s o i).after (halfBefore s o i))) .error :=
  planLayer_eq s _ (cursorBefore s o i)

/-- A record that passes leaves the plan to the rest of the list. -/
theorem planLayers_succ {s : State} {o : NetOps} {n i : Nat} (h : netRecordError s o i = none) :
    planLayers s o.list.toNat (n + 1) i (cursorBefore s o i) =
      (planLayers s o.list.toNat n (i + 1) (cursorBefore s o (i + 1))).map fun r => (netStep s o i :: r.1, r.2) := by
  rw [planLayers, planLayer_record, h, Option.elim_none]
  simp only
  rw [after_netLayer (layerHeader_of_recordError h)]
  cases planLayers s o.list.toNat n (i + 1) (cursorBefore s o (i + 1)) <;> rfl

/-- The records of a list that passes are planned in order. -/
theorem planLayers_ok {s : State} {o : NetOps} {n i : Nat}
    (h : ∀ j, i ≤ j → j < i + n → netRecordError s o j = none) :
    planLayers s o.list.toNat n i (cursorBefore s o i) =
      .ok ((List.range' i n).map (netStep s o), cursorBefore s o (i + n)) := by
  induction n generalizing i with
  | zero => rfl
  | succ n ih =>
    rw [planLayers_succ (h i le_rfl (by omega)), ih fun j hlo hhi => h j (by omega) (by omega),
      show i + 1 + n = i + (n + 1) by omega]
    rfl

/-- The first record of a list that fails is the one reported. -/
theorem planLayers_error {s : State} {o : NetOps} {n i k : Nat} {e : ErrCode} (hk : k < n)
    (h : ∀ j, i ≤ j → j < i + k → netRecordError s o j = none) (he : netRecordError s o (i + k) = some e) :
    planLayers s o.list.toNat n i (cursorBefore s o i) =
      .error
        { code := e, addr := BitVec.ofNat 32 (recordAddr o.list.toNat (i + k)), idx := BitVec.ofNat 32 (i + k) } := by
  obtain ⟨n, rfl⟩ : ∃ m, n = m + 1 := ⟨n - 1, by omega⟩
  induction k generalizing n i with
  | zero =>
    rw [Nat.add_zero] at he ⊢
    rw [planLayers, planLayer_record, he]
    rfl
  | succ k ih =>
    obtain ⟨n, rfl⟩ : ∃ m, n = m + 1 := ⟨n - 1, by omega⟩
    have hsum : i + (k + 1) = i + 1 + k := by omega
    rw [hsum] at he ⊢
    rw [planLayers_succ (h i le_rfl (by omega)), ih (fun j hlo hhi => h j (by omega) (by omega)) he n (by omega)]
    rfl

/-! ### The command -/

theorem netOwnError_eq_netOwnChecks (s : State) (o : NetOps) : netOwnError s o = netOwnChecks s.platform o := by
  have hlist : checkList s.platform o.list.toNat o.count.toNat =
      if o.list.toNat % 4 ≠ 0 then some .misaligned
      else if s.platform.memOk o.list.toNat (64 * o.count.toNat) = false then some .busError else none := by
    cases hmem : s.platform.memOk o.list.toNat (64 * o.count.toNat) <;> simp [checkList, hmem]
  rw [netOwnError, netOwnChecks, hlist, tensorError_eq_firstError, positive_eq_decide]
  by_cases hcounts : 1 ≤ o.count.toNat ∧ 1 ≤ o.inLen.toNat
  · by_cases halign : o.list.toNat % 4 = 0
    · cases hmem : s.platform.memOk o.list.toNat (64 * o.count.toNat) <;> simp [hcounts, halign, checkShape]
    · simp [hcounts, halign, checkShape]
  · rw [if_pos hcounts]
    simp [checkShape, hcounts]

theorem netPlan_of_ownError {s : State} {o : NetOps} {e : ErrCode} (h : netOwnError s o = some e) :
    netPlan s o = .error { code := e, addr := s.cmdAddr, idx := 0 } := by
  rw [netOwnError_eq_netOwnChecks] at h
  rw [netPlan, h]

theorem netPlan_of_ownOk {s : State} {o : NetOps} (h : netOwnError s o = none) :
    netPlan s o = planLayers s o.list.toNat o.count.toNat 0 (cursorBefore s o 0) := by
  rw [netOwnError_eq_netOwnChecks] at h
  rw [netPlan, h]
  rfl

/-- The plan of a NET that passes: the steps of its records, and the cursor behind the last. -/
theorem netPlan_of_passes {s : State} {o : NetOps} (h : NetPasses s o) :
    netPlan s o = .ok ((List.range o.count.toNat).map (netStep s o), cursorBefore s o o.count.toNat) := by
  obtain ⟨hown, hrecords⟩ := h
  rw [netPlan_of_ownOk hown, planLayers_ok fun j _ hj => hrecords j (by omega), Nat.zero_add, List.range_eq_range']

theorem execNet_of_error {s : State} {o : NetOps} {e : NetError} (h : netPlan s o = .error e) :
    exec (.net o) s = .next (erred s e.code e.addr e.idx) := by
  show execNet o s = _
  rw [execNet, h]
  rfl

theorem execNet_of_ok {s : State} {o : NetOps} {steps : List LayerStep} {last : Cursor}
    (h : netPlan s o = .ok (steps, last)) : exec (.net o) s = .next (netFinish s o steps last).complete := by
  show execNet o s = _
  rw [execNet, h]

/-- A validated NET has a step for each of its records (43_network_driver.md R272). -/
theorem netPlan_length {s : State} {o : NetOps} {steps : List LayerStep} {last : Cursor}
    (h : netPlan s o = .ok (steps, last)) : steps.length = o.count.toNat := by
  unfold netPlan at h
  split at h
  · cases h
  · exact planLayers_length h

end Sys2Proof.Machine

namespace Sys2Proof.Proofs

open Sys2Proof Sys2Proof.Machine Sys2Proof.Claims

/-- Settles O42: the run writes inside the steps' write sets, and the rest is written once, at the end. -/
theorem validatedNetCompletes : Obligations.ValidatedNetCompletes :=
  fun _ _ _ _ h => ⟨_, execNet_of_ok h, rfl, netPlan_length h, netRun_within.read⟩

/-- Settles O44: the statements' checks are the model's, and the list is walked up to its first failing record. -/
theorem netReportsItsFirstError : Obligations.NetReportsItsFirstError := by
  intro s o
  refine ⟨fun e he => execNet_of_error (netPlan_of_ownError he), fun i e hown hi hbefore he => ?_, fun hpass => ?_⟩
  · have hplan := planLayers_error (i := 0) hi (fun j _ hj => hbefore j (by omega)) (by rwa [Nat.zero_add])
    rw [Nat.zero_add] at hplan
    exact execNet_of_error ((netPlan_of_ownOk hown).trans hplan)
  · exact ⟨_, execNet_of_ok (netPlan_of_passes hpass), rfl, rfl⟩

end Sys2Proof.Proofs
end

section
/-! PROOF. A layer as a step of the driver and as a command of its own: where nothing it writes overlaps another range
of its footprint, the two store the same values (spec/43_network_driver.md R272, R274, spec/20_memory.md R91). -/

namespace Sys2Proof.Machine

open Sys2Proof.Claims

/-! ### Overlaps -/

/-- The statements' reading of R91 is the model's. -/
theorem apart_iff_meets {r : Range} {rs : List Range} : Apart r rs ↔ r.meets rs = false :=
  Range.meets_eq_false.symm

theorem Range.meets_append (r : Range) (rs qs : List Range) : r.meets (rs ++ qs) = (r.meets rs || r.meets qs) :=
  List.any_append

theorem Range.meets_cons_eq_false {r q : Range} {rs : List Range} :
    r.meets (q :: rs) = false ↔ r.meets [q] = false ∧ r.meets rs = false := by
  rw [← Bool.or_eq_false_iff]
  exact Eq.congr_left (r.meets_append [q] rs)

theorem Range.meets_singleton_comm (r q : Range) : r.meets [q] = q.meets [r] := by
  simp only [Range.meets, List.any_cons, List.any_nil, Bool.or_false]
  rw [Bool.eq_iff_iff, Range.overlaps_iff, Range.overlaps_iff]
  simp only [and_comm]

theorem overlapAmong_eq_false {rs : List Range} :
    overlapAmong rs = false ↔ rs.Pairwise fun r q => r.meets [q] = false := by
  induction rs with
  | nil => simp [overlapAmong]
  | cons r rs ih => simp [overlapAmong, ih, Range.meets]

/-- A footprint does not overlap itself exactly if what is written meets neither what is read nor anything else that is
written (20_memory.md R91). -/
theorem Footprint.overlapsItself_eq_false {fp : Footprint} :
    fp.overlapsItself = false ↔
      (∀ r ∈ fp.writes, r.meets fp.reads = false) ∧ fp.writes.Pairwise fun r q => r.meets [q] = false := by
  rw [Footprint.overlapsItself, Bool.or_eq_false_iff, List.any_eq_false, overlapAmong_eq_false]
  simp

/-! ### The free values drawn do not matter where nothing overlaps -/

/-- The run with another count of free values drawn. -/
def Run.withDraws (x : Run) (k : Nat) : Run := { x with draws := k }

@[simp] theorem Run.withDraws_mem (x : Run) (k : Nat) : (x.withDraws k).mem = x.mem := rfl

/-- Runs with the same memory differ in that count alone. -/
theorem Run.eq_withDraws {x y : Run} (h : y.mem = x.mem) : y = x.withDraws y.draws := by
  rw [Run.withDraws, ← h]

@[simp] theorem Run.put_withDraws (x : Run) (k base : Nat) (es : List (Nat × FixedScalar)) :
    (x.withDraws k).put false base es = (x.put false base es).withDraws k := by
  induction es generalizing x with
  | nil => rfl
  | cons e es ih => exact ih { mem := x.mem.st16 (base + 2 * e.1) e.2, draws := x.draws }

theorem Run.foldl_withDraws {α : Type} {f : Run → α → Run} {k : Nat}
    (h : ∀ x a, f (x.withDraws k) a = (f x a).withDraws k) (l : List α) (x : Run) :
    l.foldl f (x.withDraws k) = (l.foldl f x).withDraws k := by
  induction l generalizing x with
  | nil => rfl
  | cons a l ih => rw [List.foldl_cons, h, ih, List.foldl_cons]

theorem lstmStep_withDraws (cfg : Word) (lut : Lut) (fused : Bool) (a : LstmArgs) (k : Nat) (x : Run) (t : Nat) :
    lstmStep cfg lut fused ⟨false, false, false⟩ a (x.withDraws k) t =
      (lstmStep cfg lut fused ⟨false, false, false⟩ a x t).withDraws k := by
  have hgates := Run.foldl_withDraws (f := lstmGate cfg lut fused ⟨false, false, false⟩ a t) (k := k)
    (fun y j => by cases fused <;> simp [lstmGate]) [0, 1, 2, 3] x
  rw [lstmStep, lstmStep, hgates]
  simp [lstmCell]

theorem rnnStep_withDraws (cfg : Word) (lut : Lut) (a : RnnArgs) (k : Nat) (x : Run) (t : Nat) :
    rnnStep cfg lut ⟨false, false⟩ a (x.withDraws k) t = (rnnStep cfg lut ⟨false, false⟩ a x t).withDraws k := by
  simp [rnnStep]

/-! ### Runs without an overlap -/

section NoOverlap

variable {cfg : Word} {lut : Lut} {x : Run}

theorem linearRun_of_apart {hz : List Range} {a : LinearArgs} (hhz : (tensorRange a.out a.nOut).meets hz = false)
    (h : (linearFootprint a).overlapsItself = false) :
    linearRun cfg hz a x = x.put false a.out (linearOutputs cfg x.mem a) := by
  obtain ⟨hreads, -⟩ := Footprint.overlapsItself_eq_false.1 h
  rw [linearRun, Range.meets_append, hhz, hreads _ List.mem_cons_self]
  rfl

theorem convRun_of_apart {hz : List Range} {a : ConvArgs} (hhz : (tensorRange a.out (convOutSize a)).meets hz = false)
    (h : (convFootprint a).overlapsItself = false) :
    convRun cfg hz a x = x.put false a.out (convOutputs cfg x.mem a) := by
  obtain ⟨hreads, -⟩ := Footprint.overlapsItself_eq_false.1 h
  rw [convRun, Range.meets_append, hhz, hreads _ List.mem_cons_self]
  rfl

theorem lstmFree_of_apart {a : LstmArgs} (h : (lstmFootprint a).overlapsItself = false) :
    lstmFree [] a = ⟨false, false, false⟩ := by
  obtain ⟨hreads, hwrites⟩ := Footprint.overlapsItself_eq_false.1 h
  simp only [lstmFootprint, List.forall_mem_cons, List.pairwise_cons, List.not_mem_nil, false_imp_iff, implies_true,
    and_true] at hreads hwrites
  obtain ⟨hh, hc, hg⟩ := hreads
  obtain ⟨⟨hhc, hhg⟩, hcg, -⟩ := hwrites
  have hch := (Range.meets_singleton_comm _ _).trans hhc
  have hgh := (Range.meets_singleton_comm _ _).trans hhg
  have hgc := (Range.meets_singleton_comm _ _).trans hcg
  rw [lstmFree, LstmFree.mk.injEq]
  exact ⟨Range.meets_cons_eq_false.2 ⟨hhc, Range.meets_cons_eq_false.2 ⟨hhg, hh⟩⟩,
    Range.meets_cons_eq_false.2 ⟨hch, Range.meets_cons_eq_false.2 ⟨hcg, hc⟩⟩,
    Range.meets_cons_eq_false.2 ⟨hgh, Range.meets_cons_eq_false.2 ⟨hgc, hg⟩⟩⟩

theorem rnnFree_of_apart {a : RnnArgs} (h : (rnnFootprint a).overlapsItself = false) :
    rnnFree [] a = ⟨false, false⟩ := by
  obtain ⟨hreads, hwrites⟩ := Footprint.overlapsItself_eq_false.1 h
  simp only [rnnFootprint, List.forall_mem_cons, List.pairwise_cons, List.not_mem_nil, false_imp_iff, implies_true,
    and_true] at hreads hwrites
  obtain ⟨hh, ht⟩ := hreads
  obtain ⟨hht, -⟩ := hwrites
  rw [rnnFree, RnnFree.mk.injEq]
  exact ⟨Range.meets_cons_eq_false.2 ⟨hht, hh⟩,
    Range.meets_cons_eq_false.2 ⟨(Range.meets_singleton_comm _ _).trans hht, ht⟩⟩

/-- A step as its rule runs it where it overlaps nothing. -/
def ruleRun (cfg : Word) (lut : Lut) (x : Run) : LayerStep → Run
  | .linear a _ => linearRun cfg [] a x
  | .conv a _ => convRun cfg [] a x
  | .lstm fused a => lstmRun cfg lut fused [] a x
  | .rnn a => rnnRun cfg lut [] a x

/-- A step that does not overlap itself runs by its rule (43_network_driver.md R274). -/
theorem stepRun_of_apart {st : LayerStep} (h : (stepFootprint st).overlapsItself = false) :
    stepRun cfg lut x st = ruleRun cfg lut x st := by
  cases st <;> (simp only [stepRun, h]; rfl)

/-- What such a step stores does not depend on the free values drawn before it. -/
theorem stepRun_withDraws {st : LayerStep} {k : Nat} (h : (stepFootprint st).overlapsItself = false) :
    stepRun cfg lut (x.withDraws k) st = (stepRun cfg lut x st).withDraws k := by
  rw [stepRun_of_apart h, stepRun_of_apart h]
  cases st with
  | linear a half => simp only [ruleRun, linearRun_of_apart (hz := []) rfl h, Run.put_withDraws, Run.withDraws_mem]
  | conv a half => simp only [ruleRun, convRun_of_apart (hz := []) rfl h, Run.put_withDraws, Run.withDraws_mem]
  | lstm fused a =>
    simp only [ruleRun, lstmRun, lstmFree_of_apart h]
    exact Run.foldl_withDraws (lstmStep_withDraws cfg lut fused a k) _ x
  | rnn a =>
    simp only [ruleRun, rnnRun, rnnFree_of_apart h]
    exact Run.foldl_withDraws (rnnStep_withDraws cfg lut a k) _ x

end NoOverlap

/-! ### The command of a layer -/

/-- The checks of a step's stand-alone command after its descriptor's (30_encoding.md R140). -/
def stepChecks (p : Platform) : LayerStep → Option ErrCode
  | .linear a _ => linearChecks p a
  | .conv a _ => convChecks p a
  | .lstm _ a => lstmChecks p a
  | .rnn a => rnnChecks p a

/-- The step's command passes its checks in `s`, and nothing it writes overlaps another range of its footprint. -/
structure StandsAlone (s : State) (st : LayerStep) : Prop where
  checks : stepChecks s.platform st = none
  self : (stepFootprint st).overlapsItself = false
  desc : ∀ r ∈ (stepFootprint st).writes, r.meets [s.descRange] = false

theorem execConv2d_none {o : ConvOps} {s : State} (h : convChecks s.platform (convArgs o) = none) :
    execConv2d o s = .next (s.finishTiled (convRun s.tileCfg [s.descRange] (convArgs o) s.run) o.out
      (passes s.tileCfg o.cout.toNat)).complete :=
  runCommand_none h

theorem execRnn_none {o : RnnOps} {s : State} (h : rnnChecks s.platform (rnnArgs o) = none) :
    execRnn o s = .next (s.finishTiled ((rnnRun s.tileCfg s.lut [] (rnnArgs o) s.run).freeOverlaps
      (rnnFootprint (rnnArgs o)).writes [s.descRange]) o.h (passes s.tileCfg o.nHid.toNat)).complete :=
  runCommand_none h

/-- A layer's command then does what its step does (43_network_driver.md R272, R274). -/
theorem exec_command {s : State} {L : Layer} {half : Bool} (h : StandsAlone s (L.step half)) :
    exec L.command s = .next (s.finishTiled (stepRun s.tileCfg s.lut s.run (L.step half)) L.out
      (stepPasses s.tileCfg (L.step half))).complete := by
  obtain ⟨hchecks, hself, hdesc⟩ := h
  rw [stepRun_of_apart hself]
  cases L with
  | linear hasBias o =>
    have hexec : exec (Layer.linear hasBias o).command s = linearCommand hasBias o s := by cases hasBias <;> rfl
    have hout := hdesc _ List.mem_cons_self
    rw [hexec, linearCommand_none hchecks, linearRun_of_apart hout hself, Layer.step, ruleRun,
      linearRun_of_apart (hz := []) rfl hself]
    rfl
  | conv o =>
    have hout := hdesc _ List.mem_cons_self
    show execConv2d o s = _
    rw [execConv2d_none hchecks, convRun_of_apart hout hself, Layer.step, ruleRun,
      convRun_of_apart (hz := []) rfl hself]
    rfl
  | lstm fused o =>
    have hexec : exec (Layer.lstm fused o).command s = lstmCommand fused o s := by cases fused <;> rfl
    have hfree : ∀ x : Run, x.freeOverlaps (lstmFootprint (lstmArgs o)).writes [s.descRange] = x :=
      fun _ => Run.freeOverlaps_of_apart hdesc
    rw [hexec, lstmCommand_none hchecks, hfree]
    rfl
  | rnn o =>
    have hfree : ∀ x : Run, x.freeOverlaps (rnnFootprint (rnnArgs o)).writes [s.descRange] = x :=
      fun _ => Run.freeOverlaps_of_apart hdesc
    show execRnn o s = _
    rw [execRnn_none hchecks, hfree]
    rfl

end Sys2Proof.Machine
end

section
/-! PROOF. A NET and its layers' commands run one after another: what a record's check accepts its command accepts, the
driver's overlaps are those of `NetApart`, and so both leave the same memory
(spec/43_network_driver.md R271 to R275). -/

namespace Sys2Proof.Machine

open Sys2Proof.Claims

/-! ### Routing (43_network_driver.md R271) -/

/-- The step of a record that passes is a layer routed from the cursor. -/
theorem exists_layer_of_planLayer {s : State} {p : Nat} {c c' : Cursor} {st : LayerStep}
    (h : planLayer s p c = .ok (st, c')) :
    ∃ L : Layer, st = (L.route c.cur (s.halfBase c.half)).step c.half ∧
      c' = (L.route c.cur (s.halfBase c.half)).after c.half ∧ firstError (layerChecks s c st) = none := by
  obtain ⟨hroute, -, hchecks⟩ := planLayer_ok.1 h
  obtain ⟨-, rfl, rfl⟩ := routeLayer_inv hroute
  exact ⟨_, rfl, rfl, hchecks⟩

/-! ### Acceptance -/

/-- A part of an accepted tensor is accepted (20_memory.md R84). -/
theorem checkTensor_of_le {p : Platform} {t n k : Nat} (h : checkTensor p t n = none) (hk : k ≤ n) :
    checkTensor p t k = none := by
  obtain ⟨halign, hmem⟩ := checkTensor_eq_none.1 h
  exact checkTensor_eq_none.2 ⟨halign, Platform.memOk_part hmem le_rfl (by omega)⟩

theorem lstmError_eq_lstmChecks (s : State) (o : LstmOps) : lstmError s o = lstmChecks s.platform (lstmArgs o) := by
  rw [lstmError, shapedError_eq_firstError]
  simp [lstmChecks, lstmArgs, lstmShape, lstmTensorChecks, positive_eq_decide]

theorem rnnError_eq_rnnChecks (s : State) (o : RnnOps) : rnnError s o = rnnChecks s.platform (rnnArgs o) := by
  rw [rnnError, shapedError_eq_firstError]
  simp [rnnChecks, rnnArgs, rnnShape, rnnTensorChecks, positive_eq_decide]

theorem shapedError_eq_none {s : State} {shape : Prop} [Decidable shape] {ts : List (Nat × Nat)} :
    shapedError s shape ts = none ↔ shape ∧ ∀ x ∈ ts, checkTensor s.platform x.1 x.2 = none := by
  rw [shapedError_eq_firstError, firstError_eq_none, List.forall_mem_cons, List.forall_mem_map, checkShape_eq_none,
    decide_eq_true_eq]

/-- A routed layer that the driver accepts after an accepted current tensor is accepted as a command, and the tensor it
makes current is accepted in turn (43_network_driver.md R273). -/
theorem stepChecks_of_layerChecks {s : State} {c : Cursor} {L : Layer}
    (h : firstError (layerChecks s c ((L.route c.cur (s.halfBase c.half)).step c.half)) = none)
    (hcur : checkTensor s.platform c.cur.toNat c.len = none) :
    stepChecks s.platform ((L.route c.cur (s.halfBase c.half)).step c.half) = none ∧
      checkTensor s.platform (L.route c.cur (s.halfBase c.half)).out.toNat
        (L.route c.cur (s.halfBase c.half)).outLen = none := by
  cases L with
  | linear hasBias o =>
    obtain ⟨⟨hcounts, hchain, hcap⟩, htensors⟩ := shapedError_eq_none.1 ((layerChecks_linear ..).symm.trans h)
    simp only [List.forall_mem_append, List.forall_mem_cons] at htensors
    obtain ⟨⟨hhalf, hw, -⟩, hb⟩ := htensors
    have hout := checkTensor_of_le hhalf hcap
    refine ⟨(linearError_eq_linearChecks ..).symm.trans (shapedError_eq_none.2 ⟨hcounts, ?_⟩), hout⟩
    simp only [linearTensors, List.forall_mem_append, List.forall_mem_cons]
    exact ⟨⟨hchain ▸ hcur, hout, hw, by simp⟩, hb⟩
  | conv o =>
    obtain ⟨⟨hcounts, hchain, hcap⟩, htensors⟩ := shapedError_eq_none.1 ((layerChecks_conv ..).symm.trans h)
    rw [List.forall_mem_cons] at htensors
    obtain ⟨hhalf, hparams⟩ := htensors
    have hout := checkTensor_of_le hhalf hcap
    refine ⟨(convError_eq_convChecks ..).symm.trans (shapedError_eq_none.2 ⟨hcounts, ?_⟩), hout⟩
    exact List.forall_mem_cons.2 ⟨hchain ▸ hcur, List.forall_mem_cons.2 ⟨hout, hparams⟩⟩
  | lstm fused o =>
    obtain ⟨⟨hcounts, hchain⟩, htensors⟩ := shapedError_eq_none.1 ((layerChecks_lstm ..).symm.trans h)
    refine ⟨(lstmError_eq_lstmChecks ..).symm.trans (shapedError_eq_none.2 ⟨hcounts, ?_⟩),
      htensors (o.h.toNat, o.nHid.toNat) (by simp)⟩
    exact List.forall_mem_cons.2 ⟨hchain ▸ hcur, htensors⟩
  | rnn o =>
    obtain ⟨⟨hcounts, hchain⟩, htensors⟩ := shapedError_eq_none.1 ((layerChecks_rnn ..).symm.trans h)
    refine ⟨(rnnError_eq_rnnChecks ..).symm.trans (shapedError_eq_none.2 ⟨hcounts, ?_⟩),
      htensors (o.h.toNat, o.nHid.toNat) (by simp)⟩
    exact List.forall_mem_cons.2 ⟨hchain ▸ hcur, htensors⟩

/-! ### The layers of a NET that passes -/

theorem netRecordError_of_header {s : State} {o : NetOps} {i : Nat} (h : recordWord s o i 0 ∈ layerHeaders) :
    netRecordError s o i = firstError (layerChecks s (cursorBefore s o i) (netStep s o i)) :=
  recordError_of_layerHeader (c := cursorBefore s o i) _ _ h

/-- The command the statements give for a record is its layer's (30_encoding.md R140). -/
theorem netCommand_eq {s : State} {o : NetOps} {i : Nat} (h : recordWord s o i 0 ∈ layerHeaders) :
    netCommand s o i = (netLayer s o i).command := by
  unfold netCommand netLayer
  rcases recordLayer_cases h with ⟨hw, hL⟩ | ⟨hw, hL⟩ | ⟨hw, hL⟩ | ⟨hw, hL⟩ | ⟨hw, hL⟩ | ⟨hw, hL⟩ <;>
    (rw [hL]; simp only [layerCommand, hw]; rfl)

theorem writesHalf_eq {s : State} {o : NetOps} {i : Nat} (h : recordWord s o i 0 ∈ layerHeaders) :
    writesHalf (recordWord s o i 0) = (netLayer s o i).usesHalf := by
  unfold netLayer
  rcases recordLayer_cases h with ⟨hw, hL⟩ | ⟨hw, hL⟩ | ⟨hw, hL⟩ | ⟨hw, hL⟩ | ⟨hw, hL⟩ | ⟨hw, hL⟩ <;>
    (rw [hL]; simp only [writesHalf, hw]; rfl)

section Passes

variable {s : State} {o : NetOps} (h : NetPasses s o)
include h

theorem layerHeader_of_passes {i : Nat} (hi : i < o.count.toNat) : recordWord s o i 0 ∈ layerHeaders :=
  layerHeader_of_recordError (h.2 i hi)

theorem layerChecks_of_passes {i : Nat} (hi : i < o.count.toNat) :
    firstError (layerChecks s (cursorBefore s o i) (netStep s o i)) = none :=
  (netRecordError_of_header (layerHeader_of_passes h hi)).symm.trans (h.2 i hi)

/-- The current tensor before each record is accepted: the input, a half, or an accepted H (43_network_driver.md
R271, R273). -/
theorem checkTensor_current {i : Nat} (hi : i ≤ o.count.toNat) :
    checkTensor s.platform (currentBefore s o i).toNat (lenBefore s o i) = none := by
  induction i with
  | zero =>
    have hown := (netOwnError_eq_netOwnChecks s o).symm.trans h.1
    exact firstError_eq_none.1 hown _ (by simp [currentBefore, lenBefore])
  | succ i ih =>
    obtain ⟨hcur, hlen⟩ : currentBefore s o (i + 1) = (netLayer s o i).out ∧
        lenBefore s o (i + 1) = (netLayer s o i).outLen := by
      have hafter := after_netLayer (layerHeader_of_passes h hi)
      exact ⟨congrArg Cursor.cur hafter.symm, congrArg Cursor.len hafter.symm⟩
    rw [hcur, hlen]
    exact (stepChecks_of_layerChecks (c := cursorBefore s o i) (layerChecks_of_passes h hi) (ih (by omega))).2

theorem stepChecks_of_passes {i : Nat} (hi : i < o.count.toNat) :
    stepChecks s.platform (netStep s o i) = none :=
  (stepChecks_of_layerChecks (c := cursorBefore s o i) (layerChecks_of_passes h hi) (checkTensor_current h hi.le)).1

end Passes

/-! ### Footprints -/

theorem layerWrites_command (L : Layer) (half : Bool) :
    layerWrites L.command = (stepFootprint (L.step half)).writes := by
  match L with
  | .linear true _ | .linear false _ | .conv _ | .lstm true _ | .lstm false _ | .rnn _ => rfl

theorem layerReads_command (s : State) (L : Layer) (half : Bool) :
    layerReads s L.command = s.descRange :: (stepFootprint (L.step half)).reads := by
  match L with
  | .linear true _ | .linear false _ | .conv _ | .lstm true _ | .lstm false _ | .rnn _ => rfl

/-- A step reads its current tensor and the tensors its record names. -/
theorem drop_reads (st : LayerStep) : (stepFootprint st).reads.drop 1 = stepParams st := by
  cases st <;> rfl

theorem stepHalf_step (L : Layer) (half : Bool) : stepHalf (L.step half) = if L.usesHalf then some half else none := by
  cases L <;> rfl

/-- What one step writes meets nothing that another writes, but for the half both write (log entry 10). -/
def KeepsOff (st other : LayerStep) : Prop := ∀ r ∈ (stepFootprint st).writes, r.meets (otherWrites st other) = false

theorem overlapsAfter_eq_nil {fixed : List Range} {before after : List LayerStep}
    (hown : ∀ st ∈ after, (stepFootprint st).overlapsItself = false)
    (hfixed : ∀ st ∈ after, ∀ r ∈ (stepFootprint st).writes, r.meets fixed = false)
    (hbefore : ∀ st ∈ after, ∀ other ∈ before, KeepsOff st other)
    (hafter : after.Pairwise fun st other => KeepsOff st other ∧ KeepsOff other st) :
    overlapsAfter fixed before after = [] := by
  induction after generalizing before with
  | nil => rfl
  | cons st after ih =>
    rw [List.forall_mem_cons] at hown hfixed hbefore
    rw [List.pairwise_cons] at hafter
    have hst : stepOverlaps fixed (before ++ after) st = [] := by
      simp only [stepOverlaps, hown.1, Bool.false_eq_true, if_false, List.filter_eq_nil_iff, Bool.not_eq_true]
      intro r hr
      rw [Range.meets_append, hfixed.1 r hr, Bool.false_or, Range.meets_eq_false]
      intro q hq
      obtain ⟨other, hother, hq⟩ := List.mem_flatMap.1 hq
      refine Range.meets_eq_false.1 (?_ : r.meets (otherWrites st other) = false) q hq
      rcases List.mem_append.1 hother with hother | hother
      · exact hbefore.1 other hother r hr
      · exact (hafter.1 other hother).1 r hr
    rw [overlapsAfter, hst, ih hown.2 hfixed.2 (fun st' hst' other hother => ?_) hafter.2, List.nil_append]
    rcases List.mem_cons.1 hother with rfl | hother
    · exact (hafter.1 st' hst').2
    · exact hbefore.2 st' hst' other hother

/-! ### The layers of a NET whose outputs are apart -/

section Apart

variable {s : State} {o : NetOps} (hpass : NetPasses s o) (hap : NetApart s o)
include hpass hap

/-- Each record's command stands alone. -/
theorem standsAlone_of_apart {i : Nat} (hi : i < o.count.toNat) : StandsAlone s (netStep s o i) := by
  obtain ⟨hwrites, hreads⟩ := hap.own i hi
  rw [netCommand_eq (layerHeader_of_passes hpass hi), layerWrites_command _ (halfBefore s o i)] at hwrites hreads
  rw [layerReads_command s _ (halfBefore s o i)] at hreads
  refine ⟨stepChecks_of_passes hpass hi, Footprint.overlapsItself_eq_false.2 ⟨fun r hr => ?_, ?_⟩, fun r hr => ?_⟩
  · exact (Range.meets_cons_eq_false.1 (apart_iff_meets.1 (hreads r hr))).2
  · exact hwrites.imp apart_iff_meets.1
  · exact (Range.meets_cons_eq_false.1 (apart_iff_meets.1 (hreads r hr))).1

/-- What a record's step writes meets nothing that no step writes (R274, 70_reset_and_hazards.md R344). -/
theorem meets_netFixed {i : Nat} (hi : i < o.count.toNat) {r : Range}
    (hr : r ∈ (stepFootprint (netStep s o i)).writes) :
    r.meets (netFixed s o ((List.range o.count.toNat).map (netStep s o))) = false := by
  have hdesc := (standsAlone_of_apart hpass hap hi).desc r hr
  have hfixed : ∀ j, j < o.count.toNat → r.meets ({ base := o.list.toNat, len := 64 * o.count.toNat } ::
      tensorRange o.input.toNat o.inLen.toNat :: stepParams (netStep s o j)) = false := fun j hj => by
    have hf := hap.fixed i j hi hj r
    rw [netCommand_eq (layerHeader_of_passes hpass hi), netCommand_eq (layerHeader_of_passes hpass hj),
      layerWrites_command _ (halfBefore s o i), layerReads_command s _ (halfBefore s o j)] at hf
    rw [← drop_reads]
    exact apart_iff_meets.1 (hf hr)
  obtain ⟨hlist, hrest⟩ := Range.meets_cons_eq_false.1 (hfixed i hi)
  obtain ⟨hinput, -⟩ := Range.meets_cons_eq_false.1 hrest
  refine Range.meets_cons_eq_false.2 ⟨hdesc, Range.meets_cons_eq_false.2 ⟨hlist, Range.meets_cons_eq_false.2
    ⟨hinput, Range.meets_eq_false.2 fun q hq => ?_⟩⟩⟩
  obtain ⟨st, hst, hq⟩ := List.mem_flatMap.1 hq
  obtain ⟨j, hj, rfl⟩ := List.mem_map.1 hst
  obtain ⟨-, hrest⟩ := Range.meets_cons_eq_false.1 (hfixed j (List.mem_range.1 hj))
  exact Range.meets_eq_false.1 (Range.meets_cons_eq_false.1 hrest).2 q hq

/-- Two records' steps keep off each other's outputs, but for one half that both write. -/
theorem keepsOff_of_apart {i j : Nat} (hij : i < j) (hj : j < o.count.toNat) :
    KeepsOff (netStep s o i) (netStep s o j) ∧ KeepsOff (netStep s o j) (netStep s o i) := by
  have hi : i < o.count.toNat := hij.trans hj
  have hothers := hap.others i j hij hj
  rw [writesHalf_eq (layerHeader_of_passes hpass hi), writesHalf_eq (layerHeader_of_passes hpass hj),
    netCommand_eq (layerHeader_of_passes hpass hi), netCommand_eq (layerHeader_of_passes hpass hj),
    layerWrites_command _ (halfBefore s o i), layerWrites_command _ (halfBefore s o j)] at hothers
  rcases hothers with ⟨hhi, hhj, hhalf⟩ | hothers
  · have hsame : ∀ st other : LayerStep, stepHalf st = some (halfBefore s o i) →
        stepHalf other = some (halfBefore s o i) → KeepsOff st other := fun st other h h' r _ => by
      simp [otherWrites, h, h', Range.meets]
    have hst : stepHalf (netStep s o i) = some (halfBefore s o i) := by rw [netStep, stepHalf_step, if_pos hhi]
    have hother : stepHalf (netStep s o j) = some (halfBefore s o i) := by
      rw [netStep, stepHalf_step, if_pos hhj, hhalf]
    exact ⟨hsame _ _ hst hother, hsame _ _ hother hst⟩
  · have hsub : ∀ st other, otherWrites st other ⊆ (stepFootprint other).writes := fun st other => by
      unfold otherWrites
      split <;> simp
    refine ⟨fun r hr => Range.meets_eq_false.2 fun q hq => hothers r hr q (hsub _ _ hq), fun r hr =>
      Range.meets_eq_false.2 fun q hq p hp => ?_⟩
    have hqr := hothers q (hsub _ _ hq) r hr p
    cases hholds : q.holds p
    · rfl
    · exact absurd hp (by simp [hqr hholds])

/-- Nothing is freed at the end (20_memory.md R91). -/
theorem netOverlaps_eq_nil :
    netOverlaps (netFixed s o ((List.range o.count.toNat).map (netStep s o)))
      ((List.range o.count.toNat).map (netStep s o)) = [] := by
  refine netOverlaps_of_apart (overlapsAfter_eq_nil ?_ ?_ (by simp) (List.pairwise_map.2 ?_))
  · exact List.forall_mem_map.2 fun i hi => (standsAlone_of_apart hpass hap (List.mem_range.1 hi)).self
  · exact List.forall_mem_map.2 fun i hi r hr => meets_netFixed hpass hap (List.mem_range.1 hi) hr
  · exact List.pairwise_lt_range.imp_of_mem fun _ hj hij => keepsOff_of_apart hpass hap hij (List.mem_range.1 hj)

end Apart

/-! ### One command after another -/

/-- What a layer's command leaves of what the next one's run rests on. -/
structure SameSetup (s u : State) : Prop where
  platform : u.platform = s.platform
  tileCfg : u.tileCfg = s.tileCfg
  lut : u.lut = s.lut
  cmdAddr : u.cmdAddr = s.cmdAddr

theorem StandsAlone.of_sameSetup {s u : State} {st : LayerStep} (hu : SameSetup s u) (h : StandsAlone s st) :
    StandsAlone u st := by
  obtain ⟨hchecks, hself, hdesc⟩ := h
  have hrange : u.descRange = s.descRange := by rw [State.descRange, hu.cmdAddr]; rfl
  exact ⟨hu.platform ▸ hchecks, hself, hrange ▸ hdesc⟩

theorem leaves_append {is js : List Instr} {s t : State} :
    Leaves (is ++ js) s t ↔ ∃ u, Leaves is s u ∧ Leaves js u t := by
  induction is generalizing s with
  | nil => simp [Leaves]
  | cons i is ih =>
    simp only [List.cons_append, Leaves, ih]
    constructor
    · rintro ⟨v, hexec, hdone, u, his, hjs⟩
      exact ⟨u, ⟨v, hexec, hdone, his⟩, hjs⟩
    · rintro ⟨u, ⟨v, hexec, hdone, his⟩, hjs⟩
      exact ⟨v, hexec, hdone, u, his, hjs⟩

@[simp] theorem lastStepPasses_concat (cfg : Word) (sts : List LayerStep) (st : LayerStep) :
    lastStepPasses cfg (sts ++ [st]) = stepPasses cfg st := by
  induction sts with
  | nil => rfl
  | cons x sts ih =>
    cases sts with
    | nil => rfl
    | cons y sts => exact ih

/-- The layers' commands run one after another store what the driver's steps store (43_network_driver.md R272, R274). -/
theorem leaves_layers {s : State} {L : Nat → Layer} {half : Nat → Bool} {n : Nat}
    (h : ∀ i, i < n → StandsAlone s ((L i).step (half i))) :
    ∃ u, Leaves ((List.range n).map fun i => (L i).command) s u ∧ SameSetup s u ∧
      u.mem = (((List.range n).map fun i => (L i).step (half i)).foldl (stepRun s.tileCfg s.lut) s.run).mem ∧
      ∀ k, n = k + 1 → u.result = (L k).out ∧
        u.lastPasses = BitVec.ofNat 32 (stepPasses s.tileCfg ((L k).step (half k))) := by
  induction n with
  | zero => exact ⟨s, rfl, ⟨rfl, rfl, rfl, rfl⟩, rfl, fun k hk => nomatch hk⟩
  | succ n ih =>
    obtain ⟨u, hleaves, hsetup, hmem, -⟩ := ih fun i hi => h i (by omega)
    have halone := h n (by omega)
    have hexec := exec_command (halone.of_sameSetup hsetup)
    obtain ⟨hplatform, hcfg, hlut, hcmd⟩ := hsetup
    rw [hcfg, hlut] at hexec
    have hlast : Leaves [(L n).command] u _ := ⟨_, hexec, rfl, rfl⟩
    rw [List.range_succ, List.map_append, List.map_append, List.foldl_append]
    refine ⟨_, leaves_append.2 ⟨u, hleaves, hlast⟩, ⟨hplatform, hcfg, hlut, hcmd⟩, ?_, fun k hk => ?_⟩
    · have hrun := Run.eq_withDraws (y := u.run) hmem
      show (stepRun s.tileCfg s.lut u.run ((L n).step (half n))).mem = _
      rw [hrun, stepRun_withDraws halone.self]
      rfl
    · obtain rfl : n = k := Nat.succ.inj hk
      exact ⟨rfl, rfl⟩

/-! ### Records that decode -/

/-- A record that decodes to a layer's command names that layer (30_encoding.md R122, R140). -/
theorem recordLayer_of_decode {m : Memory} {p : Nat} {L : Layer} (h : decode (m.bytes p 64) = .ok L.command) :
    m.words p 0 = encodeHeader L.command ∧ recordLayer (m.words p) = L := by
  rw [decode_of_length (by simp)] at h
  have hwords : ∀ j, j < 16 → m.words p j = wordAt (m.bytes p 64) j := fun j hj => (wordAt_bytes (by omega)).symm
  have hheader : m.words p 0 = encodeHeader L.command := (hwords 0 (by omega)).trans (decodeWords_header h)
  obtain ⟨hlin, hconv, hlstm, hrnn⟩ := decodeWords_layer h
  obtain ⟨clin, cconv, clstm, crnn⟩ := layouts_congr hwords
  refine ⟨hheader, ?_⟩
  unfold recordLayer
  rw [hheader, clin, cconv, clstm, crnn]
  match L with
  | .linear true o => rw [← hlin o (.inl rfl)]; simp [Layer.command, encodeHeader, header, headerFlags]
  | .linear false o => rw [← hlin o (.inr rfl)]; simp [Layer.command, encodeHeader, header, headerFlags]
  | .conv o => rw [← hconv o rfl]; simp [Layer.command, encodeHeader, header]
  | .lstm false o => rw [← hlstm o (.inl rfl)]; simp [Layer.command, encodeHeader, header, headerFlags]
  | .lstm true o => rw [← hlstm o (.inr rfl)]; simp [Layer.command, encodeHeader, header, headerFlags]
  | .rnn o => rw [← hrnn o rfl]; simp [Layer.command, encodeHeader, header]

theorem encodeHeader_command_mem (L : Layer) : encodeHeader L.command ∈ layerHeaders := by
  match L with
  | .linear true _ | .linear false _ | .conv _ | .lstm true _ | .lstm false _ | .rnn _ =>
    simp [Layer.command, encodeHeader, header, layerHeaders]

section Decodes

variable {s : State} {o : NetOps} {i : Nat} {L : Layer}
  (h : decode (s.mem.bytes (o.list.toNat + 64 * i) 64) = .ok L.command)
include h

theorem layerHeader_of_decode : recordWord s o i 0 ∈ layerHeaders := by
  have hheader : recordWord s o i 0 = encodeHeader L.command := (recordLayer_of_decode h).1
  exact hheader ▸ encodeHeader_command_mem L

theorem netLayer_of_decode :
    netLayer s o i = L.route (currentBefore s o i) (selectedHalf s (halfBefore s o i)) := by
  have hlayer : recordLayer (recordWord s o i) = L := (recordLayer_of_decode h).2
  rw [netLayer, hlayer]

/-- The command of such a record, its buffers routed. -/
theorem netCommand_of_decode :
    netCommand s o i = (L.route (currentBefore s o i) (selectedHalf s (halfBefore s o i))).command := by
  rw [netCommand_eq (layerHeader_of_decode h), netLayer_of_decode h]

/-- The cursor behind such a record. -/
theorem cursorBefore_succ_of_decode :
    cursorBefore s o (i + 1) =
      (L.route (currentBefore s o i) (selectedHalf s (halfBefore s o i))).after (halfBefore s o i) := by
  rw [← after_netLayer (layerHeader_of_decode h), netLayer_of_decode h]

end Decodes

/-! ### The run -/

/-- A NET that passes and whose outputs are apart ends as its layers' commands end (43_network_driver.md R272, R274). -/
theorem exec_net_of_apart {s : State} {o : NetOps} (hpass : NetPasses s o) (hap : NetApart s o) :
    ∃ t u, exec (.net o) s = .next t ∧ Leaves ((List.range o.count.toNat).map (netCommand s o)) s u ∧
      t.mem = u.mem ∧ t.result = u.result ∧ t.lastPasses = u.lastPasses ∧ t.layerIdx = o.count ∧
      t.result = currentBefore s o o.count.toNat := by
  obtain ⟨u, hleaves, -, hmem, hlast⟩ := leaves_layers (L := netLayer s o) (half := halfBefore s o)
    (n := o.count.toNat) fun i hi => standsAlone_of_apart hpass hap hi
  have hcommands : (List.range o.count.toNat).map (netCommand s o) =
      (List.range o.count.toNat).map fun i => (netLayer s o i).command :=
    List.map_congr_left fun i hi => netCommand_eq (layerHeader_of_passes hpass (List.mem_range.1 hi))
  obtain ⟨k, hk⟩ : ∃ k, o.count.toNat = k + 1 := by
    have hown := (netOwnError_eq_netOwnChecks s o).symm.trans hpass.1
    have hpos := firstError_eq_none.1 hown _ List.mem_cons_self
    rw [checkShape_eq_none, positive_iff] at hpos
    exact Nat.exists_eq_add_of_le' (hpos _ List.mem_cons_self)
  obtain ⟨hresult, hpasses⟩ := hlast k hk
  have hcur : currentBefore s o o.count.toNat = (netLayer s o k).out := by
    rw [hk]
    exact congrArg Cursor.cur (after_netLayer (layerHeader_of_passes hpass (by omega))).symm
  refine ⟨_, u, execNet_of_ok (netPlan_of_passes hpass), hcommands ▸ hleaves, ?_, ?_, ?_, rfl, rfl⟩
  · show (netRun s o _).mem = _
    rw [netRun, netOverlaps_eq_nil hpass hap]
    exact hmem.symm
  · exact hcur.trans hresult.symm
  · show BitVec.ofNat 32 (lastStepPasses s.tileCfg _) = _
    rw [hpasses, hk, List.range_succ, List.map_append, List.map_singleton, lastStepPasses_concat]
    rfl

/-- LINEAR, LSTM, LINEAR use half A, the LSTM's H and half B (43_network_driver.md R275). -/
theorem linear_lstm_linear_routed {s : State} {o : NetOps} {o0 o2 : LinearOps} {o1 : LstmOps}
    (h0 : decode (s.mem.bytes o.list.toNat 64) = .ok (.linear o0))
    (h1 : decode (s.mem.bytes (o.list.toNat + 64) 64) = .ok (.lstm o1))
    (h2 : decode (s.mem.bytes (o.list.toNat + 128) 64) = .ok (.linear o2)) :
    (List.range 3).map (netCommand s o) =
        [.linear { o0 with inp := o.input, out := s.scratchA }, .lstm { o1 with x := s.scratchA },
          .linear { o2 with inp := o1.h, out := s.scratchB }] ∧
      currentBefore s o 3 = s.scratchB := by
  have hc1 := cursorBefore_succ_of_decode (i := 0) (L := .linear true o0) h0
  have hc2 := cursorBefore_succ_of_decode (i := 1) (L := .lstm false o1) h1
  have hc3 := cursorBefore_succ_of_decode (i := 2) (L := .linear true o2) h2
  have hcommand0 := netCommand_of_decode (i := 0) (L := .linear true o0) h0
  have hcommand1 := netCommand_of_decode (i := 1) (L := .lstm false o1) h1
  have hcommand2 := netCommand_of_decode (i := 2) (L := .linear true o2) h2
  have hcur1 : currentBefore s o 1 = s.scratchA := congrArg Cursor.cur hc1
  have hcur2 : currentBefore s o 2 = o1.h := congrArg Cursor.cur hc2
  have hhalf2 : halfBefore s o 2 = true := (congrArg Cursor.half hc2).trans (congrArg Cursor.half hc1)
  rw [hcur1] at hcommand1
  rw [hcur2, hhalf2] at hcommand2
  refine ⟨?_, (congrArg Cursor.cur hc3).trans (congrArg (selectedHalf s) hhalf2)⟩
  show [netCommand s o 0, netCommand s o 1, netCommand s o 2] = _
  rw [hcommand0, hcommand1, hcommand2]
  rfl

end Sys2Proof.Machine

namespace Sys2Proof.Proofs

open Sys2Proof Sys2Proof.Machine Sys2Proof.Claims

/-- Settles O43: a record that passes is its layer with the cursor's buffers; and where nothing overlaps, each layer's
command stores what the driver's step stores, with nothing freed at the end. -/
theorem layersRunAsTheirCommands : Obligations.LayersRunAsTheirCommands := by
  refine ⟨fun s p c c' st h => ?_, fun s o hpass hap => ?_⟩
  · obtain ⟨L, rfl, rfl, hchecks⟩ := exists_layer_of_planLayer h
    cases L with
    | linear hasBias o =>
      obtain ⟨⟨-, hchain, hcap⟩, -⟩ := shapedError_eq_none.1 ((layerChecks_linear ..).symm.trans hchecks)
      exact ⟨rfl, rfl, hchain, rfl, rfl, hcap⟩
    | conv o =>
      obtain ⟨⟨-, hchain, hcap⟩, -⟩ := shapedError_eq_none.1 ((layerChecks_conv ..).symm.trans hchecks)
      exact ⟨rfl, rfl, hchain, rfl, rfl, hcap⟩
    | lstm fused o =>
      obtain ⟨⟨-, hchain⟩, -⟩ := shapedError_eq_none.1 ((layerChecks_lstm ..).symm.trans hchecks)
      exact ⟨rfl, hchain, rfl, rfl, rfl⟩
    | rnn o =>
      obtain ⟨⟨-, hchain⟩, -⟩ := shapedError_eq_none.1 ((layerChecks_rnn ..).symm.trans hchecks)
      exact ⟨rfl, hchain, rfl, rfl, rfl⟩
  · obtain ⟨t, u, ht, hu, hmem, hresult, hpasses, hidx, hcur⟩ := exec_net_of_apart hpass hap
    refine ⟨t, u, ht, hu, fun p => by rw [hmem], hresult, hpasses, hidx, fun o0 o2 o1 hcount h0 h1 h2 => ?_⟩
    have hn : o.count.toNat = 3 := by rw [hcount]; rfl
    obtain ⟨hcommands, hcur3⟩ := linear_lstm_linear_routed h0 h1 h2
    rw [hn, hcommands] at hu
    rw [hn, hcur3] at hcur
    exact ⟨hu, hcur⟩

end Sys2Proof.Proofs
end

section
/-! PROOF. The network of two LINEAR layers: its records, and what its two commands leave in the halves
(spec/43_network_driver.md R271, R274, R275). -/

namespace Sys2Proof.Machine

open Sys2Proof.Claims

/-- A channel of LINEAR rests on its bias, its input and its weights alone. -/
theorem linearClosed_congr {m m' : Memory} {b inp w nIn nOut c : Nat} (hc : c < nOut)
    (hb : ∀ p, (tensorRange b nOut).holds p = true → m'.read p = m.read p)
    (hinp : ∀ p, (tensorRange inp nIn).holds p = true → m'.read p = m.read p)
    (hw : ∀ p, (tensorRange w (nOut * nIn)).holds p = true → m'.read p = m.read p) :
    linearClosed m' (val m' b c) inp w nIn c = linearClosed m (val m b c) inp w nIn c := by
  have hsum : dotSum m' inp w (c * nIn) nIn = dotSum m inp w (c * nIn) nIn :=
    congrArg List.sum (List.map_congr_left fun i hi => by
      have hi := List.mem_range.1 hi
      rw [val, val, Memory.elem_congr hinp hi, Memory.elem_congr hw (digit_lt hc hi)]
      rfl)
  rw [linearClosed, hsum, val, Memory.elem_congr hb hc]
  rfl

/-- A LINEAR that passes its checks and whose OUT is apart leaves its values and keeps what the next command's run
rests on (41_tiled_kernels.md R205). -/
theorem exec_linear_values {s t : State} {o : LinearOps} (hs : Ready s)
    (h : linearChecks s.platform (linearArgs true o) = none)
    (hap : Apart (tensorRange o.out.toNat o.nOut.toNat) (linearReads s true o)) (hexec : exec (.linear o) s = .next t) :
    (Ready t ∧ t.platform = s.platform ∧ t.descRange = s.descRange) ∧
      (∀ p, (tensorRange o.out.toNat o.nOut.toNat).holds p = false → t.mem.read p = s.mem.read p) ∧
      ∀ c, c < o.nOut.toNat → t.mem.elem o.out.toNat c =
        linearClosed s.mem (val s.mem o.b.toNat c) o.inp.toNat o.w.toNat o.nIn.toNat c := by
  obtain ⟨t', hrun, hwf, htiled, helem⟩ := linearCommand_does hs h
  cases hexec.symm.trans hrun
  obtain ⟨-, hplatform, hdesc⟩ := keeps_of_onlyTiled htiled
  have hcfg : tileCfgLegal t.tileCfg = true := by rw [htiled.1]; exact hs.2
  exact ⟨⟨⟨hwf, hcfg⟩, hplatform, hdesc⟩, fun p hp => htiled.2 p (List.forall_mem_singleton.2 hp),
    fun c hc => (helem hap c hc).trans (linearChannel_bias ..)⟩

/-- A range that another is apart from is apart from it. -/
theorem apart_of_mem {r q : Range} {rs : List Range} (h : Apart r rs) (hq : q ∈ rs) : Apart q [r] := by
  have hrq : r.meets [q] = false := apart_iff_meets.1 (List.forall_mem_singleton.2 (h q hq))
  exact apart_iff_meets.2 ((Range.meets_singleton_comm q r).trans hrq)

section TwoLinears

variable {s : State} {o : NetOps} {o0 o1 : LinearOps} (h : TwoLinears s o o0 o1)
include h

/-- The buffers of the two layers: the input, half A, half B (43_network_driver.md R275). -/
theorem twoLinears_layers :
    netLayer s o 0 = .linear true { o0 with inp := o.input, out := s.scratchA } ∧
      netLayer s o 1 = .linear true { o1 with inp := s.scratchA, out := s.scratchB } ∧
      cursorBefore s o 1 = { len := o0.nOut.toNat, cur := s.scratchA, half := true } ∧
      cursorBefore s o 2 = { len := o1.nOut.toNat, cur := s.scratchB, half := false } := by
  have hc1 := cursorBefore_succ_of_decode (i := 0) (L := .linear true o0) h.record0
  have hc2 := cursorBefore_succ_of_decode (i := 1) (L := .linear true o1) h.record1
  have hlayer0 := netLayer_of_decode (i := 0) (L := .linear true o0) h.record0
  have hlayer1 := netLayer_of_decode (i := 1) (L := .linear true o1) h.record1
  have hcur1 : currentBefore s o 1 = s.scratchA := congrArg Cursor.cur hc1
  have hhalf1 : halfBefore s o 1 = true := congrArg Cursor.half hc1
  rw [hcur1, hhalf1] at hc2 hlayer1
  exact ⟨hlayer0, hlayer1, hc1, hc2⟩

theorem twoLinears_count : o.count.toNat = 2 := by rw [h.count]; rfl

theorem twoLinears_tensors :
    ∀ x ∈ [(o.input.toNat, o.inLen.toNat), (s.scratchA.toNat, s.scratchCap.toNat),
        (s.scratchB.toNat, s.scratchCap.toNat), (o0.w.toNat, o0.nOut.toNat * o0.nIn.toNat),
        (o0.b.toNat, o0.nOut.toNat), (o1.w.toNat, o1.nOut.toNat * o1.nIn.toNat), (o1.b.toNat, o1.nOut.toNat)],
      checkTensor s.platform x.1 x.2 = none :=
  List.forall_mem_map.1 (firstError_eq_none.1 ((tensorError_eq_firstError s _).symm.trans h.tensors))

theorem twoLinears_steps :
    netStep s o 0 = .linear (linearArgs true { o0 with inp := o.input, out := s.scratchA }) false ∧
      netStep s o 1 = .linear (linearArgs true { o1 with inp := s.scratchA, out := s.scratchB }) true := by
  obtain ⟨hlayer0, hlayer1, hc1, -⟩ := twoLinears_layers h
  have hhalf1 : halfBefore s o 1 = true := congrArg Cursor.half hc1
  exact ⟨by rw [netStep, hlayer0]; rfl, by rw [netStep, hlayer1, hhalf1]; rfl⟩

theorem twoLinears_commands :
    netCommand s o 0 = .linear { o0 with inp := o.input, out := s.scratchA } ∧
      netCommand s o 1 = .linear { o1 with inp := s.scratchA, out := s.scratchB } := by
  obtain ⟨hlayer0, hlayer1, -, -⟩ := twoLinears_layers h
  rw [netCommand_eq (layerHeader_of_decode (i := 0) (L := .linear true o0) h.record0), hlayer0,
    netCommand_eq (layerHeader_of_decode (i := 1) (L := .linear true o1) h.record1), hlayer1]
  exact ⟨rfl, rfl⟩

/-- Such a network passes its validation (43_network_driver.md R273). -/
theorem twoLinears_passes : NetPasses s o := by
  obtain ⟨hstep0, hstep1⟩ := twoLinears_steps h
  obtain ⟨-, -, hc1, -⟩ := twoLinears_layers h
  obtain ⟨hin0, hout0, hin1, hout1⟩ := h.counts
  obtain ⟨hchain0, hchain1⟩ := h.chain
  obtain ⟨hcap0, hcap1⟩ := h.capacity
  have htensors := twoLinears_tensors h
  simp only [List.forall_mem_cons] at htensors
  obtain ⟨hinput, hhalfA, hhalfB, hw0, hb0, hw1, hb1, -⟩ := htensors
  refine ⟨?_, fun i hi => ?_⟩
  · rw [netOwnError, twoLinears_count h, if_neg (not_not.2 ⟨by decide, hchain0 ▸ hin0⟩),
      if_neg (not_not.2 h.listAligned), if_neg (by simp [h.listOk]), tensorError_eq_firstError]
    exact firstError_eq_none.2 (by simpa using hinput)
  · rw [twoLinears_count h] at hi
    rcases (by omega : i = 0 ∨ i = 1) with rfl | rfl
    · rw [netRecordError_of_header (layerHeader_of_decode (i := 0) (L := .linear true o0) h.record0), hstep0,
        layerChecks_linear, shapedError_eq_none]
      exact ⟨⟨⟨hin0, hout0⟩, congrArg BitVec.toNat hchain0, hcap0⟩, List.forall_mem_cons.2
        ⟨hhalfA, List.forall_mem_cons.2 ⟨hw0, List.forall_mem_singleton.2 hb0⟩⟩⟩
    · rw [netRecordError_of_header (layerHeader_of_decode (i := 1) (L := .linear true o1) h.record1), hstep1,
        layerChecks_linear, shapedError_eq_none, hc1]
      exact ⟨⟨⟨hin1, hout1⟩, congrArg BitVec.toNat hchain1, hcap1⟩, List.forall_mem_cons.2
        ⟨hhalfB, List.forall_mem_cons.2 ⟨hw1, List.forall_mem_singleton.2 hb1⟩⟩⟩

/-- Its halves' boot rule keeps its outputs apart (70_reset_and_hazards.md R344). -/
theorem twoLinears_apart (hap : HalvesApart s o o0 o1) : NetApart s o := by
  obtain ⟨hcommand0, hcommand1⟩ := twoLinears_commands h
  obtain ⟨hA, hB⟩ := hap
  obtain ⟨hAB, hAreads⟩ := List.forall_mem_cons.1 hA
  have hBreads : Apart (halfB s o1) (halfA s o0 :: twoLinearReads s o o0 o1) :=
    List.forall_mem_cons.2 ⟨apart_of_mem hA List.mem_cons_self _ List.mem_cons_self, hB⟩
  obtain ⟨hchain0, hchain1⟩ := h.chain
  have hcount : 64 * o.count.toNat = 128 := by rw [twoLinears_count h]
  have hwrites0 : layerWrites (netCommand s o 0) = [halfA s o0] := by rw [hcommand0]; rfl
  have hwrites1 : layerWrites (netCommand s o 1) = [halfB s o1] := by rw [hcommand1]; rfl
  refine ⟨fun i hi => ?_, fun i j hi hj => ?_, fun i j hij hj => ?_⟩
  · rcases (by omega : i = 0 ∨ i = 1) with rfl | rfl
    · rw [hwrites0, hcommand0]
      refine ⟨List.pairwise_singleton _ _, List.forall_mem_singleton.2 fun q hq => hAreads q ?_⟩
      revert q
      simp [layerReads, linearReads, twoLinearReads, hchain0]
    · rw [hwrites1, hcommand1]
      refine ⟨List.pairwise_singleton _ _, List.forall_mem_singleton.2 fun q hq => hBreads q ?_⟩
      revert q
      simp [layerReads, linearReads, twoLinearReads, hchain1, halfA]
  · have hfixed : ({ base := o.list.toNat, len := 64 * o.count.toNat } :: tensorRange o.input.toNat o.inLen.toNat ::
        (layerReads s (netCommand s o j)).drop 2) ⊆ twoLinearReads s o o0 o1 := by
      rw [hcount]
      rcases (by omega : j = 0 ∨ j = 1) with rfl | rfl
      · rw [hcommand0]; simp [layerReads, linearReads, twoLinearReads]
      · rw [hcommand1]; simp [layerReads, linearReads, twoLinearReads]
    rcases (by omega : i = 0 ∨ i = 1) with rfl | rfl
    · rw [hwrites0]
      exact List.forall_mem_singleton.2 fun q hq => hAreads q (hfixed hq)
    · rw [hwrites1]
      exact List.forall_mem_singleton.2 fun q hq => hB q (hfixed hq)
  · obtain ⟨rfl, rfl⟩ : i = 0 ∧ j = 1 := by omega
    rw [hwrites0, hwrites1]
    exact .inr (List.forall_mem_singleton.2 (List.forall_mem_singleton.2 hAB))

/-- The commands of its two records leave the layers' values in the halves (43_network_driver.md R275). -/
theorem twoLinears_values {u : State} (hs : Ready s) (hap : HalvesApart s o o0 o1)
    (hu : Leaves ((List.range o.count.toNat).map (netCommand s o)) s u) :
    (∀ c, c < o0.nOut.toNat →
        u.mem.elem s.scratchA.toNat c =
          linearClosed s.mem (val s.mem o0.b.toNat c) o.input.toNat o0.w.toNat o0.nIn.toNat c) ∧
      ∀ c, c < o1.nOut.toNat →
        u.mem.elem s.scratchB.toNat c =
          linearClosed u.mem (val u.mem o1.b.toNat c) s.scratchA.toNat o1.w.toNat o1.nIn.toNat c := by
  have hcount := twoLinears_count h
  obtain ⟨hcommand0, hcommand1⟩ := twoLinears_commands h
  obtain ⟨hstep0, hstep1⟩ := twoLinears_steps h
  have hchecks0 := stepChecks_of_passes (twoLinears_passes h) (i := 0) (by omega)
  have hchecks1 := stepChecks_of_passes (twoLinears_passes h) (i := 1) (by omega)
  obtain ⟨-, hown0⟩ := (twoLinears_apart h hap).own 0 (by omega)
  obtain ⟨-, hown1⟩ := (twoLinears_apart h hap).own 1 (by omega)
  rw [hcount] at hu
  obtain ⟨u1, hexec0, -, u2, hexec1, -, rfl⟩ := hu
  rw [hcommand0] at hown0 hexec0
  rw [hcommand1] at hown1 hexec1
  rw [hstep0] at hchecks0
  obtain ⟨⟨hs1, hplatform, hdesc⟩, -, helem0⟩ := exec_linear_values hs hchecks0 (hown0 _ List.mem_cons_self) hexec0
  rw [hstep1, ← hplatform] at hchecks1
  have hreads := hown1 _ List.mem_cons_self
  simp only [layerReads, linearReads, ← hdesc, if_true] at hreads
  obtain ⟨-, hread1, helem1⟩ := exec_linear_values hs1 hchecks1 hreads hexec1
  have hkeep : ∀ r, Apart r [halfB s o1] → ∀ p, r.holds p = true → u.mem.read p = u1.mem.read p := fun r hr p hp =>
    hread1 p (hr _ List.mem_cons_self p hp)
  refine ⟨fun c hc => ?_, fun c hc => (helem1 c hc).trans (Eq.symm (linearClosed_congr hc ?_ ?_ ?_))⟩
  · have hAB : Apart (halfA s o0) [halfB s o1] := List.forall_mem_singleton.2 (hap.1 _ List.mem_cons_self)
    exact (Memory.elem_congr (hkeep _ hAB) hc).trans (helem0 c hc)
  · exact hkeep _ (apart_of_mem hreads (by simp))
  · exact hkeep _ (apart_of_mem hreads (by simp))
  · exact hkeep _ (apart_of_mem hreads (by simp))

end TwoLinears

end Sys2Proof.Machine

namespace Sys2Proof.Proofs

open Sys2Proof Sys2Proof.Machine Sys2Proof.Claims

/-- Settles O41: its two commands give the values, and the NET's own run the rest. -/
theorem twoLinearLayersPingPong : Obligations.TwoLinearLayersPingPong := by
  intro s o o0 o1 hs h hap
  have hpass := twoLinears_passes h
  obtain ⟨t, u, ht, hu, hmem, -⟩ := exec_net_of_apart hpass (twoLinears_apart h hap)
  obtain ⟨t', ht', heq, -, hread⟩ := validatedNetCompletes s o _ _ (netPlan_of_passes hpass)
  cases ht.symm.trans ht'
  have hvalues := twoLinears_values h hs hap hu
  rw [← hmem] at hvalues
  obtain ⟨hstep0, hstep1⟩ := twoLinears_steps h
  obtain ⟨-, -, -, hc2⟩ := twoLinears_layers h
  have hsteps : (List.range o.count.toNat).map (netStep s o) = [netStep s o 0, netStep s o 1] := by
    rw [twoLinears_count h]
    rfl
  rw [hsteps, hstep0, hstep1] at heq hread
  rw [twoLinears_count h, hc2, h.count] at heq
  exact ⟨t, ht, heq, fun p hA hB => hread p (List.forall_mem_cons.2 ⟨hA, List.forall_mem_singleton.2 hB⟩), hvalues⟩

end Sys2Proof.Proofs
end

section
/-! PROOF. The recurrent layers as commands: each ends inside its write set, and a sequence of steps is its first part
followed by the rest (spec/44_recurrent.md R290, R292, R295). -/

namespace Sys2Proof.Machine

open Sys2Proof.Claims

/-! ### Completion (44_recurrent.md R292, R295) -/

/-- A run that stays inside `ws` shows in memory there, in the tiled kernel's registers and in the completion alone
(10_state.md R35, R38, R52). -/
theorem onlyTiled_finishTiled {s : State} {x : Run} {dst : Word} {n : Nat} {ws : List Range}
    (h : Run.Within ws s.run x) : OnlyTiled s (s.finishTiled x dst (passes s.tileCfg n)).complete dst n ws :=
  ⟨rfl, h.read⟩

theorem lstmCommand_onlyTiled {fused : Bool} {s : State} {o : LstmOps} (h : lstmError s o = none) :
    ∃ t, lstmCommand fused o s = .next t ∧ OnlyTiled s t o.h o.nHid.toNat (lstmWrites o) :=
  ⟨_, lstmCommand_none ((lstmError_eq_lstmChecks s o).symm.trans h),
    onlyTiled_finishTiled (ws := (lstmFootprint (lstmArgs o)).writes) (lstmRun_within.trans Run.within_freeOverlaps)⟩

theorem execRnn_onlyTiled {s : State} {o : RnnOps} (h : rnnError s o = none) :
    ∃ t, execRnn o s = .next t ∧ OnlyTiled s t o.h o.nHid.toNat (rnnWrites o) :=
  ⟨_, execRnn_none ((rnnError_eq_rnnChecks s o).symm.trans h),
    onlyTiled_finishTiled (ws := (rnnFootprint (rnnArgs o)).writes) (rnnRun_within.trans Run.within_freeOverlaps)⟩

/-! ### Layers that stand alone -/

/-- The statements' reading of an apart layer is the model's (20_memory.md R91). -/
theorem standsAlone_of_layerApart {s : State} {L : Layer} {half : Bool}
    (hchecks : stepChecks s.platform (L.step half) = none)
    (hwrites : (layerWrites L.command).Pairwise fun r q => Apart r [q])
    (hreads : ∀ r ∈ layerWrites L.command, Apart r (layerReads s L.command)) : StandsAlone s (L.step half) := by
  rw [layerWrites_command L half] at hwrites hreads
  rw [layerReads_command s L half] at hreads
  have hmeets (r : Range) (hr : r ∈ (stepFootprint (L.step half)).writes) :=
    Range.meets_cons_eq_false.1 (apart_iff_meets.1 (hreads r hr))
  exact ⟨hchecks, Footprint.overlapsItself_eq_false.2 ⟨fun r hr => (hmeets r hr).2, hwrites.imp apart_iff_meets.1⟩,
    fun r hr => (hmeets r hr).1⟩

theorem standsAlone_lstm {fused : Bool} {s : State} {o : LstmOps} (h : lstmError s o = none) (hap : LstmApart s o) :
    StandsAlone s (.lstm fused (lstmArgs o)) := by
  have hchecks := (lstmError_eq_lstmChecks s o).symm.trans h
  cases fused
  · exact standsAlone_of_layerApart (L := .lstm false o) (half := false) hchecks hap.1 hap.2
  · exact standsAlone_of_layerApart (L := .lstm true o) (half := false) hchecks hap.1 hap.2

theorem standsAlone_rnn {s : State} {o : RnnOps} (h : rnnError s o = none) (hap : RnnApart s o) :
    StandsAlone s (.rnn (rnnArgs o)) :=
  standsAlone_of_layerApart (L := .rnn o) (half := false) ((rnnError_eq_rnnChecks s o).symm.trans h) hap.1 hap.2

/-- A layer whose run is the runs of two others leaves the memory that their commands leave one after the other. -/
theorem exec_of_run_append {s : State} {L L₁ L₂ : Layer} {half : Bool} (h : StandsAlone s (L.step half))
    (h₁ : StandsAlone s (L₁.step half)) (h₂ : StandsAlone s (L₂.step half))
    (hrun : ruleRun s.tileCfg s.lut s.run (L.step half) =
      ruleRun s.tileCfg s.lut (ruleRun s.tileCfg s.lut s.run (L₁.step half)) (L₂.step half)) :
    ∃ t u v, exec L₁.command s = .next t ∧ exec L₂.command t = .next u ∧ exec L.command s = .next v ∧
      ∀ p, v.mem.read p = u.mem.read p := by
  obtain ⟨u, ⟨t, hexec₁, -, _, hexec₂, -, rfl⟩, -, hmem, -⟩ :=
    leaves_layers (s := s) (L := fun i => if i = 0 then L₁ else L₂) (half := fun _ => half) (n := 2) fun i _ => by
      by_cases hi : i = 0
      · simpa [hi] using h₁
      · simpa [hi] using h₂
  refine ⟨t, u, _, hexec₁, hexec₂, exec_command h, fun p => congrArg (Memory.read · p) ?_⟩
  rw [← stepRun_of_apart h.self, ← stepRun_of_apart h₁.self, ← stepRun_of_apart h₂.self] at hrun
  exact (congrArg Run.mem hrun).trans hmem.symm

/-! ### Parts of a tensor -/

/-- A part of an accepted tensor is accepted (20_memory.md R84). -/
theorem checkTensor_part {p : Platform} {t n i k : Nat} (h : checkTensor p t n = none) (hik : i + k ≤ n) :
    checkTensor p (t + 2 * i) k = none := by
  obtain ⟨halign, hmem⟩ := checkTensor_eq_none.1 h
  exact checkTensor_eq_none.2 ⟨by omega, Platform.memOk_part hmem (by omega) (by omega)⟩

/-- What meets no byte of a tensor meets no byte of a part of it. -/
theorem meets_part {r : Range} {t n i k : Nat} (h : r.meets [tensorRange t n] = false) (hik : i + k ≤ n) :
    r.meets [tensorRange (t + 2 * i) k] = false := by
  rw [← apart_iff_meets, Apart, List.forall_mem_singleton] at h ⊢
  intro p hp
  have hout := h p hp
  rw [Bool.eq_false_iff, ne_eq, holds_tensorRange] at hout ⊢
  omega

/-- A footprint that does not overlap itself still does not with a part of one of its inputs in the input's place. -/
theorem overlapsItself_of_part {rs ws : List Range} {t n i k : Nat}
    (h : Footprint.overlapsItself ⟨tensorRange t n :: rs, ws⟩ = false) (hik : i + k ≤ n) :
    Footprint.overlapsItself ⟨tensorRange (t + 2 * i) k :: rs, ws⟩ = false := by
  rw [Footprint.overlapsItself_eq_false] at h ⊢
  refine ⟨fun r hr => ?_, h.2⟩
  obtain ⟨hhead, htail⟩ := Range.meets_cons_eq_false.1 (h.1 r hr)
  exact Range.meets_cons_eq_false.2 ⟨meets_part hhead hik, htail⟩

/-- The time steps `t` to `t + k` of an input sequence are a part of it (R290). -/
theorem window_le {n t k seq : Nat} (h : t + k ≤ seq) : t * n + k * n ≤ seq * n := by
  rw [← Nat.add_mul]
  exact Nat.mul_le_mul_right n h

/-! ### The time steps of an LSTM (R290, R292) -/

/-- The LSTM over `k` time steps from step `t` on. -/
def LstmArgs.window (a : LstmArgs) (t k : Nat) : LstmArgs := { a with x := a.x + 2 * (t * a.nIn), seq := k }

theorem lstmChecks_window {p : Platform} {a : LstmArgs} {t k : Nat} (h : lstmChecks p a = none) (hk : 1 ≤ k)
    (htk : t + k ≤ a.seq) : lstmChecks p (a.window t k) = none := by
  simp only [lstmChecks, lstmShape, firstError_eq_none, List.forall_mem_cons, checkShape_eq_none, positive_iff] at h ⊢
  obtain ⟨⟨hin, hhid, -⟩, hx, hrest⟩ := h
  exact ⟨⟨hin, hhid, hk, by simp⟩, checkTensor_part hx (window_le htk), hrest⟩

theorem StandsAlone.lstm_window {s : State} {fused : Bool} {a : LstmArgs} {t k : Nat}
    (h : StandsAlone s (.lstm fused a)) (hk : 1 ≤ k) (htk : t + k ≤ a.seq) :
    StandsAlone s (.lstm fused (a.window t k)) :=
  ⟨lstmChecks_window h.checks hk htk, overlapsItself_of_part h.self (window_le htk), h.desc⟩

theorem lstmStep_window (cfg : Word) (lut : Lut) (fused : Bool) (fr : LstmFree) (a : LstmArgs) (t k : Nat) :
    lstmStep cfg lut fused fr (a.window t k) = fun x i => lstmStep cfg lut fused fr a x (t + i) := by
  funext x i
  have hargs (j : Nat) : lstmGateArgs (a.window t k) i j = lstmGateArgs a (t + i) j := by
    simp only [lstmGateArgs, LstmArgs.window, Nat.add_mul, Nat.mul_add, Nat.add_assoc]
  have hgate : lstmGate cfg lut fused fr (a.window t k) i = lstmGate cfg lut fused fr a (t + i) := by
    funext y j
    simp only [lstmGate, hargs]
    rfl
  rw [lstmStep, hgate]
  rfl

/-- A run over `m + k` steps is the run over the first `m`, then the run over the `k` that follow. -/
theorem lstmRun_append {s : State} {cfg : Word} {lut : Lut} {fused : Bool} {a : LstmArgs} {m k : Nat} {x : Run}
    (h : StandsAlone s (.lstm fused a)) (hm : 1 ≤ m) (hk : 1 ≤ k) (hseq : a.seq = m + k) :
    lstmRun cfg lut fused [] a x =
      lstmRun cfg lut fused [] (a.window m k) (lstmRun cfg lut fused [] (a.window 0 m) x) := by
  simp only [lstmRun, lstmFree_of_apart h.self, lstmFree_of_apart (h.lstm_window hm (by omega : 0 + m ≤ a.seq)).self,
    lstmFree_of_apart (h.lstm_window hk hseq.ge).self, lstmStep_window, Nat.zero_add]
  rw [hseq, List.range_add, List.foldl_append, List.foldl_map]
  rfl

/-! ### The time steps of an RNN (R290, R295) -/

/-- The RNN over `k` time steps from step `t` on. -/
def RnnArgs.window (a : RnnArgs) (t k : Nat) : RnnArgs := { a with x := a.x + 2 * (t * a.nIn), seq := k }

theorem rnnChecks_window {p : Platform} {a : RnnArgs} {t k : Nat} (h : rnnChecks p a = none) (hk : 1 ≤ k)
    (htk : t + k ≤ a.seq) : rnnChecks p (a.window t k) = none := by
  simp only [rnnChecks, rnnShape, firstError_eq_none, List.forall_mem_cons, checkShape_eq_none, positive_iff] at h ⊢
  obtain ⟨⟨hin, hhid, -⟩, hx, hrest⟩ := h
  exact ⟨⟨hin, hhid, hk, by simp⟩, checkTensor_part hx (window_le htk), hrest⟩

theorem StandsAlone.rnn_window {s : State} {a : RnnArgs} {t k : Nat} (h : StandsAlone s (.rnn a)) (hk : 1 ≤ k)
    (htk : t + k ≤ a.seq) : StandsAlone s (.rnn (a.window t k)) :=
  ⟨rnnChecks_window h.checks hk htk, overlapsItself_of_part h.self (window_le htk), h.desc⟩

theorem rnnStep_window (cfg : Word) (lut : Lut) (fr : RnnFree) (a : RnnArgs) (t k : Nat) :
    rnnStep cfg lut fr (a.window t k) = fun x i => rnnStep cfg lut fr a x (t + i) := by
  funext x i
  have hargs : rnnInputArgs (a.window t k) i = rnnInputArgs a (t + i) := by
    simp only [rnnInputArgs, RnnArgs.window, Nat.add_mul, Nat.mul_add, Nat.add_assoc]
  rw [rnnStep, hargs]
  rfl

/-- A run over `m + k` steps is the run over the first `m`, then the run over the `k` that follow. -/
theorem rnnRun_append {s : State} {cfg : Word} {lut : Lut} {a : RnnArgs} {m k : Nat} {x : Run}
    (h : StandsAlone s (.rnn a)) (hm : 1 ≤ m) (hk : 1 ≤ k) (hseq : a.seq = m + k) :
    rnnRun cfg lut [] a x = rnnRun cfg lut [] (a.window m k) (rnnRun cfg lut [] (a.window 0 m) x) := by
  simp only [rnnRun, rnnFree_of_apart h.self, rnnFree_of_apart (h.rnn_window hm (by omega : 0 + m ≤ a.seq)).self,
    rnnFree_of_apart (h.rnn_window hk hseq.ge).self, rnnStep_window, Nat.zero_add]
  rw [hseq, List.range_add, List.foldl_append, List.foldl_map]
  rfl

/-! ### The commands of the two parts -/

/-- The last of `n + 1` time steps of an accepted input starts at an address (R290). -/
theorem toNat_lastStep {p : Platform} {x seq nIn : Word} {n : Nat}
    (h : checkTensor p x.toNat (seq.toNat * nIn.toNat) = none) (hin : 1 ≤ nIn.toNat) (hseq : seq.toNat = n + 1) :
    (BitVec.ofNat 32 (x.toNat + 2 * (n * nIn.toNat))).toNat = x.toNat + 2 * (n * nIn.toNat) ∧
      (BitVec.ofNat 32 n).toNat = n := by
  obtain ⟨-, hmem⟩ := checkTensor_eq_none.1 h
  have hle := Platform.le_of_memOk hmem
  have hlt := seq.isLt
  rw [hseq, Nat.add_mul, Nat.one_mul] at hle
  rw [BitVec.toNat_ofNat, BitVec.toNat_ofNat, Nat.mod_eq_of_lt (by omega), Nat.mod_eq_of_lt (by omega)]
  exact ⟨rfl, rfl⟩

theorem lstmArgs_window {p : Platform} {o : LstmOps} {n : Nat} (h : lstmChecks p (lstmArgs o) = none)
    (hseq : o.seq.toNat = n + 1) :
    lstmArgs { o with seq := BitVec.ofNat 32 n } = (lstmArgs o).window 0 n ∧
      lstmArgs { o with x := BitVec.ofNat 32 (o.x.toNat + 2 * (n * o.nIn.toNat)), seq := 1 } =
        (lstmArgs o).window n 1 := by
  simp only [lstmChecks, lstmShape, firstError_eq_none, List.forall_mem_cons, checkShape_eq_none, positive_iff] at h
  obtain ⟨⟨hin, -⟩, hx, -⟩ := h
  obtain ⟨hlast, hn⟩ := toNat_lastStep hx hin hseq
  simp only [lstmArgs, LstmArgs.window, hlast, hn, Nat.zero_mul, Nat.mul_zero, Nat.add_zero,
    true_and]
  rfl

theorem rnnArgs_window {p : Platform} {o : RnnOps} {n : Nat} (h : rnnChecks p (rnnArgs o) = none)
    (hseq : o.seq.toNat = n + 1) :
    rnnArgs { o with seq := BitVec.ofNat 32 n } = (rnnArgs o).window 0 n ∧
      rnnArgs { o with x := BitVec.ofNat 32 (o.x.toNat + 2 * (n * o.nIn.toNat)), seq := 1 } =
        (rnnArgs o).window n 1 := by
  simp only [rnnChecks, rnnShape, firstError_eq_none, List.forall_mem_cons, checkShape_eq_none, positive_iff] at h
  obtain ⟨⟨hin, -⟩, hx, -⟩ := h
  obtain ⟨hlast, hn⟩ := toNat_lastStep hx hin hseq
  simp only [rnnArgs, RnnArgs.window, hlast, hn, Nat.zero_mul, Nat.mul_zero, Nat.add_zero,
    true_and]
  rfl

/-- An LSTM over `n + 1` time steps (R290, R292). -/
theorem exec_lstm_succ {s : State} {o : LstmOps} {n : Nat} (h : StandsAlone s (.lstm false (lstmArgs o)))
    (hseq : o.seq.toNat = n + 1) (hn : 1 ≤ n) :
    ∃ t u v, exec (.lstm { o with seq := BitVec.ofNat 32 n }) s = .next t ∧
      exec (.lstm { o with x := BitVec.ofNat 32 (o.x.toNat + 2 * (n * o.nIn.toNat)), seq := 1 }) t = .next u ∧
      exec (.lstm o) s = .next v ∧ ∀ p, v.mem.read p = u.mem.read p := by
  obtain ⟨hargs₁, hargs₂⟩ := lstmArgs_window h.checks hseq
  have h₁ := h.lstm_window hn (hseq ▸ by omega : 0 + n ≤ o.seq.toNat)
  have h₂ := h.lstm_window le_rfl hseq.ge
  have hrun := lstmRun_append (cfg := s.tileCfg) (lut := s.lut) (x := s.run) h hn le_rfl hseq
  rw [← hargs₁] at h₁ hrun
  rw [← hargs₂] at h₂ hrun
  exact exec_of_run_append (L := .lstm false o) (L₁ := .lstm false _) (L₂ := .lstm false _) (half := false) h h₁ h₂ hrun

/-- An RNN over `n + 1` time steps (R290, R295). -/
theorem exec_rnn_succ {s : State} {o : RnnOps} {n : Nat} (h : StandsAlone s (.rnn (rnnArgs o)))
    (hseq : o.seq.toNat = n + 1) (hn : 1 ≤ n) :
    ∃ t u v, exec (.rnn { o with seq := BitVec.ofNat 32 n }) s = .next t ∧
      exec (.rnn { o with x := BitVec.ofNat 32 (o.x.toNat + 2 * (n * o.nIn.toNat)), seq := 1 }) t = .next u ∧
      exec (.rnn o) s = .next v ∧ ∀ p, v.mem.read p = u.mem.read p := by
  obtain ⟨hargs₁, hargs₂⟩ := rnnArgs_window h.checks hseq
  have h₁ := h.rnn_window hn (hseq ▸ by omega : 0 + n ≤ o.seq.toNat)
  have h₂ := h.rnn_window le_rfl hseq.ge
  have hrun := rnnRun_append (cfg := s.tileCfg) (lut := s.lut) (x := s.run) h hn le_rfl hseq
  rw [← hargs₁] at h₁ hrun
  rw [← hargs₂] at h₂ hrun
  exact exec_of_run_append (L := .rnn o) (L₁ := .rnn _) (L₂ := .rnn _) (half := false) h h₁ h₂ hrun

end Sys2Proof.Machine

namespace Sys2Proof.Proofs

open Sys2Proof Sys2Proof.Machine Sys2Proof.Claims

/-- Settles O35: every phase of either form writes its slot of G, C or H. -/
theorem lstmCompletesWithinItsState : Obligations.LstmCompletesWithinItsState :=
  fun _ _ h => ⟨lstmCommand_onlyTiled h, lstmCommand_onlyTiled h⟩

/-- Settles O39: every phase of a time step writes T or H. -/
theorem rnnCompletesWithinItsState : Obligations.RnnCompletesWithinItsState :=
  fun _ _ h => execRnn_onlyTiled h

/-- Settles O37: the run folds the time steps, and both parts of the sequence stand alone as the whole does. -/
theorem sequencesUnroll : Obligations.SequencesUnroll :=
  ⟨fun _ _ _ _ h hap hseq hn => exec_lstm_succ (standsAlone_lstm h hap) hseq hn,
    fun _ _ _ _ h hap hseq hn => exec_rnn_succ (standsAlone_rnn h hap) hseq hn⟩

end Sys2Proof.Proofs
end

section
/-! PROOF. Memory as named tensors: the canonical form makes memories that read alike the same, and each phase of a
recurrent time step is one update of a table of named tensors (spec/20_memory.md R80, R82, spec/44_recurrent.md R292,
R295). -/

namespace Sys2Proof.Machine

open Sys2Proof.Claims

/-! ### The canonical form (20_memory.md R80) -/

/-- A canonical list holds exactly the bytes that differ from what an unlisted address reads as. -/
theorem mem_cells_iff {cs : List Host.Cell} (hcs : cs.Pairwise fun c d => c.1 < d.1)
    (hlisted : ∀ c ∈ cs, c.2 ≠ unlistedByte) (c : Host.Cell) :
    c ∈ cs ↔ c.2 ≠ unlistedByte ∧ readCells cs c.1 = c.2 := by
  induction cs with
  | nil => simp [readCells, eq_comm]
  | cons d cs ih =>
    rw [List.pairwise_cons] at hcs
    rw [List.forall_mem_cons] at hlisted
    by_cases h : c.1 = d.1
    · have hnot : c ∉ cs := fun hc => (hcs.1 c hc).ne' h
      rw [List.mem_cons, or_iff_left hnot, readCells, if_pos h]
      exact ⟨by rintro rfl; exact ⟨hlisted.1, rfl⟩, fun heq => Prod.ext h heq.2.symm⟩
    · have hne : c ≠ d := fun heq => h (congrArg Prod.fst heq)
      rw [List.mem_cons, or_iff_right hne, ih hcs.2 hlisted.2, readCells, if_neg h]

/-- Memories in canonical form that read alike are the same. -/
theorem Memory.eq_of_read_eq {m m' : Memory} (hm : m.wf) (hm' : m'.wf) (h : ∀ p, m.read p = m'.read p) : m = m' := by
  obtain ⟨hsorted, hlisted⟩ := hm
  obtain ⟨hsorted', hlisted'⟩ := hm'
  have hmem (c : Host.Cell) : c ∈ m.cells ↔ c ∈ m'.cells := by
    rw [mem_cells_iff hsorted fun d hd => (hlisted d hd).1, mem_cells_iff hsorted' fun d hd => (hlisted' d hd).1]
    exact and_congr_right fun _ => Eq.congr_left (h c.1)
  have hne {c d : Host.Cell} (hlt : c.1 < d.1) : c ≠ d := fun heq => hlt.ne (congrArg Prod.fst heq)
  have hperm : m.cells.Perm m'.cells := (List.perm_ext_iff_of_nodup (hsorted.imp hne) (hsorted'.imp hne)).2 hmem
  exact congrArg Memory.mk (hperm.eq_of_pairwise (fun _ _ _ _ hlt hgt => absurd hlt hgt.not_gt) hsorted hsorted')

/-! ### Stores of a table -/

theorem Tabulates.congr {es : List (Nat × FixedScalar)} {n : Nat} {g g' : Nat → FixedScalar} (h : Tabulates es n g)
    (hg : ∀ i, i < n → g i = g' i) : Tabulates es n g' :=
  fun e => (h e).trans (and_congr_right fun hlt => by rw [hg e.1 hlt])

theorem tabulates_range (n : Nat) (g : Nat → FixedScalar) : Tabulates ((List.range n).map fun i => (i, g i)) n g := by
  rintro ⟨i, v⟩
  simp [eq_comm]

/-- A run whose only effect is that a tensor holds a table is the run that stores the table (20_memory.md R80). -/
theorem Run.eq_put_of_elem_eq {x y : Run} {t n : Nat} {g : Nat → FixedScalar} {es : List (Nat × FixedScalar)}
    (hy : Run.Within [tensorRange t n] x y) (hdraws : y.draws = x.draws) (hx : x.mem.wf) (hb : t + 2 * n ≤ 2 ^ 32)
    (helem : ∀ i, i < n → y.mem.elem t i = g i) (hes : Tabulates es n g) : y = x.put false t es := by
  have hput : Run.Within [tensorRange t n] x (x.put false t es) :=
    Run.within_put_whole (fun e he => ((hes e).1 he).1) List.mem_cons_self
  have hkept : (x.put false t es).draws = x.draws := Run.draws_put
  have hmem : y.mem = (x.put false t es).mem := by
    refine Memory.eq_of_read_eq (hy.wf hx) (hput.wf hx) (Memory.read_eq_of_elem_eq (t := t) (n := n) ?_ fun p hp => ?_)
    · exact fun i hi => (helem i hi).trans (hes.elem_put hx hb hi).symm
    · rw [hy.read p (List.forall_mem_singleton.2 hp), hput.read p (List.forall_mem_singleton.2 hp)]
  calc y = (x.put false t es).withDraws y.draws := Run.eq_withDraws hmem
    _ = (x.put false t es).withDraws (x.put false t es).draws := congrArg _ (hdraws.trans hkept.symm)

/-! ### Named tensors -/

/-- Tensors of `n` elements, one for each name, in the address space and apart from each other. -/
structure Laid {ι : Type} (n : Nat) (base : ι → Nat) : Prop where
  le : ∀ i, base i + 2 * n ≤ 2 ^ 32
  apart : ∀ i j, i ≠ j → base i + 2 * n ≤ base j ∨ base j + 2 * n ≤ base i

/-- Memory in canonical form in which each named tensor holds its table. -/
structure Memory.Holds {ι : Type} (m : Memory) (n : Nat) (base : ι → Nat) (v : ι → Nat → FixedScalar) : Prop where
  wf : m.wf
  elem : ∀ i k, k < n → m.elem (base i) k = v i k

theorem Memory.Holds.congr {ι : Type} {m : Memory} {n : Nat} {base : ι → Nat} {v v' : ι → Nat → FixedScalar}
    (h : m.Holds n base v) (hv : ∀ i, v i = v' i) : m.Holds n base v' :=
  (funext hv : v = v') ▸ h

section Named

variable {ι : Type} [DecidableEq ι] {n : Nat} {base : ι → Nat} {v : ι → Nat → FixedScalar} {x : Run}

/-- Stores of a table into a named tensor replace its table alone. -/
theorem Laid.put (hl : Laid n base) (h : x.mem.Holds n base v) (i : ι) {es : List (Nat × FixedScalar)}
    {g : Nat → FixedScalar} (hes : Tabulates es n g) :
    (x.put false (base i) es).mem.Holds n base (Function.update v i g) := by
  refine ⟨Run.wf_put h.wf, fun j k hk => ?_⟩
  by_cases hj : j = i
  · subst hj
    rw [Function.update_self]
    exact hes.elem_put h.wf (hl.le j) hk
  · rw [Function.update_of_ne hj, ← h.elem j k hk]
    refine Memory.elem_congr (fun p hp => Run.read_put_other (n := n) (fun e he => ((hes e).1 he).1) ?_) hk
    rw [holds_tensorRange] at hp
    rw [Bool.eq_false_iff, ne_eq, holds_tensorRange]
    have := hl.apart j i hj
    omega

/-- Two named tensors combined into a third (40_numeric_core.md R175, R176). -/
theorem Laid.zip (hl : Laid n base) (h : x.mem.Holds n base v) (f : FixedScalar → FixedScalar → FixedScalar)
    (i j d : ι) : (x.put false (base d) (zipElems x.mem f (base i) (base j) n)).mem.Holds n base
      (Function.update v d fun k => f (v i k) (v j k)) :=
  hl.put h d ((tabulates_range n _).congr fun k hk => by rw [h.elem i k hk, h.elem j k hk])

/-- A named tensor mapped into another (40_numeric_core.md R177, 42_activation.md R248). -/
theorem Laid.map (hl : Laid n base) (h : x.mem.Holds n base v) (f : FixedScalar → FixedScalar) (i d : ι) :
    (x.put false (base d) (mapElems x.mem f (base i) n)).mem.Holds n base
      (Function.update v d fun k => f (v i k)) :=
  hl.put h d ((tabulates_range n _).congr fun k hk => by rw [h.elem i k hk])

end Named

/-! ### What a run leaves of the tensors it does not write -/

/-- Tensors that share no byte lie one after the other. -/
theorem le_or_le_of_meets {t n u k : Nat} (h : (tensorRange t n).meets [tensorRange u k] = false) (hn : 1 ≤ n)
    (hk : 1 ≤ k) : t + 2 * n ≤ u ∨ u + 2 * k ≤ t := by
  simp only [Range.meets, Range.overlaps, tensorRange, List.any_cons, List.any_nil, Bool.or_false,
    Bool.and_eq_false_iff, decide_eq_false_iff_not] at h
  omega

/-- A run inside one range leaves what that range is apart from. -/
theorem Run.Within.read_of_meets {w r : Range} {rs : List Range} {x y : Run} (h : Run.Within [w] x y)
    (hw : w.meets rs = false) (hr : r ∈ rs) : ∀ p, r.holds p = true → y.mem.read p = x.mem.read p := by
  intro p hp
  refine h.read p (List.forall_mem_singleton.2 (Bool.eq_false_iff.2 fun hwp => ?_))
  rw [Range.meets_eq_false.1 hw r hr p hwp] at hp
  cases hp

theorem dotSum_congr {m m' : Memory} {x w k n : Nat} (hx : ∀ i, i < n → m'.elem x i = m.elem x i)
    (hw : ∀ i, i < n → m'.elem w (k + i) = m.elem w (k + i)) : dotSum m' x w k n = dotSum m x w k n :=
  congrArg List.sum (List.map_congr_left fun i hi => by
    rw [val, val, val, val, hx i (List.mem_range.1 hi), hw i (List.mem_range.1 hi)])

end Sys2Proof.Machine
end

section
/-! PROOF. A time step of LSTM: a gate of either form is one run of stores of its values, the gates read what they do
not write, and the cell's phases update the named tensors one by one (spec/44_recurrent.md R291 to R293). -/

namespace Sys2Proof.Machine

open Sys2Proof.Claims

/-! ### The tensors -/

/-- The tensors a time step writes: the hidden and the cell state and the four gate slots (R291, R292). -/
inductive LstmTensor where
  | h
  | c
  | i
  | f
  | g
  | o
  deriving DecidableEq

/-- Where they lie; the gate slots are consecutive parts of G. -/
def LstmArgs.base (a : LstmArgs) : LstmTensor → Nat
  | .h => a.h
  | .c => a.c
  | .i => a.g
  | .f => a.g + 2 * a.nHid
  | .g => a.g + 4 * a.nHid
  | .o => a.g + 6 * a.nHid

/-- The slot of gate `k` (R291). -/
def gateTensor : Fin 4 → LstmTensor
  | 0 => .i
  | 1 => .f
  | 2 => .g
  | 3 => .o

theorem base_gateTensor (a : LstmArgs) (k : Fin 4) : a.base (gateTensor k) = a.g + 2 * (k * a.nHid) := by
  match k with
  | 0 | 1 | 2 | 3 => simp only [gateTensor, LstmArgs.base, Fin.coe_ofNat_eq_mod]; omega

section Apart

variable {s : State} {fused : Bool} {a : LstmArgs} (h : StandsAlone s (.lstm fused a))
include h

theorem lstm_counts : 1 ≤ a.nIn ∧ 1 ≤ a.nHid ∧ 1 ≤ a.seq := by
  have hshape : lstmShape a = none := firstError_eq_none.1 h.checks _ List.mem_cons_self
  simpa [lstmShape, positive_iff, Nat.lt_iff_add_one_le] using hshape

/-- G meets no other tensor of the command (20_memory.md R91). -/
theorem lstmG_meets : (lstmG a).meets (lstmH a :: lstmC a :: (lstmFootprint a).reads) = false :=
  congrArg LstmFree.g (lstmFree_of_apart h.self)

/-- The gate slots follow one another in G, and H and C lie outside it and outside each other (R291). -/
theorem lstm_laid : Laid a.nHid a.base := by
  obtain ⟨-, hhid, -⟩ := lstm_counts h
  have hle (t n : Nat) (ht : checkTensor s.platform t n ∈ lstmTensorChecks s.platform a) : t + 2 * n ≤ 2 ^ 32 :=
    le_of_firstError h.checks (List.mem_cons_of_mem _ (List.mem_cons_of_mem _ ht))
  have hh := hle a.h a.nHid (by simp [lstmTensorChecks])
  have hc := hle a.c a.nHid (by simp [lstmTensorChecks])
  have hg := hle a.g (4 * a.nHid) (by simp [lstmTensorChecks])
  obtain ⟨hgh, hrest⟩ := Range.meets_cons_eq_false.1 (lstmG_meets h)
  obtain ⟨hgc, -⟩ := Range.meets_cons_eq_false.1 hrest
  have hhc : (lstmH a).meets (lstmC a :: lstmG a :: (lstmFootprint a).reads) = false :=
    congrArg LstmFree.h (lstmFree_of_apart h.self)
  have hhc := le_or_le_of_meets (Range.meets_cons_eq_false.1 hhc).1 hhid hhid
  have hgh := le_or_le_of_meets hgh (by omega) hhid
  have hgc := le_or_le_of_meets hgc (by omega) hhid
  refine ⟨fun d => ?_, fun d e hde => ?_⟩
  · cases d <;> simp only [LstmArgs.base] <;> omega
  · cases d <;> cases e <;> simp only [LstmArgs.base, ne_eq, not_true_eq_false] at hde ⊢ <;> omega

end Apart

/-! ### The gates (R291 to R293) -/

section Gates

variable {cfg : Word} {lut : Lut} {a : LstmArgs} {x : Run}

/-- A gate of either form stores its values in its slot (R293). -/
theorem lstmGate_eq_put (fused : Bool) (t : Nat) (k : Fin 4) (hl : Laid a.nHid a.base) (hcfg : tileCfgLegal cfg = true)
    (hx : x.mem.wf) :
    lstmGate cfg lut fused ⟨false, false, false⟩ a t x k =
      x.put false (a.base (gateTensor k)) (gateOutputs cfg lut (lstmGateMode k) x.mem (lstmGateArgs a t k)) := by
  have hb := hl.le (gateTensor k)
  rw [base_gateTensor] at hb ⊢
  cases fused with
  | true => rfl
  | false =>
    have htable (mode : Mode) := tabulates_tiled hcfg a.nHid (gateChannel lut mode x.mem (lstmGateArgs a t k))
    have hplain : Run.Within [tensorRange (a.g + 2 * (k * a.nHid)) a.nHid] x
        (x.put false (a.g + 2 * (k * a.nHid)) (gateOutputs cfg lut .identity x.mem (lstmGateArgs a t k))) :=
      Run.within_put_whole tiled_lt List.mem_cons_self
    refine Run.eq_put_of_elem_eq (hplain.trans (Run.within_put_whole mapElems_lt List.mem_cons_self)) ?_ hx hb
      (fun i hi => ?_) (htable (lstmGateMode k))
    · exact Run.draws_put.trans Run.draws_put
    · calc _ = actf lut (lstmGateMode k) _ := Run.elem_put_range (hplain.wf hx) hb hi
        _ = _ := congrArg _ ((htable .identity).elem_put hx hb hi)

/-- The gates of a time step are the four of R291. -/
theorem lt_four_of_mem {k : Nat} (hk : k ∈ [0, 1, 2, 3]) : k < 4 := by
  simp only [List.mem_cons, List.not_mem_nil, or_false] at hk
  omega

/-- The gates of a time step write G alone. -/
theorem lstmGates_within {fused : Bool} {fr : LstmFree} {t : Nat} :
    Run.Within [lstmG a] x ([0, 1, 2, 3].foldl (lstmGate cfg lut fused fr a t) x) :=
  Run.Within.foldl (fun _ hk _ => lstmGate_within (lt_four_of_mem hk)) x

theorem lstmStep_within {fused : Bool} {fr : LstmFree} {t : Nat} :
    Run.Within (lstmFootprint a).writes x (lstmStep cfg lut fused fr a x t) :=
  (lstmGates_within.mono (by simp [lstmFootprint])).trans lstmCell_within

/-- Folds of steps that agree on canonical memory and keep it agree (20_memory.md R80). -/
theorem Run.foldl_congr_of_wf {f f' : Run → Nat → Run} {l : List Nat}
    (hf : ∀ k ∈ l, ∀ y : Run, y.mem.wf → f y k = f' y k) (hwf : ∀ k ∈ l, ∀ y : Run, y.mem.wf → (f y k).mem.wf)
    (hx : x.mem.wf) : l.foldl f x = l.foldl f' x := by
  induction l generalizing x with
  | nil => rfl
  | cons k l ih =>
    rw [List.forall_mem_cons] at hf hwf
    rw [List.foldl_cons, List.foldl_cons, ← hf.1 x hx]
    exact ih hf.2 hwf.2 (hwf.1 x hx)

/-- The two forms of LSTM run alike (R293). -/
theorem lstmRun_fused {s : State} (h : StandsAlone s (.lstm true a)) (hcfg : tileCfgLegal cfg = true)
    (hx : x.mem.wf) : lstmRun cfg lut true [] a x = lstmRun cfg lut false [] a x := by
  have hl := lstm_laid h
  rw [lstmRun, lstmRun, lstmFree_of_apart h.self]
  refine Run.foldl_congr_of_wf (fun t _ y hy => ?_) (fun t _ y hy => lstmStep_within.wf hy) hx
  refine congrArg (lstmCell lut _ a) (Run.foldl_congr_of_wf (fun k hk z hz => ?_) (fun k hk z hz => ?_) hy)
  · have hk : k < 4 := lt_four_of_mem hk
    exact (lstmGate_eq_put true t ⟨k, hk⟩ hl hcfg hz).trans (lstmGate_eq_put false t ⟨k, hk⟩ hl hcfg hz).symm
  · exact (lstmGate_within (lt_four_of_mem hk)).wf hz

end Gates

/-! ### The cell (R292) -/

/-- The tables after the element-wise part of a time step, from those before it. -/
def cellTables (lut : Lut) (v : LstmTensor → Nat → FixedScalar) : LstmTensor → Nat → FixedScalar :=
  let cell k := add16 (had16 (v .f k) (v .c k)) (had16 (v .i k) (v .g k))
  fun
    | .h => fun k => had16 (v .o k) (actf lut .tanh (cell k))
    | .c => cell
    | .g => fun k => actf lut .tanh (cell k)
    | .i => v .i
    | .f => v .f
    | .o => v .o

theorem lstmCell_holds {lut : Lut} {a : LstmArgs} {x : Run} {v : LstmTensor → Nat → FixedScalar}
    (hl : Laid a.nHid a.base) (h : x.mem.Holds a.nHid a.base v) :
    (lstmCell lut ⟨false, false, false⟩ a x).mem.Holds a.nHid a.base (cellTables lut v) := by
  have hforget := hl.zip h had16 .f .c .c
  have hinput := hl.zip hforget had16 .i .g .g
  have hcell := hl.zip hinput add16 .c .g .c
  have htanh := hl.map hcell (actf lut .tanh) .c .g
  have hhidden := hl.zip htanh had16 .o .g .h
  exact hhidden.congr fun d => by cases d <;> simp [cellTables, Function.update]

/-! ### The first time step -/

section FirstStep

variable {s : State} {o : LstmOps} {fused : Bool}

/-- A gate's channel at the first time step (R291, R292). -/
theorem gateChannel_eq_gateValue (m : Memory) (k j : Nat) :
    gateChannel s.lut (lstmGateMode k) m (lstmGateArgs (lstmArgs o) 0 k) j = gateValue { s with mem := m } o k j := by
  have hrow (w n : Nat) : w + 2 * (k * o.nHid.toNat * n) + 2 * (j * n) = w + 2 * ((k * o.nHid.toNat + j) * n) := by
    rw [Nat.add_mul, Nat.mul_add, Nat.add_assoc]
  simp only [gateChannel, lstmGateArgs, lstmArgs, Nat.zero_mul, Nat.mul_zero, Nat.add_zero, hrow,
    Memory.elem_add_two_mul]
  rw [dot_tensor_dotSum, dot_tensor_dotSum, wrap32_toInt_wrap32_add, requantize_wrap32, toInt_bias12Sum]
  rfl

/-- A gate's value rests on the hidden state and the tensors the command only reads. -/
theorem gateValue_congr {m : Memory} {k j : Nat} (hseq : 1 ≤ o.seq.toNat) (hk : k < 4) (hj : j < o.nHid.toNat)
    (hh : ∀ p, (lstmH (lstmArgs o)).holds p = true → m.read p = s.mem.read p)
    (hreads : ∀ r ∈ (lstmFootprint (lstmArgs o)).reads, ∀ p, r.holds p = true → m.read p = s.mem.read p) :
    gateValue { s with mem := m } o k j = gateValue s o k j := by
  simp only [lstmFootprint, lstmParams, List.forall_mem_cons] at hreads
  obtain ⟨hx, hwih, hwhh, hbih, hbhh, -⟩ := hreads
  have hc : k * o.nHid.toNat + j < 4 * o.nHid.toNat := digit_lt hk hj
  have hin : o.nIn.toNat ≤ o.seq.toNat * o.nIn.toNat := Nat.le_mul_of_pos_left _ hseq
  have hxsum : dotSum m o.x.toNat o.wih.toNat ((k * o.nHid.toNat + j) * o.nIn.toNat) o.nIn.toNat = dotSum s.mem .. :=
    dotSum_congr (fun i hi => Memory.elem_congr hx (hi.trans_le hin)) fun i hi =>
      Memory.elem_congr hwih (digit_lt hc hi)
  have hhsum : dotSum m o.h.toNat o.whh.toNat ((k * o.nHid.toNat + j) * o.nHid.toNat) o.nHid.toNat = dotSum s.mem .. :=
    dotSum_congr (fun i hi => Memory.elem_congr hh hi) fun i hi => Memory.elem_congr hwhh (digit_lt hc hi)
  have hb₁ : m.elem o.bih.toNat _ = s.mem.elem o.bih.toNat _ := Memory.elem_congr hbih hc
  have hb₂ : m.elem o.bhh.toNat _ = s.mem.elem o.bhh.toNat _ := Memory.elem_congr hbhh hc
  simp only [gateValue, val, hxsum, hhsum, hb₁, hb₂]

/-- What the gates run so far leave: nothing outside G written, and the named tensors with their tables. -/
structure GatesHold (s : State) (a : LstmArgs) (v : LstmTensor → Nat → FixedScalar) (x : Run) : Prop where
  within : Run.Within [lstmG a] s.run x
  holds : x.mem.Holds a.nHid a.base v

/-- Each gate adds its values, computed from what the time step started with (R292: "each gate sees h(t-1)"). -/
theorem GatesHold.gate (h : StandsAlone s (.lstm fused (lstmArgs o))) (hcfg : tileCfgLegal s.tileCfg = true)
    {v : LstmTensor → Nat → FixedScalar} {x : Run} (hx : GatesHold s (lstmArgs o) v x) (k : Fin 4) :
    GatesHold s (lstmArgs o) (Function.update v (gateTensor k) (gateValue s o k))
      (lstmGate s.tileCfg s.lut fused ⟨false, false, false⟩ (lstmArgs o) 0 x k) := by
  obtain ⟨hwithin, hholds⟩ := hx
  have hl := lstm_laid h
  have hmeets := lstmG_meets h
  refine ⟨hwithin.trans (lstmGate_within k.isLt), ?_⟩
  rw [lstmGate_eq_put fused 0 k hl hcfg hholds.wf]
  refine hl.put hholds (gateTensor k) ((tabulates_tiled hcfg _ _).congr fun j hj => ?_)
  rw [gateChannel_eq_gateValue]
  exact gateValue_congr (lstm_counts h).2.2 k.isLt hj (hwithin.read_of_meets hmeets (by simp))
    fun r hr => hwithin.read_of_meets hmeets (by simp [hr])

/-- The tables after the gates of the first time step. -/
def gateTables (s : State) (o : LstmOps) : LstmTensor → Nat → FixedScalar
  | .h => s.mem.elem o.h.toNat
  | .c => s.mem.elem o.c.toNat
  | .i => gateValue s o 0
  | .f => gateValue s o 1
  | .g => gateValue s o 2
  | .o => gateValue s o 3

theorem lstmGates_hold (h : StandsAlone s (.lstm fused (lstmArgs o))) (hs : Ready s) :
    ([0, 1, 2, 3].foldl (lstmGate s.tileCfg s.lut fused ⟨false, false, false⟩ (lstmArgs o) 0) s.run).mem.Holds
      o.nHid.toNat (lstmArgs o).base (gateTables s o) := by
  have hstart : GatesHold s (lstmArgs o) (fun d => s.mem.elem ((lstmArgs o).base d)) s.run :=
    ⟨.refl, hs.1, fun _ _ _ => rfl⟩
  have hgates := (((hstart.gate h hs.2 0).gate h hs.2 1).gate h hs.2 2).gate h hs.2 3
  exact hgates.holds.congr fun d => by
    cases d <;> simp [gateTables, gateTensor, Function.update, LstmArgs.base, lstmArgs]

/-- The memory an LSTM of either form leaves after one time step (R291, R292). -/
theorem lstmRun_one_holds (h : StandsAlone s (.lstm fused (lstmArgs o))) (hs : Ready s) (hseq : o.seq = 1) :
    (lstmRun s.tileCfg s.lut fused [] (lstmArgs o) s.run).mem.Holds o.nHid.toNat (lstmArgs o).base
      (cellTables s.lut (gateTables s o)) := by
  have hone : (lstmArgs o).seq = 1 := congrArg BitVec.toNat hseq
  rw [lstmRun, lstmFree_of_apart h.self, hone]
  exact lstmCell_holds (lstm_laid h) (lstmGates_hold h hs)

/-- An LSTM of either form whose tensors are apart leaves the memory of its run (20_memory.md R91). -/
theorem lstmCommand_mem (h : StandsAlone s (.lstm fused (lstmArgs o))) :
    ∃ t, lstmCommand fused o s = .next t ∧ t.mem = (lstmRun s.tileCfg s.lut fused [] (lstmArgs o) s.run).mem :=
  ⟨_, lstmCommand_none h.checks, congrArg Run.mem (Run.freeOverlaps_of_apart h.desc)⟩

end FirstStep

end Sys2Proof.Machine

namespace Sys2Proof.Proofs

open Sys2Proof Sys2Proof.Machine Sys2Proof.Claims

/-- Settles O38: the two forms pass the same checks, and their runs are one. -/
theorem lstmFormsWriteTheSameMemory : Obligations.LstmFormsWriteTheSameMemory := by
  intro s o hs h hap
  obtain ⟨t, ht, htmem⟩ := lstmCommand_mem (standsAlone_lstm (fused := false) h hap)
  obtain ⟨u, hu, humem⟩ := lstmCommand_mem (standsAlone_lstm (fused := true) h hap)
  have hrun := lstmRun_fused (lut := s.lut) (x := s.run) (standsAlone_lstm h hap) hs.2 hs.1
  refine ⟨t, u, ht, hu, fun p => ?_⟩
  rw [htmem, humem, hrun]

/-- Settles O36: the cell's tables after the gates', read back at the places the gate slots have in G. -/
theorem lstmSingleStepResult : Obligations.LstmSingleStepResult := by
  intro s o hs h hseq hap
  have halone := standsAlone_lstm (fused := false) h hap
  obtain ⟨t, ht, hmem⟩ := lstmCommand_mem halone
  have hholds := lstmRun_one_holds halone hs hseq
  rw [← hmem] at hholds
  refine ⟨t, ht, fun j hj => ?_⟩
  have hslot (k : Fin 4) : t.mem.elem o.g.toNat (k * o.nHid.toNat + j) =
      cellTables s.lut (gateTables s o) (gateTensor k) j := by
    rw [← Memory.elem_add_two_mul, ← hholds.elem (gateTensor k) j hj, base_gateTensor]
    rfl
  have hforget := hslot 1
  rw [Fin.val_one, Nat.one_mul] at hforget
  exact ⟨hholds.elem .c j hj, hholds.elem .i j hj, hforget, hslot 2, hslot 3, hholds.elem .h j hj⟩

end Sys2Proof.Proofs
end

section
/-! PROOF. A time step of RNN: two requantized terms in T1 and T2, then the phases that add, activate and copy them
(spec/44_recurrent.md R295, R296). -/

namespace Sys2Proof.Machine

open Sys2Proof.Claims

/-- The tensors a time step writes: the hidden state and the two halves of T (R295). -/
inductive RnnTensor where
  | h
  | t1
  | t2
  deriving DecidableEq

/-- Where they lie. -/
def RnnArgs.base (a : RnnArgs) : RnnTensor → Nat
  | .h => a.h
  | .t1 => a.t
  | .t2 => a.t + 2 * a.nHid

section Apart

variable {s : State} {a : RnnArgs} (h : StandsAlone s (.rnn a))
include h

/-- T meets no other tensor of the command (20_memory.md R91). -/
theorem rnnT_meets : (rnnT a).meets (rnnH a :: (rnnFootprint a).reads) = false :=
  congrArg RnnFree.t (rnnFree_of_apart h.self)

/-- The halves of T follow one another, and H lies outside it (R295). -/
theorem rnn_laid : Laid a.nHid a.base := by
  have hshape : rnnShape a = none := firstError_eq_none.1 h.checks _ List.mem_cons_self
  have hhid : 1 ≤ a.nHid := positive_iff.1 (checkShape_eq_none.1 hshape) _ (by simp)
  have hle (t n : Nat) (ht : checkTensor s.platform t n ∈ rnnTensorChecks s.platform a) : t + 2 * n ≤ 2 ^ 32 :=
    le_of_firstError h.checks (List.mem_cons_of_mem _ (List.mem_cons_of_mem _ ht))
  have hh := hle a.h a.nHid (by simp [rnnTensorChecks])
  have ht := hle a.t (2 * a.nHid) (by simp [rnnTensorChecks])
  have hth := le_or_le_of_meets (Range.meets_cons_eq_false.1 (rnnT_meets h)).1 (by omega) hhid
  refine ⟨fun d => ?_, fun d e hde => ?_⟩
  · cases d <;> simp only [RnnArgs.base] <;> omega
  · cases d <;> cases e <;> simp only [RnnArgs.base, ne_eq, not_true_eq_false] at hde ⊢ <;> omega

end Apart

/-! ### The terms (R295) -/

/-- The input term of unit `j` at the first time step, requantized by itself. -/
def inputTerm (s : State) (o : RnnOps) (j : Nat) : FixedScalar :=
  linearClosed s.mem (val s.mem o.bih.toNat j) o.x.toNat o.wih.toNat o.nIn.toNat j

/-- The hidden term of unit `j` at the first time step, requantized by itself. -/
def hiddenTerm (s : State) (o : RnnOps) (j : Nat) : FixedScalar :=
  linearClosed s.mem (val s.mem o.bhh.toNat j) o.h.toNat o.whh.toNat o.nHid.toNat j

section FirstStep

variable {s : State} {o : RnnOps}

theorem linearChannel_input (s : State) (o : RnnOps) (j : Nat) :
    linearChannel s.mem (rnnInputArgs (rnnArgs o) 0) j = inputTerm s o j := by
  have hargs : rnnInputArgs (rnnArgs o) 0 =
      linearArgs true { inp := o.x, out := o.t, w := o.wih, b := o.bih, nIn := o.nIn, nOut := o.nHid } := by
    simp [rnnInputArgs, rnnArgs, linearArgs]
  rw [hargs, linearChannel_bias]
  rfl

theorem tabulates_input (s : State) (o : RnnOps) (hcfg : tileCfgLegal s.tileCfg = true) :
    Tabulates (linearOutputs s.tileCfg s.mem (rnnInputArgs (rnnArgs o) 0)) o.nHid.toNat (inputTerm s o) :=
  (tabulates_tiled hcfg _ _).congr fun j _ => linearChannel_input s o j

/-- The hidden term does not see what the time step has written to T. -/
theorem tabulates_hidden (h : StandsAlone s (.rnn (rnnArgs o))) (hcfg : tileCfgLegal s.tileCfg = true) {x : Run}
    (hx : Run.Within [rnnT (rnnArgs o)] s.run x) :
    Tabulates (linearOutputs s.tileCfg x.mem (rnnHiddenArgs (rnnArgs o))) o.nHid.toNat (hiddenTerm s o) := by
  have hkeep {r : Range} (hr : r ∈ rnnH (rnnArgs o) :: (rnnFootprint (rnnArgs o)).reads) :=
    hx.read_of_meets (rnnT_meets h) hr
  have hchannel := linearChannel_bias x.mem
    { inp := o.h, out := o.t, w := o.whh, b := o.bhh, nIn := o.nHid, nOut := o.nHid }
  refine (tabulates_tiled hcfg _ _).congr fun j hj => (hchannel j).trans ?_
  refine linearClosed_congr (nOut := o.nHid.toNat) hj (hkeep ?_) (hkeep ?_) (hkeep ?_)
  · simp [rnnFootprint, rnnParams, rnnArgs]
  · simp [rnnH, rnnArgs]
  · simp [rnnFootprint, rnnParams, rnnArgs]

/-- The tables after the first time step: T1 and H hold the activation of the wrapped sum, T2 the hidden term. -/
def rnnTables (s : State) (o : RnnOps) : RnnTensor → Nat → FixedScalar
  | .h => fun j => actf s.lut .tanh (add16 (inputTerm s o j) (hiddenTerm s o j))
  | .t1 => fun j => actf s.lut .tanh (add16 (inputTerm s o j) (hiddenTerm s o j))
  | .t2 => hiddenTerm s o

theorem rnnStep_holds (h : StandsAlone s (.rnn (rnnArgs o))) (hs : Ready s) :
    (rnnStep s.tileCfg s.lut ⟨false, false⟩ (rnnArgs o) s.run 0).mem.Holds o.nHid.toNat (rnnArgs o).base
      (rnnTables s o) := by
  have hl := rnn_laid h
  have hstart : s.run.mem.Holds o.nHid.toNat (rnnArgs o).base fun d => s.mem.elem ((rnnArgs o).base d) :=
    ⟨hs.1, fun _ _ _ => rfl⟩
  have hinput := hl.put hstart .t1 (tabulates_input s o hs.2)
  have hwithin : Run.Within [rnnT (rnnArgs o)] s.run
      (s.run.put false o.t.toNat (linearOutputs s.tileCfg s.mem (rnnInputArgs (rnnArgs o) 0))) :=
    Run.within_put (k := 0) (n := o.nHid.toNat) (len := 2 * o.nHid.toNat) tiled_lt (by omega) List.mem_cons_self
  have hhidden := hl.put hinput .t2 (tabulates_hidden h hs.2 hwithin)
  have hsum := hl.zip hhidden add16 .t1 .t2 .t1
  have htanh := hl.map hsum (actf s.lut .tanh) .t1 .t1
  have hcopy := hl.map htanh id .t1 .h
  exact hcopy.congr fun d => by cases d <;> simp [rnnTables, Function.update]

/-- An RNN whose tensors are apart leaves the memory of its run (20_memory.md R91). -/
theorem execRnn_mem (h : StandsAlone s (.rnn (rnnArgs o))) :
    ∃ t, execRnn o s = .next t ∧ t.mem = (rnnRun s.tileCfg s.lut [] (rnnArgs o) s.run).mem :=
  ⟨_, execRnn_none h.checks, congrArg Run.mem (Run.freeOverlaps_of_apart h.desc)⟩

/-- The memory an RNN leaves after one time step (R295). -/
theorem rnnRun_one_holds (h : StandsAlone s (.rnn (rnnArgs o))) (hs : Ready s) (hseq : o.seq = 1) :
    (rnnRun s.tileCfg s.lut [] (rnnArgs o) s.run).mem.Holds o.nHid.toNat (rnnArgs o).base (rnnTables s o) := by
  have hone : (rnnArgs o).seq = 1 := congrArg BitVec.toNat hseq
  rw [rnnRun, rnnFree_of_apart h.self, hone]
  exact rnnStep_holds h hs

end FirstStep

end Sys2Proof.Machine

namespace Sys2Proof.Proofs

open Sys2Proof Sys2Proof.Machine Sys2Proof.Claims

/-- Settles O40: T1 takes the input term, the wrapped sum and its activation in turn, T2 the hidden term. -/
theorem rnnSingleStepResult : Obligations.RnnSingleStepResult := by
  intro s o hs h hseq hap
  have halone := standsAlone_rnn h hap
  obtain ⟨t, ht, hmem⟩ := execRnn_mem halone
  have hholds := rnnRun_one_holds halone hs hseq
  rw [← hmem] at hholds
  refine ⟨t, ht, fun j hj => ⟨hholds.elem .h j hj, hholds.elem .t1 j hj, ?_⟩⟩
  rw [← Memory.elem_add_two_mul]
  exact hholds.elem .t2 j hj

end Sys2Proof.Proofs
end

section
/-! PROOF. How a command's end shows outside: the frame of a success, the interrupt output, and that every dutiful move
goes on (spec/60_exceptions.md R311, R320 to R325). -/

namespace Sys2Proof.Machine

open Sys2Proof.Claims

/-! ### What every end of a command gives -/

theorem CommandEnds.goes_on {s : State} {o : Host.Outcome State Fault Refusal} (h : CommandEnds s o) :
    ∃ t, o = .next t := by
  rcases h with ⟨e, p, k, -, ho⟩ | ⟨b, -, ho⟩
  · exact ⟨_, ho⟩
  · exact ⟨_, ho⟩

/-- DONE or ERR is set at every end, so the interrupt output is IRQ_EN (R325). -/
theorem CommandEnds.irq {s : State} {o : Host.Outcome State Fault Refusal} (h : CommandEnds s o) :
    ∃ t, o = .next t ∧ t.irq = s.irqEn := by
  rcases h with ⟨e, p, k, -, ho⟩ | ⟨b, hb, ho⟩
  · exact ⟨_, ho, by simp [State.irq]⟩
  · exact ⟨_, ho, by simp [State.irq, hb.irqEn]⟩

/-! ### The interrupt output at the host's writes -/

/-- An acknowledgement of DONE and ERR both clears the interrupt (R322, R325). -/
theorem irq_acknowledge {s : State} {v : Word} (hdone : v.getLsbD 1 = true) (herr : v.getLsbD 2 = true) :
    (s.acknowledge v).irq = false := by
  simp [State.irq, hdone, herr]

/-- A write of CTRL with IRQ_EN = 0 clears the interrupt, whether or not it starts a command (R325). -/
theorem irq_writeCtrl {s : State} {v : Word} (h : v.getLsbD 1 = false) : (s.writeCtrl v).irq = false := by
  rcases writeCtrl_cases s v with ⟨-, hw⟩ | ⟨-, hw⟩ <;> rw [hw, h] <;> rfl

/-! ### Every dutiful move goes on -/

theorem engineTurn_goes_on (s : State) : ∃ t, s.engineTurn = .next t := by
  unfold State.engineTurn
  split
  · exact (completionStep_ends s).goes_on
  · exact ⟨s, rfl⟩

/-- A register access that is not refused goes on, as a read or as a write (10_state.md R49). -/
theorem hostRegRead_goes_on {s : State} {off : BitVec 10} {width : AccessWidth}
    (h : regAccessRefusal s off width = none) : ∃ t, hostRegRead off width s = .next t := by
  obtain ⟨hr, rfl, ha⟩ := regAccessRefusal_eq_none.1 h
  exact ⟨_, hostRegRead_accepted hr ha⟩

theorem hostRegWrite_goes_on {s : State} {off : BitVec 10} {width : AccessWidth} {v : Word}
    (h : regAccessRefusal s off width = none) : ∃ t, hostRegWrite off width v s = .next t := by
  obtain ⟨hr, rfl, ha⟩ := regAccessRefusal_eq_none.1 h
  exact ⟨_, hostRegWrite_accepted hr ha⟩

/-- A read of shared memory goes on, also inside the write set in flight (20_memory.md R98). -/
theorem hostMemRead_goes_on {s : State} {addr : Word} (h : s.platform.memOk addr.toNat 1 = true) :
    ∃ t, hostMemRead addr s = .next t := by
  by_cases hin : ∃ r ∈ s.inFlight.writes, r.holds addr.toNat = true
  · exact ⟨_, hostMemRead_inFlight h hin⟩
  · exact ⟨_, hostMemRead_outside h hin⟩

/-- No dutiful move stops the machine. -/
theorem takeMove_goes_on {s : State} {e : Event} (h : dutiful s e = true) : ∃ t, takeMove e s = .next t := by
  cases e with
  | regRead off width => exact hostRegRead_goes_on (Option.isNone_iff_eq_none.1 h)
  | regWrite off width v => exact hostRegWrite_goes_on (Option.isNone_iff_eq_none.1 h)
  | memRead addr => exact hostMemRead_goes_on h
  | memWrite addr b =>
    simp only [dutiful, Bool.and_eq_true, Bool.not_eq_true', ← Bool.not_eq_true, List.any_eq_true] at h
    obtain ⟨hshared, hout⟩ := h
    exact ⟨_, hostMemWrite_outside hshared hout⟩
  | wait => exact ⟨s, rfl⟩
  | engine => exact engineTurn_goes_on s
  | assertReset => exact ⟨s.enterReset, rfl⟩
  | releaseReset => exact ⟨{ s with inReset := false }, rfl⟩

end Sys2Proof.Machine

namespace Sys2Proof.Proofs

open Sys2Proof Sys2Proof.Machine Sys2Proof.Claims

/-- Settles O7: a command raises an error, or completes after a body that keeps the host's registers. -/
theorem everyCommandEndsPrecisely : Obligations.EveryCommandEndsPrecisely := by
  intro i s
  rcases exec_ends s i with ⟨e, p, k, he, ho⟩ | ⟨b, hb, ho⟩
  · exact ⟨_, ho, .inr ⟨e, p, k, he, rfl⟩⟩
  · exact ⟨_, ho, .inl ⟨rfl, hb.irqEn, hb.cmdAddr, hb.tileCfg, hb.scratchA, hb.scratchB, hb.scratchCap, hb.lut,
      hb.inReset, hb.agenda, hb.hostData⟩⟩

/-- Settles O50: either end sets DONE or ERR, and the host clears both or takes IRQ_EN away. -/
theorem interruptFollowsCompletion : Obligations.InterruptFollowsCompletion :=
  ⟨fun i s => (exec_ends s i).irq, fun _ => ⟨rfl, irq_acknowledge (v := 6) rfl rfl, irq_writeCtrl (v := 0) rfl⟩⟩

/-- Settles O60: the step is the engine's turn, or a move of the agenda that is dutiful. -/
theorem dutifulStepsNeverStop : Obligations.DutifulStepsNeverStop := by
  intro s h
  cases hag : s.agenda with
  | nil => rw [step_nil hag]; exact engineTurn_goes_on s
  | cons e rest =>
    rw [step_cons hag]
    simp only [State.goesOn, hag] at h
    exact takeMove_goes_on h

end Sys2Proof.Proofs
end

section
/-! PROOF. Which error a command ends with: its descriptor's, and where the descriptor passes the first one of its
checks (spec/60_exceptions.md R312 to R317). -/

namespace Sys2Proof.Machine

open Sys2Proof.Claims

/-! ### The descriptor's errors (R312) -/

/-- A descriptor in memory decodes exactly under a legal header, and for a primitive with an index up to 14
(30_encoding.md R123, R124). -/
theorem decode_bytes_isOk_iff {m : Memory} {p : Nat} : (∃ i, decode (m.bytes p 64) = .ok i) ↔
    m.ldw p ∈ legalHeaders ∧ (m.ldw p ∈ [0x050, 0x051, 0x052, 0x053, 0x054] → (m.ldw (p + 4)).toNat ≤ 14) := by
  have hlen : 64 ≤ (m.bytes p 64).length := by simp [Memory.bytes]
  rw [decode_of_length hlen, decodeWords_isOk_iff, wordAt_bytes (by decide), wordAt_bytes (by decide)]
  rfl

theorem fetch_misaligned {s : State} (h : s.cmdAddr.toNat % 4 ≠ 0) : s.fetch = .error .misaligned := if_pos h

theorem fetch_busError {s : State} (ha : s.cmdAddr.toNat % 4 = 0)
    (hm : s.platform.memOk s.cmdAddr.toNat 64 = false) : s.fetch = .error .busError := by
  simp [State.fetch, ha, hm]

theorem fetch_illegalCommand {s : State} (ha : s.cmdAddr.toNat % 4 = 0)
    (hm : s.platform.memOk s.cmdAddr.toNat 64 = true)
    (hd : ¬∃ i, decode (s.mem.bytes s.cmdAddr.toNat 64) = .ok i) : s.fetch = .error .illegalCommand := by
  cases hdec : decode (s.mem.bytes s.cmdAddr.toNat 64) with
  | ok i => exact absurd ⟨i, hdec⟩ hd
  | error e => simp [State.fetch, ha, hm, hdec]

/-- The turn ends a command whose descriptor is bad with the descriptor's error, at CMD_ADDR (R311, R312). -/
theorem engineTurn_of_fetch_error {s : State} {e : ErrCode} (hb : s.busy = true) (hr : s.inReset = false)
    (hf : s.fetch = .error e) : s.engineTurn = .next (erred s e s.cmdAddr 0) := by
  rw [State.engineTurn, hb, hr, State.completionStep, hf]
  rfl

/-- With no move first, and at an `.engine` move, a bad descriptor ends the step with its error. -/
theorem step_of_fetch_error {s t : State} {rest : List Event} {e : ErrCode} (hb : s.busy = true)
    (hr : s.inReset = false)
    (ht : (s.agenda = [] ∧ t = s) ∨ (s.agenda = .engine :: rest ∧ t = { s with agenda := rest }))
    (hf : s.fetch = .error e) : step s = .next (erred t e s.cmdAddr 0) := by
  rcases ht with ⟨hag, rfl⟩ | ⟨hag, rfl⟩
  · exact (step_nil hag).trans (engineTurn_of_fetch_error hb hr hf)
  · exact (step_cons hag).trans (engineTurn_of_fetch_error (s := { s with agenda := rest }) hb hr hf)

/-! ### A command's own checks (R313 to R317) -/

theorem indexError_eq_checkIndex (d : Word) : indexError d = checkIndex d := by
  simp [indexError, checkIndex, indexLegal]

/-- The command ends with the error that its checks found, at CMD_ADDR, if they found one (R311, R316). -/
def EndsWithFound (s : State) (found : Option ErrCode) (o : Host.Outcome State Fault Refusal) : Prop :=
  ∀ e, found = some e → o = .next (erred s e s.cmdAddr 0)

/-- Checks written in another form find the same error. -/
theorem runCommand_endsWithFound {s : State} {found error : Option ErrCode} {body : State → State}
    (heq : error = found) : EndsWithFound s error (s.runCommand found body) :=
  fun _ h => runCommand_some (heq.symm.trans h)

theorem endsWithFound_none {s : State} {o : Host.Outcome State Fault Refusal} : EndsWithFound s none o := nofun

section SharedCommands

variable {s : State}

theorem binaryCommand_endsWithFound (f : FixedScalar → FixedScalar → FixedScalar) (a b dst n : Word) :
    EndsWithFound s (elementError s n [a, b, dst]) (binaryCommand f a b dst n s) :=
  runCommand_endsWithFound (elementError_binary s a b dst n)

theorem unaryCommand_endsWithFound (f : FixedScalar → FixedScalar) (src dst n : Word) :
    EndsWithFound s (elementError s n [src, dst]) (unaryCommand f src dst n s) :=
  runCommand_endsWithFound (elementError_unary s src dst n)

theorem execFill_endsWithFound (dst n : Word) (v : FixedScalar) :
    EndsWithFound s (elementError s n [dst]) (execFill dst n v s) :=
  runCommand_endsWithFound (elementError_fill s dst n)

theorem linearCommand_endsWithFound (hasBias : Bool) (o : LinearOps) :
    EndsWithFound s (linearError s hasBias o) (linearCommand hasBias o s) :=
  runCommand_endsWithFound (linearError_eq_linearChecks s hasBias o)

theorem execConv2d_endsWithFound (o : ConvOps) : EndsWithFound s (convError s o) (execConv2d o s) :=
  runCommand_endsWithFound (convError_eq_convChecks s o)

theorem gateCommand_endsWithFound (mode : Mode) (o : GateOps) :
    EndsWithFound s (gateError s o) (gateCommand mode o s) :=
  runCommand_endsWithFound (gateError_eq_gateChecks s o)

theorem lstmCommand_endsWithFound (fused : Bool) (o : LstmOps) :
    EndsWithFound s (lstmError s o) (lstmCommand fused o s) :=
  runCommand_endsWithFound (lstmError_eq_lstmChecks s o)

theorem execRnn_endsWithFound (o : RnnOps) : EndsWithFound s (rnnError s o) (execRnn o s) :=
  runCommand_endsWithFound (rnnError_eq_rnnChecks s o)

/-- The primitives check their accumulator number alone (R312). -/
theorem primitive_endsWithFound (d : Word) (body : State → State) :
    EndsWithFound s (indexError d) (s.runCommand (checkIndex d) body) :=
  runCommand_endsWithFound (indexError_eq_checkIndex d)

end SharedCommands

/-- A command ends with the error its rule's Checks line finds; ACTS checks nothing, and NET's checks are R273's. -/
theorem exec_endsWithFound (s : State) : ∀ i : Instr, EndsWithFound s (commandError s i) (exec i s)
  | .linear o => linearCommand_endsWithFound true o
  | .linearNb o => linearCommand_endsWithFound false o
  | .rnn o => execRnn_endsWithFound o
  | .lstm o => lstmCommand_endsWithFound false o
  | .lstmF o => lstmCommand_endsWithFound true o
  | .conv2d o => execConv2d_endsWithFound o
  | .gateFusion o => gateCommand_endsWithFound .identity o
  | .gateFusionTanh o => gateCommand_endsWithFound .tanh o
  | .gateFusionSig o => gateCommand_endsWithFound .sigmoid o
  | .add a b dst n => binaryCommand_endsWithFound add16 a b dst n
  | .had a b dst n => binaryCommand_endsWithFound had16 a b dst n
  | .copy src dst n => unaryCommand_endsWithFound id src dst n
  | .fill dst n v => execFill_endsWithFound dst n v
  | .actId src dst n => unaryCommand_endsWithFound _ src dst n
  | .actTanh src dst n => unaryCommand_endsWithFound _ src dst n
  | .actSig src dst n => unaryCommand_endsWithFound _ src dst n
  | .accSet d v => primitive_endsWithFound d fun s => s.setAcc d.toNat v
  | .accB d v => primitive_endsWithFound d fun s => s.setAcc d.toNat (bias12 v)
  | .mac2 d a b =>
    primitive_endsWithFound d fun s => s.setAcc d.toNat (macPair (s.getAcc d.toNat) a.lane0 a.lane1 b.lane0 b.lane1)
  | .mac1 d a b => primitive_endsWithFound d fun s => s.setAcc d.toNat (macScalar (s.getAcc d.toNat) a b)
  | .req d => primitive_endsWithFound d fun s => s.setSres (requantize (s.getAcc d.toNat))
  | .net _ | .actsId _ | .actsTanh _ | .actsSig _ => endsWithFound_none

end Sys2Proof.Machine

namespace Sys2Proof.Proofs

open Sys2Proof Sys2Proof.Machine Sys2Proof.Claims

/-- Settles O6: the engine's turn fetches first, and the fetch finds the three errors in their order. -/
theorem badDescriptorsEndWithTheirError : Obligations.BadDescriptorsEndWithTheirError := by
  intro s t rest hb hr ht
  refine ⟨fun ha => step_of_fetch_error hb hr ht (fetch_misaligned ha),
    fun ha hm => step_of_fetch_error hb hr ht (fetch_busError ha hm),
    fun ha hm hbad => step_of_fetch_error hb hr ht (fetch_illegalCommand ha hm fun hok => ?_)⟩
  obtain ⟨hlegal, hindex⟩ := decode_bytes_isOk_iff.1 hok
  rcases hbad with hillegal | ⟨hprimitive, hhigh⟩
  · exact hillegal hlegal
  · exact absurd (hindex hprimitive) (by omega)

/-- Settles O8: the checks as the statements write them are the model's, command by command. -/
theorem firstFailedCheckIsReported : Obligations.FirstFailedCheckIsReported :=
  fun i s => exec_endsWithFound s i

end Sys2Proof.Proofs
end

section
/-! PROOF. Reset, asserted and released (spec/70_reset_and_hazards.md R340, R342; spec/10_state.md R54). -/

namespace Sys2Proof.Machine

/-- Nothing is in flight with BUSY = 0, so nothing is written (60_exceptions.md R332). -/
theorem inFlight_writes_of_idle {s : State} (hb : s.busy = false) : s.inFlight.writes = [] := by
  rw [State.inFlight, hb]
  rfl

/-- Reset of an idle engine leaves memory alone: there is no write set to free (70_reset_and_hazards.md R342). -/
theorem enterReset_mem_of_idle {s : State} (hb : s.busy = false) : s.enterReset.mem = s.mem := by
  rw [State.enterReset_mem, inFlight_writes_of_idle hb]
  rfl

end Sys2Proof.Machine

namespace Sys2Proof.Proofs

open Sys2Proof Sys2Proof.Machine Sys2Proof.Claims

/-- Settles O56: the step is the agenda's move, and the moves to come are not part of the write set in flight. -/
theorem resetAbandonsTheCommand : Obligations.ResetAbandonsTheCommand := by
  intro s rest
  refine ⟨fun hag => ?asserted, fun hag => step_cons hag⟩
  case asserted =>
    have hframe := (enterReset_mem (s := { s with agenda := rest })).2
    rw [inFlight_agenda] at hframe
    exact ⟨State.enterReset { s with agenda := rest }, step_cons hag, rfl, hframe, fun hb => enterReset_mem_of_idle hb⟩

end Sys2Proof.Proofs
end
